-- ==== Sys2Proof/Word.lean ====
section
/-! DEFINITION. The word types: a byte of memory, a frame or a wire byte (8 bits), and a register, command word or
bus address (32 bits). 00_scope.md rule R9; 10_state.md rule R24. -/

namespace Sys2Proof

/-- A channel value, pixel byte, frame or wire byte: an unsigned 8-bit number (R9). -/
abbrev Byte := BitVec 8

/-- A register of the window, a command word or a bus address: 32 bits (R24, R45). -/
abbrev Word := BitVec 32

end Sys2Proof
end

