-- ==== Sys2Proof/Machine/Memory.lean ====
section
/-! DEFINITION. Host memory as plain data: a list of (address, byte) cells in one canonical form, addresses strictly rising
and no cell holding the byte an unlisted address reads as. 20_memory.md rules R45, R50, R52. -/

namespace Sys2Proof.Machine

/-- What an address that is not listed reads as. DESIGN CHOICE, unsafe: the spec gives host memory no contents at power on, and
the model takes 0x00. Assumption log 4. -/
def unlistedByte : Byte := 0

/-- The size of the host's address space: ADDR_WIDTH = 32 (R45, D13). -/
def addressSpace : Nat := 2 ^ 32

/-- The byte at address `a` (R52: one whole byte). -/
def memGet : List Host.Cell → Nat → Byte
  | [], _ => unlistedByte
  | (b, w) :: rest, a => if a = b then w else memGet rest a

/-- A cell in front of a tail of higher addresses, left out where it holds the unlisted byte. -/
def memCons (a : Nat) (v : Byte) (rest : List Host.Cell) : List Host.Cell :=
  if v = unlistedByte then rest else (a, v) :: rest

/-- Memory with the byte at address `a` set to `v`, in canonical form again. -/
def memPut : List Host.Cell → Nat → Byte → List Host.Cell
  | [], a, v => memCons a v []
  | (b, w) :: rest, a, v =>
    if a < b then memCons a v ((b, w) :: rest)
    else if a = b then memCons a v rest
    else (b, w) :: memPut rest a v

/-- Every listed address lies at or above `lo`, rising, inside the address space, with no unlisted byte listed. -/
def memWfFrom : Nat → List Host.Cell → Bool
  | _, [] => true
  | lo, (b, w) :: rest => decide (lo ≤ b) && decide (b < addressSpace) && (w != unlistedByte) && memWfFrom (b + 1) rest

/-- The canonical form of host memory. -/
def memWf (m : List Host.Cell) : Bool := memWfFrom 0 m

/-- The `n` bytes from address `a` on. -/
def memBytes (m : List Host.Cell) (a n : Nat) : List Byte :=
  (List.range n).map fun k => memGet m (a + k)

end Sys2Proof.Machine
end

