-- ==== Sys2Proof/Config.lean ====
section
/-! DEFINITION. What is fixed when an instance is constructed (the configuration record of 00_scope.md rule R6), the two
example configurations of 92_eei_decisions.md D49, and the free values: constants with no body, one for each thing the
spec leaves to the environment. -/

namespace Sys2Proof

/-- Which transport an instance drives, chosen at construction (R6, R65). -/
inductive Transport where
  /-- the GPIO pulse generator (41_gpio_transport.md) -/
  | gpio
  /-- the SPI frame encoder (42_spi_transport.md) -/
  | spi
  deriving DecidableEq, Repr

/-- A logical colour channel (R7). -/
inductive Channel where
  | red | green | blue | white
  deriving DecidableEq, Repr

/-- The configuration record of R6. Fixed at construction; no step writes it (R20).
ORDER is held as one 2-bit position per channel, as CFG0 shows it (R30). -/
structure Cfg where
  /-- TRANSPORT -/
  transport : Transport
  /-- HAS_WHITE -/
  hasWhite : Bool
  /-- ORDER[R] -/
  ordR : BitVec 2
  /-- ORDER[G] -/
  ordG : BitVec 2
  /-- ORDER[B] -/
  ordB : BitVec 2
  /-- ORDER[W]; read only if HAS_WHITE = 1 -/
  ordW : BitVec 2
  /-- PIXEL_RECORD_BYTES; wf_record asks for 3 or 4 -/
  recordBytes : Nat
  /-- PIN_ID (GPIO) -/
  pinId : BitVec 16
  /-- CPU_CLK_HZ (GPIO) -/
  cpuClkHz : Word
  /-- T1H_CYC (GPIO) -/
  t1h : BitVec 16
  /-- T0H_CYC (GPIO) -/
  t0h : BitVec 16
  /-- TPER_CYC (GPIO) -/
  tper : BitVec 16
  /-- GAP_CYC (GPIO) -/
  gap : BitVec 16
  /-- BUS_ID (SPI) -/
  busId : BitVec 16
  /-- BUS_FREQ_HZ (SPI) -/
  busFreqHz : Word
  /-- ONE_FRAME (SPI) -/
  oneFrame : Byte
  /-- ZERO_FRAME (SPI) -/
  zeroFrame : Byte
  /-- MAX_PIXELS (SPI) -/
  maxPixels : Word
  /-- REG_BASE -/
  regBase : Word
  /-- STRIP_LATCH_LOW_NS: a premise of claims about the strip, read by no rule of the block (D48); its value in the two examples
below is no value of a strip (assumption log 25) -/
  stripLatchLowNs : Nat
  deriving DecidableEq, Repr

/-- EX-SPI of D49. DESIGN CHOICE: also the configuration State.reset carries (assumption log 1); unsafe to lean on. -/
def Config.exSpi : Cfg :=
  { transport := .spi, hasWhite := false, ordR := 0, ordG := 1, ordB := 2, ordW := 0, recordBytes := 3,
    pinId := 0, cpuClkHz := 0, t1h := 0, t0h := 0, tper := 0, gap := 0,
    busId := 0x0001, busFreqHz := 6400000, oneFrame := 0xF8, zeroFrame := 0xC0, maxPixels := 4,
    regBase := 0x40000000, stripLatchLowNs := 0 }

/-- EX-GPIO of D49. DESIGN CHOICE: D48 leaves STRIP_LATCH_LOW_NS open and D49 gives the example none, so its 0 stands for no value of any
strip, and no claim about latching may rest on it (assumption log 25). -/
def Config.exGpio : Cfg :=
  { transport := .gpio, hasWhite := false, ordR := 0, ordG := 1, ordB := 2, ordW := 0, recordBytes := 3,
    pinId := 0x000D, cpuClkHz := 16000000, t1h := 14, t0h := 6, tper := 20, gap := 0,
    busId := 0, busFreqHz := 0, oneFrame := 0, zeroFrame := 0, maxPixels := 0,
    regBase := 0x40000000, stripLatchLowNs := 0 }

/-- FREE VALUE (R13, U22, U23): the answer word of oracle call number `k` where the environment has laid down none;
0 is ok (or found), any other word e is fail(e). Assumption log 9. -/
opaque Config.freeReply : Nat → Word

/-- FREE VALUE (R127, U7): how many bytes of a bus write that failed at oracle call number `k` reached the wire, where the
environment has laid down no answer. Assumption log 9. -/
opaque Config.freeSent : Nat → Nat

/-- FREE VALUE: draw number `k` of a natural number (a duration D42, the pick among a racy byte's values D17).
Assumption log 10. -/
opaque Config.freeNat : Nat → Nat

/-- FREE VALUE: draw number `k` of a bit (CLK_REQ after a failed release, D22). Assumption log 10. -/
opaque Config.freeBit : Nat → Bool

/-- FREE VALUE (R6, R121, D30): SPI_INTERBYTE_GAP, in bit times, for gap number `k`. No rule of the block reads it; it is here for
claims about the line. DESIGN CHOICE, unsafe: a gap is a whole number of bit times, where R6 and D30 say only that it is ≥ 0.
Assumption log 13. -/
opaque Config.spiInterbyteGap : Nat → Nat

end Sys2Proof
end

