-- ==== Sys2Proof/Syntax.lean ====
section
/-! DEFINITION. The syntax: the registers of the window, the bus accesses and command words a host presents, and the
instructions, one constructor for each row of spec/opcode_table.json. 10_state.md rule R24; 30_encoding.md rules R63 to R66,
R78 to R80; 44_interface.md rules R140 to R144. -/

namespace Sys2Proof

/-- The eleven registers of the window (R24). -/
inductive Reg where
  | cmd | addr | count | status | cfg0 | busFreq | frames | maxPix | tHigh | tPer | cpuHz
  deriving DecidableEq, Repr

/-- The instructions: one constructor per row of spec/opcode_table.json. -/
inductive Instr where
  /-- UPDATE_RGB.GPIO: command word 0x00000001 on a GPIO instance (R106) -/
  | updateRgbGpio
  /-- UPDATE_CHANNELS.GPIO: command word 0x00000002 on a GPIO instance (R108) -/
  | updateChannelsGpio
  /-- UPDATE_RGB.SPI: command word 0x00000001 on an SPI instance (R118) -/
  | updateRgbSpi
  /-- UPDATE_CHANNELS.SPI: command word 0x00000002 on an SPI instance (R124) -/
  | updateChannelsSpi
  /-- RESERVED_CMD: any other command word (R66) -/
  | reservedCmd (word : Word)
  /-- RD: an aligned 32-bit load of a register (R140) -/
  | rd (reg : Reg)
  /-- WR.ADDR: an aligned 32-bit store to ADDR (R142) -/
  | wrAddr (value : Word)
  /-- WR.COUNT: an aligned 32-bit store to COUNT (R142) -/
  | wrCount (value : Word)
  /-- WR.RO: an aligned 32-bit store to a read-only register (R143) -/
  | wrRo (reg : Reg) (value : Word)
  /-- WR.CMD: an aligned 32-bit store of a command word to CMD (R144) -/
  | wrCmd (word : Word)
  deriving DecidableEq, Repr

/-- A bus access of a host agent to the block (R80): the address on the bus, and for a load its width in bytes, for a store
the bytes it carries, least significant first. Any width and any address can be written here: `check_access` (R141) decides. -/
inductive Access where
  | load (addr : Word) (width : Nat)
  | store (addr : Word) (data : List Byte)
  deriving DecidableEq, Repr

/-- What the decoder is given. The opcode table has three spaces: the words that reach the command port (`cmd`), and the loads
and stores that reach the register window (`bus`). A store to CMD is first a `bus` code, and its value then a `cmd` code
(R144). -/
inductive Code where
  | cmd (word : Word)
  | bus (access : Access)
  deriving DecidableEq, Repr

/-- Why `check_access` refuses a register access (R141). -/
inductive Reject where
  /-- the access is not 4 bytes wide (D3) -/
  | wrongWidth
  /-- the offset is not a multiple of 4 (D3) -/
  | misaligned
  /-- the offset is beyond 0x28 (D5) -/
  | outsideWindow
  deriving DecidableEq, Repr

end Sys2Proof
end

