-- ==== Sys2Proof/WellFormed.lean ====
section
/-! DEFINITION. Which instructions are well formed: exactly those some code of the opcode table stands for. -/

namespace Sys2Proof

/-- The eight read-only registers: STATUS and CFG0 to CFG_CPUHZ (R24, R143). -/
def Reg.readOnly : Reg → Bool
  | .cmd | .addr | .count => false
  | .status | .cfg0 | .busFreq | .frames | .maxPix | .tHigh | .tPer | .cpuHz => true

/-- A command word is reserved unless it is 0x00000001 or 0x00000002 (R66). -/
def reservedWord (c : Word) : Bool := c != 1 && c != 2

/-- An instruction is well formed on an instance of transport `t`: a command row only on its own transport (R65), RESERVED_CMD
only with a reserved word (R66), WR.RO only at a read-only register (R143). -/
def Instr.wf (t : Transport) : Instr → Bool
  | .updateRgbGpio => t == .gpio
  | .updateChannelsGpio => t == .gpio
  | .updateRgbSpi => t == .spi
  | .updateChannelsSpi => t == .spi
  | .reservedCmd c => reservedWord c
  | .rd _ => true
  | .wrAddr _ => true
  | .wrCount _ => true
  | .wrRo r _ => r.readOnly
  | .wrCmd _ => true

end Sys2Proof
end

