-- ==== Sys2Proof/Decode.lean ====
section
/-! DEFINITION. The decoder, total on every code and rejecting by name, then the encoder, then the opcode table's own
numbering of its words. 30_encoding.md rules R63 to R66 and R80; 44_interface.md rules R140 to R144; opcode_table.json. -/

namespace Sys2Proof

/-- The byte offset of a register from REG_BASE (R24). -/
def Reg.offset : Reg → Word
  | .cmd => 0x00
  | .addr => 0x04
  | .count => 0x08
  | .status => 0x0C
  | .cfg0 => 0x10
  | .busFreq => 0x14
  | .frames => 0x18
  | .maxPix => 0x1C
  | .tHigh => 0x20
  | .tPer => 0x24
  | .cpuHz => 0x28

/-- The register at word offset `k` (byte offset `4 * k`), if the window has one (R24). -/
def regOfIndex : Nat → Option Reg
  | 0 => some .cmd
  | 1 => some .addr
  | 2 => some .count
  | 3 => some .status
  | 4 => some .cfg0
  | 5 => some .busFreq
  | 6 => some .frames
  | 7 => some .maxPix
  | 8 => some .tHigh
  | 9 => some .tPer
  | 10 => some .cpuHz
  | _ => none

/-- `check_access(off, w)` of R141, answering the register: refused unless the width is 4 bytes, the offset a multiple of 4
and at most 0x28. -/
def checkAccess (off : Word) (width : Nat) : Except Reject Reg :=
  if width ≠ 4 then .error .wrongWidth
  else if off.toNat % 4 ≠ 0 then .error .misaligned
  else
    match regOfIndex (off.toNat / 4) with
    | some r => .ok r
    | none => .error .outsideWindow

/-- The 32-bit value of four bytes on the bus, least significant first (R49, R80). -/
def wordOfBytes (data : List Byte) : Word :=
  data.getD 3 0 ++ data.getD 2 0 ++ data.getD 1 0 ++ data.getD 0 0

/-- A 32-bit value as four bytes on the bus, least significant first (R49, R80). -/
def bytesOfWord (v : Word) : List Byte :=
  [v.extractLsb' 0 8, v.extractLsb' 8 8, v.extractLsb' 16 8, v.extractLsb' 24 8]

/-- The opcode map of the CMD space (R64 to R66): the transport selects the variant. -/
def decodeCmd (t : Transport) (c : Word) : Instr :=
  if c = 1 then
    match t with
    | .gpio => .updateRgbGpio
    | .spi => .updateRgbSpi
  else if c = 2 then
    match t with
    | .gpio => .updateChannelsGpio
    | .spi => .updateChannelsSpi
  else .reservedCmd c

/-- The instruction a store of `v` to register `r` is (R142 to R144). -/
def storeInstr (r : Reg) (v : Word) : Instr :=
  match r with
  | .cmd => .wrCmd v
  | .addr => .wrAddr v
  | .count => .wrCount v
  | .status | .cfg0 | .busFreq | .frames | .maxPix | .tHigh | .tPer | .cpuHz => .wrRo r v

/-- The instruction a bus access at a window based at `base` is, or why `check_access` refuses it (R140 to R144). The offset is
the address less REG_BASE, modulo 2^32: an address below the window has a large offset and is refused. -/
def decodeAccess (base : Word) : Access → Except Reject Instr
  | .load a width =>
    match checkAccess (a - base) width with
    | .ok r => .ok (.rd r)
    | .error e => .error e
  | .store a data =>
    match checkAccess (a - base) data.length with
    | .ok r => .ok (storeInstr r (wordOfBytes data))
    | .error e => .error e

/-- The decoder: every code gives an instruction or a rejection by name. -/
def decode (t : Transport) (base : Word) : Code → Except Reject Instr
  | .cmd c => .ok (decodeCmd t c)
  | .bus a => decodeAccess base a

/-- The encoder, written from the same tables: the command word of a command row (R63, R64), the bus access of the others
(R80). -/
def encode (base : Word) : Instr → Code
  | .updateRgbGpio => .cmd 1
  | .updateChannelsGpio => .cmd 2
  | .updateRgbSpi => .cmd 1
  | .updateChannelsSpi => .cmd 2
  | .reservedCmd c => .cmd c
  | .rd r => .bus (.load (base + r.offset) 4)
  | .wrAddr v => .bus (.store (base + Reg.offset .addr) (bytesOfWord v))
  | .wrCount v => .bus (.store (base + Reg.offset .count) (bytesOfWord v))
  | .wrRo r v => .bus (.store (base + r.offset) (bytesOfWord v))
  | .wrCmd c => .bus (.store (base + Reg.offset .cmd) (bytesOfWord c))

/-- The code the table's own numbering means by a word. The rows of spec/opcode_table.json share their 32 bits among three
spaces, so a word alone names several rows. 1 and 2 are the command words; 4, 8 and 0xC are the offsets of the REG_STORE rows,
stored value 0; another multiple of 4 up to 0x3C is RD's offset (0 too: there WR.CMD could only store the reserved word 0); every
other word is RESERVED_CMD's. DESIGN CHOICE, safe: it is the host's numbering only, no rule of the machine reads it. Assumption
log 14. -/
def tableCode (base w : Word) : Code :=
  if w = 1 ∨ w = 2 then .cmd w
  else if w = 4 ∨ w = 8 ∨ w = 0xC then .bus (.store (base + w) (bytesOfWord 0))
  else if w &&& 0xFFFFFFC3 = 0 then .bus (.load (base + w) 4)
  else .cmd w

/-- What the decoder gives for a table word of `nbits` bits, on the instance State.reset carries (assumption log 14). -/
def decodeTableWord (nbits w : Nat) : Option Instr :=
  if nbits ≤ 32 ∧ w < 2 ^ 32 then
    match decode Config.exSpi.transport Config.exSpi.regBase (tableCode Config.exSpi.regBase (BitVec.ofNat 32 w)) with
    | .ok i => some i
    | .error _ => none
  else none

end Sys2Proof
end

