-- ==== Sys2Proof/Machine/Params.lean ====
section
/-! DEFINITION. The constants derived from the configuration, its well-formedness checks, and the read-only registers that
show it. 00_scope.md rules R7 and R16; 10_state.md rules R30 to R36; 43_reset_latch.md rule R129. -/

namespace Sys2Proof.Machine

/-- STRIDE: wire bytes per pixel, 3 without a white channel and 4 with one (R7). -/
def stride (c : Cfg) : Nat := if c.hasWhite then 4 else 3

/-- CHANNELS, in the order R, G, B, W (R7). -/
def channels (c : Cfg) : List Channel :=
  if c.hasWhite then [.red, .green, .blue, .white] else [.red, .green, .blue]

/-- ORDER: a channel's position in the wire record (R6). -/
def order (c : Cfg) : Channel → Nat
  | .red => c.ordR.toNat
  | .green => c.ordG.toNat
  | .blue => c.ordB.toNat
  | .white => c.ordW.toNat

/-- WIRE_BYTES_PER_PIXEL (R7). -/
def wireBytesPerPixel (c : Cfg) : Nat :=
  match c.transport with
  | .gpio => stride c
  | .spi => 8 * stride c

/-- STAGE_BYTES: 8 × STRIDE × MAX_PIXELS on SPI, 0 on GPIO (R7). -/
def stageBytes (c : Cfg) : Nat :=
  match c.transport with
  | .gpio => 0
  | .spi => 8 * stride c * c.maxPixels.toNat

/-- The reset-frame count of a bus frequency: ceil(3f / 4 000 000) + 1, in exact integers (R129, D28). -/
def resetFrameCount (freq : Nat) : Nat := (3 * freq + 3999999) / 4000000 + 1

/-- RESET_FRAMES of an instance (R7, R129). -/
def resetFrames (c : Cfg) : Nat := resetFrameCount c.busFreqHz.toNat

/-- wf_order: ORDER on CHANNELS is a bijection onto {0, …, STRIDE − 1} (R16). CHANNELS has STRIDE entries, so distinct
positions below STRIDE are all of them. -/
def wfOrder (c : Cfg) : Bool :=
  decide (((channels c).map (order c)).Nodup) && (channels c).all fun ch => decide (order c ch < stride c)

/-- wf_record (R16, D15). -/
def wfRecord (c : Cfg) : Bool :=
  (c.recordBytes == 3 || c.recordBytes == 4) && (c.transport == .spi || decide (stride c ≤ c.recordBytes))

/-- wf_timing, GPIO only (R16, D18). TPER_CYC and GAP_CYC are at most 65535 by their width. -/
def wfTiming (c : Cfg) : Bool :=
  c.transport == .spi ||
    (decide (1 ≤ c.t0h.toNat) && decide (c.t0h.toNat < c.t1h.toNat) && decide (c.t1h.toNat < c.tper.toNat) &&
      decide (0 < c.cpuClkHz.toNat))

/-- wf_spi, SPI only (R16, D31). The upper bounds hold by the fields' width. -/
def wfSpi (c : Cfg) : Bool := c.transport == .gpio || decide (0 < c.busFreqHz.toNat)

/-- REG_BASE is 4-byte aligned: the range R6 gives the parameter (D2). -/
def wfBase (c : Cfg) : Bool := decide (c.regBase.toNat % 4 = 0)

/-- The checks of R16 a configuration meets by itself (wf_exclusive, about other instances, is handlesExclusive), with the
parameter ranges of R6. -/
def cfgWf (c : Cfg) : Bool := wfOrder c && wfRecord c && wfTiming c && wfSpi c && wfBase c

/-- CFG0 (R30). -/
def cfg0Word (c : Cfg) : Word :=
  let id : BitVec 16 := match c.transport with | .gpio => c.pinId | .spi => c.busId
  let ordW : BitVec 2 := if c.hasWhite then c.ordW else 0
  id ++ (0 : BitVec 5) ++ BitVec.ofBool (c.recordBytes == 4) ++ ordW ++ c.ordB ++ c.ordG ++ c.ordR ++
    BitVec.ofBool c.hasWhite ++ BitVec.ofBool (c.transport == .spi)

/-- CFG_BUSFREQ (R31). -/
def busFreqWord (c : Cfg) : Word := match c.transport with | .gpio => 0 | .spi => c.busFreqHz

/-- CFG_FRAMES (R32). -/
def framesWord (c : Cfg) : Word :=
  match c.transport with
  | .gpio => 0
  | .spi => BitVec.ofNat 16 (resetFrames c) ++ c.zeroFrame ++ c.oneFrame

/-- CFG_MAXPIX (R33). -/
def maxPixWord (c : Cfg) : Word := match c.transport with | .gpio => 0 | .spi => c.maxPixels

/-- CFG_THIGH (R34). -/
def tHighWord (c : Cfg) : Word := match c.transport with | .gpio => c.t0h ++ c.t1h | .spi => 0

/-- CFG_TPER (R35). -/
def tPerWord (c : Cfg) : Word := match c.transport with | .gpio => c.gap ++ c.tper | .spi => 0

/-- CFG_CPUHZ (R36). -/
def cpuHzWord (c : Cfg) : Word := match c.transport with | .gpio => c.cpuClkHz | .spi => 0

end Sys2Proof.Machine
end

