-- ==== Sys2Proof/Machine/State.lean ====
section
/-! DEFINITION. The state of the machine as plain data, the reasons a step can stop, and the state after reset.
10_state.md rules R19 to R44; 20_memory.md rule R45; 60_exceptions.md rules R151 to R153. -/

namespace Sys2Proof.Machine

/-- STATUS.RESULT codes (R29). Codes 6 to 15 are never written, so they have no constructor (R76). -/
inductive ResultCode where
  | ok | deviceNotFound | capacityExceeded | unsupported | busFailure | clockControlFailure
  deriving DecidableEq, Repr

/-- STATUS.STATE (R40). -/
inductive EngineState where
  | idle | encoding | transmitting | latching
  deriving DecidableEq, Repr

/-- STATUS (R28). Its reserved bits [15:7] read 0 and have no storage. -/
structure Status where
  result : ResultCode
  state : EngineState
  ready : Bool
  detail : BitVec 16
  deriving DecidableEq, Repr

/-- PIN: driven low, driven high, or undriven (R37). -/
inductive PinLevel where
  | low | high | z
  deriving DecidableEq, Repr

/-- The phases of a GPIO UPDATE_RGB (R94); `idle` before the first one. -/
inductive GpioPhase where
  | idle | layout | clkReq | burst | clkRel | done
  deriving DecidableEq, Repr

/-- The answer of a clock or bus primitive: ok, or fail(e) (R13). -/
inductive Answer where
  | ok
  | fail (e : Word)
  deriving DecidableEq, Repr

/-- The label of a bus write (R10, R43). -/
inductive BusKind where
  | data | reset
  deriving DecidableEq, Repr

/-- The events of TRACE (R43). -/
inductive Event where
  | memR (addr : Nat) (byte : Byte)
  | memW (addr : Nat) (byte : Byte)
  | clkReq (answer : Answer)
  | clkRel (answer : Answer)
  | mask (level : Bool)
  | burst (start : Nat) (bytes : List Byte)
  | bus (kind : BusKind) (bytes : List Byte) (answer : Answer) (sent : List Byte)
  | done (result : ResultCode) (detail : BitVec 16)
  deriving DecidableEq, Repr

/-- The registers of the GPIO engine (R23), its phase (R94), and the model's own note of the burst in progress: its start cycle
and the wire bytes read so far, which the Burst event shows when the burst ends (assumption log 11). -/
structure GpioEngine where
  /-- G_NB -/
  nb : Nat
  /-- G_J -/
  j : Nat
  /-- G_I -/
  i : Nat
  /-- G_C -/
  c : Nat
  /-- G_B -/
  b : Byte
  /-- G_H -/
  h : Nat
  phase : GpioPhase
  start : Nat
  sent : List Byte
  deriving DecidableEq, Repr

/-- A part of the host's memory the admission function admits (R50): reads always, writes if `writable`. -/
structure Region where
  base : Nat
  size : Nat
  writable : Bool
  deriving DecidableEq, Repr

/-- The handle of another instance (R16 wf_exclusive): its transport, and its PIN_ID or BUS_ID. -/
structure Peer where
  transport : Transport
  id : BitVec 16
  deriving DecidableEq, Repr

/-- What a host agent or the platform can do at a moment: present a code to the block, load or store a byte of host memory (R57), or
change which memory is admitted (R153). -/
inductive AgentOp where
  | present (code : Code)
  | memLoad (addr : Word)
  | memStore (addr : Word) (byte : Byte)
  | remap (regions : List Region)
  deriving DecidableEq, Repr

/-- An entry of the host program: an agent's operation, or a hardware reset between two of them (R171). -/
inductive ProgItem where
  | op (op : AgentOp)
  | reset
  deriving DecidableEq, Repr

/-- Another agent's operation, and after how many block micro-steps it comes (R59, R140). -/
structure Timed where
  delay : Nat
  op : AgentOp
  deriving DecidableEq, Repr

/-- An answer the environment has laid down for an oracle call (R13): error word 0 is ok (or found), another e is fail(e) (or
not found); `sent` is how many bytes of a failed bus write reached the wire (R127). -/
structure Reply where
  error : Word
  sent : Nat
  deriving DecidableEq, Repr

/-- The record of a race (R59): the caller range of the running command, the addresses in it that other agents stored to during the
command, and every byte overwritten in it during the command, with its address, oldest first. -/
structure Race where
  lo : Nat
  len : Nat
  raced : List Nat
  held : List Host.Cell
  deriving DecidableEq, Repr

/-- Whether init has run since reset (R171, R173). -/
inductive Boot where
  | pending | complete
  deriving DecidableEq, Repr

/-- The state. The first block is the instance's tuple of R19; the second is outside the instance (host memory, its
admission, the agents and what they get back); the third is the model's own bookkeeping. R18 names a phase of the SPI engine and
gives it no values: the model keeps none beside STATUS.STATE, DESIGN CHOICE (assumption log 24). -/
structure State where
  /-- CFG (R20) -/
  cfg : Cfg
  /-- ADDR (R26) -/
  addr : Word
  /-- COUNT (R27) -/
  count : Word
  /-- STATUS (R28) -/
  status : Status
  /-- STAGE (R21) -/
  stage : List Byte
  /-- CHBUF (R22) -/
  chbuf : List Byte
  /-- the GPIO engine (R23, R94) -/
  g : GpioEngine
  /-- S_I (R18) -/
  sI : Nat
  /-- S_J (R18) -/
  sJ : Nat
  /-- PIN (R37) -/
  pin : PinLevel
  /-- IRQ_MASK (R37) -/
  irqMask : Bool
  /-- CLK_REQ (R37) -/
  clkReq : Bool
  /-- TRACE, oldest first (R43) -/
  trace : List Event
  /-- whether init has run since reset (R171) -/
  boot : Boot
  /-- host memory (R45) -/
  mem : List Host.Cell
  /-- what the admission function admits (R50) -/
  regions : List Region
  /-- the other instances' handles (R16) -/
  peers : List Peer
  /-- the issuing agent's program still to run (R80) -/
  program : List ProgItem
  /-- the other agents' operations still to come, in order (R59, R169) -/
  others : List Timed
  /-- what loads of the window have returned, oldest first (R140) -/
  loads : List (Reg × Word)
  /-- what the agents' loads of host memory have returned, with the address, oldest first (R57) -/
  hostReads : List (Nat × Byte)
  /-- answers laid down for the oracles, in call order (R13) -/
  replies : List Reply
  /-- how many oracle calls were made -/
  asked : Nat
  /-- how many free values were drawn -/
  draws : Nat
  /-- cycles of the precise-timing clock that have passed -/
  cycle : Nat
  /-- the race record of the running command (R59) -/
  race : Race
  deriving DecidableEq, Repr

/-- Why the machine is stuck. Both are safe: the spec gives the block no step there (R50, R153, D16), and the fault carries the
whole state it leaves. -/
inductive Fault where
  /-- raised by a block read of a host-memory byte the admission function does not admit; safe -/
  | stuckRead (addr : Nat) (left : State)
  /-- raised by a block write of a host-memory byte the admission function does not admit; safe -/
  | stuckWrite (addr : Nat) (left : State)
  deriving DecidableEq, Repr

/-- Why an access or a command has no meaning (R152); every refusal is safe, and changes no state. -/
inductive Refusal where
  /-- an instruction the model has not reached: no arm of exec answers it; safe -/
  | notModelled (mnemonic : String)
  /-- raised by step on an instance whose configuration fails a check of R16 (R15); safe -/
  | illFormedConfig
  /-- raised by the decoder's `check_access` (R141); safe -/
  | access (why : Reject)
  /-- raised by a store of a reserved word to CMD (R66); safe -/
  | reservedCommand (word : Word)
  /-- raised by a command while READY = 0 (R145); safe -/
  | notReady
  /-- raised by a command while STATE is not IDLE (R145); safe -/
  | busy
  /-- raised by a command whose caller range passes 2^32 (R53); safe -/
  | rangeWraps
  /-- raised by a command row on an instance of the other transport, which no code decodes to (R65); safe -/
  | wrongTransport
  /-- raised by WR.RO at a register that is not read-only, which no code decodes to (R143); safe -/
  | notReadOnly
  /-- raised by a host byte load or store at an address that holds no memory for it, which the spec does not describe; safe -/
  | hostMemory
  deriving DecidableEq, Repr

/-- The outcomes of an operation of the machine that yields a `σ`. -/
abbrev Out (σ : Type) := Host.Outcome σ Fault Refusal

/-- The GPIO engine after reset (R44). Its phase is DESIGN CHOICE `idle` (assumption log 3). -/
def GpioEngine.reset : GpioEngine :=
  { nb := 0, j := 0, i := 0, c := 0, b := 0, h := 0, phase := .idle, start := 0, sent := [] }

/-- No race recorded, and no range to race in. -/
def Race.empty : Race := { lo := 0, len := 0, raced := [], held := [] }

/-- No race recorded yet in the caller range [lo, lo + len) of a command that starts (R53, R59). -/
def Race.over (lo len : Nat) : Race := { lo := lo, len := len, raced := [], held := [] }

/-- One region that admits reads and writes of the whole address space. DESIGN CHOICE (assumption log 5). -/
def Region.whole : Region := { base := 0, size := 2 ^ 32, writable := true }

/-- STATUS after reset: 0x00000000 (R44). -/
def Status.reset : Status := { result := .ok, state := .idle, ready := false, detail := 0 }

/-- An instance of configuration `c` right after its first hardware reset, before init: R44's second column, with nothing in
memory, no program, no other agent and no answer laid down. STAGE and CHBUF are "any bytes" there; the model takes 0x00
(assumption log 2). -/
def State.resetWith (c : Cfg) : State :=
  { cfg := c, addr := 0, count := 0, status := .reset,
    stage := List.replicate (stageBytes c) 0, chbuf := List.replicate 8 0,
    g := .reset, sI := 0, sJ := 0, pin := .z, irqMask := false, clkReq := false, trace := [], boot := .pending,
    mem := [], regions := [.whole], peers := [], program := [], others := [], loads := [], hostReads := [],
    replies := [], asked := 0, draws := 0, cycle := 0, race := .empty }

/-- The machine right after reset (R44, R171), of the configuration EX-SPI (D49). DESIGN CHOICE which configuration: assumption
log 1. -/
def State.reset : State := State.resetWith Config.exSpi

end Sys2Proof.Machine
end

