-- ==== Sys2Proof/Machine/Ops.lean ====
section
/-! DEFINITION. The named operations every meaning is built from: sequencing, TRACE, `finish` (the block's one way to end a
command, and its whole "error entry"), the oracles' answers and the other free values, and host memory as the block sees it.
00_scope.md rules R10 to R13; 10_state.md rule R43; 20_memory.md rules R50 and R59; 44_interface.md rule R146; 60_exceptions.md
rule R163. -/

namespace Sys2Proof.Machine

/-- Run `f` on what `o` yields; a fault or a refusal ends here. -/
def andThen {σ τ : Type} (o : Out σ) (f : σ → Out τ) : Out τ :=
  match o with
  | .next x => f x
  | .fault r => .fault r
  | .refused r => .refused r

/-- Append an event to TRACE (R43). -/
def emit (e : Event) (s : State) : State := { s with trace := s.trace ++ [e] }

/-- STATUS.STATE <- st (R40). -/
def setState (st : EngineState) (s : State) : State := { s with status := { s.status with state := st } }

/-- IRQ_MASK <- v, with its event (R43, R156). -/
def setMask (v : Bool) (s : State) : State := emit (.mask v) { s with irqMask := v }

/-- The GPIO engine enters phase `p` (R94). -/
def setPhase (p : GpioPhase) (s : State) : State := { s with g := { s.g with phase := p } }

/-- A free pick among bytes: the `k`-th draw says which (`other` if there are none). -/
def freePick (k : Nat) (bs : List Byte) (other : Byte) : Byte := bs.getD (Config.freeNat k % bs.length) other

/-- The bytes overwritten at `a` during the running command, oldest first: the first is the one it held at acceptance. -/
def Race.heldAt (r : Race) (a : Nat) : List Byte := (r.held.filter fun p => p.1 == a).map Prod.snd

/-- The bytes written to `a` during the running command, oldest first, where memory is now `m`: all that it held but the first. -/
def Race.written (r : Race) (m : List Host.Cell) (a : Nat) : List Byte := (r.heldAt a ++ [memGet m a]).drop 1

/-- Memory when the command ends or is stuck: each raced address ends with a free pick among the bytes written to it during the command, for no
order of them is promised (R59, R60, R177). The first draw is number `k`. -/
def settleMem (r : Race) : List Nat → Nat → List Host.Cell → List Host.Cell
  | [], _, m => m
  | a :: rest, k, m => settleMem r rest (k + 1) (memPut m a (freePick k (r.written m a) (memGet m a)))

/-- The races of the running command settled, one draw for each. -/
def settle (s : State) : State :=
  { s with mem := settleMem s.race s.race.raced s.draws s.mem, draws := s.draws + s.race.raced.length, race := .empty }

/-- `finish(res, detail)`: RESULT, DETAIL and STATE = IDLE are written, the Done event is appended, and the CMD store completes
(R10, R146, R163). The races of the command are settled with it. -/
def finish (res : ResultCode) (detail : Word) (s : State) : State :=
  emit (.done res (detail.truncate 16))
    { settle s with status := { s.status with result := res, state := .idle, detail := detail.truncate 16 } }

/-- The answer a word stands for: 0 is ok, any other e is fail(e), so that e ≠ 0 (R13, D9). -/
def answerOfWord (e : Word) : Answer := if e = 0 then .ok else .fail e

/-- The answer to oracle call number `k` from now: the one laid down, else a free value (R13). -/
def replyAt (s : State) (k : Nat) : Reply :=
  match s.replies[k]? with
  | some r => r
  | none => { error := Config.freeReply (s.asked + k), sent := Config.freeSent (s.asked + k) }

/-- The state after one oracle call was answered. -/
def tookReply (s : State) : State := { s with replies := s.replies.drop 1, asked := s.asked + 1 }

/-- Draw a free natural number: the state after the draw. -/
def drew (s : State) : State := { s with draws := s.draws + 1 }

/-- Whether an address lies in the block's own register window, which the block does not load or store through (R45, R55). -/
def inWindow (c : Cfg) (a : Nat) : Bool := decide (c.regBase.toNat ≤ a) && decide (a < c.regBase.toNat + 0x2C)

/-- Whether a region holds an address. -/
def Region.covers (r : Region) (a : Nat) : Bool := decide (r.base ≤ a) && decide (a < r.base + r.size)

/-- The admission function for a read of one byte (R50). -/
def admitsRead (s : State) (a : Nat) : Bool :=
  decide (a < addressSpace) && !inWindow s.cfg a && s.regions.any fun r => r.covers a

/-- The admission function for a write of one byte (R50). -/
def admitsWrite (s : State) (a : Nat) : Bool :=
  decide (a < addressSpace) && !inWindow s.cfg a && s.regions.any fun r => r.covers a && r.writable

/-- The bytes a racy read of `a` may return: the byte there, and any byte the address held during the command (R59, D17). -/
def readable (s : State) (a : Nat) : List Byte := memGet s.mem a :: s.race.heldAt a

/-- The byte a block read of `a` returns: the byte there, or, where another agent stored to it during the running command, a free pick
among the readable ones. -/
def readValue (s : State) (a : Nat) : Byte :=
  if s.race.raced.contains a then freePick s.draws (readable s a) (memGet s.mem a) else memGet s.mem a

/-- The state after a block read of `a`: the event, and the draw if the byte was racy. -/
def afterRead (s : State) (a : Nat) (v : Byte) : State :=
  emit (.memR a v) (if s.race.raced.contains a then drew s else s)

/-- Host memory with `v` stored at `a` during a command: the byte that was there is noted. -/
def storeNoted (s : State) (a : Nat) (v : Byte) : State :=
  { s with mem := memPut s.mem a v, race := { s.race with held := s.race.held ++ [(a, memGet s.mem a)] } }

/-- Whether an address lies in the running command's caller range (R53, R59). -/
def Race.covers (r : Race) (a : Nat) : Bool := decide (r.lo ≤ a) && decide (a < r.lo + r.len)

/-- Another agent's store to a byte of the running command's caller range: it makes the byte racy (R59). -/
def storeRaced (s : State) (a : Nat) (v : Byte) : State :=
  storeNoted { s with race := { s.race with raced := s.race.raced.insert a } } a v

/-- Another agent's store while a command runs: in the caller range a race (R59), elsewhere a plain store. -/
def agentStored (s : State) (a : Nat) (v : Byte) : State :=
  if s.race.covers a then storeRaced s a v else { s with mem := memPut s.mem a v }

/-- Another agent's load while a command runs: a byte the command's range has seen overwritten is racy for it too (R60). -/
def agentLoaded (s : State) (a : Nat) : State :=
  if s.race.heldAt a = [] then { s with hostReads := s.hostReads ++ [(a, memGet s.mem a)] }
  else
    { s with hostReads := s.hostReads ++ [(a, freePick s.draws (readable s a) (memGet s.mem a))], draws := s.draws + 1 }

/-- The state a successful INIT leaves (R172): a GPIO instance drives its pin low, STATUS is 0x00000040. -/
def initDone (s : State) : State :=
  { s with
    pin := match s.cfg.transport with | .gpio => .low | .spi => s.pin
    status := { result := .ok, state := .idle, ready := true, detail := 0 }
    boot := .complete }

/-- The state a failed INIT leaves (R172): STATUS is 0x00000001 and the pin stays as it is (D47). -/
def initFailed (s : State) : State :=
  { s with status := { result := .deviceNotFound, state := .idle, ready := false, detail := 0 }, boot := .complete }

/-- A hardware reset (R171): R44's second column for the instance. Host memory, its admission, the agents and their programs, what
they got back and the oracles are outside the instance and stay. -/
def hardReset (s : State) : State :=
  { State.resetWith s.cfg with
    mem := s.mem, regions := s.regions, peers := s.peers, program := s.program, others := s.others, loads := s.loads,
    hostReads := s.hostReads,
    replies := s.replies, asked := s.asked, draws := s.draws, cycle := s.cycle }

end Sys2Proof.Machine
end

