-- ==== Sys2Proof/Machine/Flags.lean ====
section
/-! DEFINITION. The status information of the block: the codes of STATUS.RESULT and STATUS.STATE and the STATUS word. The block
has no other flag (R42). 10_state.md rules R28, R29, R40. -/

namespace Sys2Proof.Machine

/-- The code of a result (R29). -/
def resultCode : ResultCode → BitVec 4
  | .ok => 0
  | .deviceNotFound => 1
  | .capacityExceeded => 2
  | .unsupported => 3
  | .busFailure => 4
  | .clockControlFailure => 5

/-- The code of a state (R28). -/
def stateCode : EngineState → BitVec 2
  | .idle => 0
  | .encoding => 1
  | .transmitting => 2
  | .latching => 3

/-- The STATUS word {DETAIL, 9'b0, READY, STATE, RESULT} (R28, R140). -/
def statusWord (st : Status) : Word :=
  st.detail ++ (0 : BitVec 9) ++ BitVec.ofBool st.ready ++ stateCode st.state ++ resultCode st.result

/-- The result and detail of an UPDATE_RGB.SPI from the answers of its DATA write and its reset write: the DATA error wins
(R118, R159). -/
def rgbSpiResult (data latch : Answer) : ResultCode × Word :=
  match data with
  | .fail e => (.busFailure, e)
  | .ok =>
    match latch with
    | .fail e2 => (.busFailure, e2)
    | .ok => (.ok, 0)

end Sys2Proof.Machine
end

