-- ==== Sys2Proof/Machine/Operands.lean ====
section
/-! DEFINITION. The operands: the value of each register of the window, the caller's pixel record, the caller range of each
command, and the acceptance of a command, which latches `a` and `n`. 10_state.md rules R24 to R36; 20_memory.md rule R53;
30_encoding.md rules R67 to R71; 44_interface.md rules R140 and R144. -/

namespace Sys2Proof.Machine

/-- The value a load of a register returns (R140; CMD reads 0, R25). -/
def regWord (s : State) : Reg → Word
  | .cmd => 0
  | .addr => s.addr
  | .count => s.count
  | .status => statusWord s.status
  | .cfg0 => cfg0Word s.cfg
  | .busFreq => busFreqWord s.cfg
  | .frames => framesWord s.cfg
  | .maxPix => maxPixWord s.cfg
  | .tHigh => tHighWord s.cfg
  | .tPer => tPerWord s.cfg
  | .cpuHz => cpuHzWord s.cfg

/-- The host address of byte `k` of pixel record `i` (R69). -/
def recordAddr (c : Cfg) (a i k : Nat) : Nat := a + c.recordBytes * i + k

/-- The host address the GPIO layout writes channel `ch` of pixel `i` to (R84). -/
def wireAddr (c : Cfg) (a i : Nat) (ch : Channel) : Nat := a + stride c * i + order c ch

/-- The length of UPDATE_RGB's caller range (R53): empty on SPI when the count exceeds the capacity. -/
def rgbRange (c : Cfg) (n : Nat) : Nat :=
  match c.transport with
  | .gpio => c.recordBytes * n
  | .spi => if n > c.maxPixels.toNat then 0 else c.recordBytes * n

/-- The length of UPDATE_CHANNELS' caller range (R53): empty on GPIO. -/
def channelsRange (c : Cfg) (n : Nat) : Nat :=
  match c.transport with
  | .gpio => 0
  | .spi => n

/-- The operand `a`: ADDR as an unsigned byte address (R67). -/
def operandA (s : State) : Nat := s.addr.toNat

/-- The operand `n`: COUNT as an unsigned count (R67). -/
def operandN (s : State) : Nat := s.count.toNat

/-- Acceptance of a command of transport `t` whose caller range for a count is `len` (R38, R144): the checks in R144's order, each
before any effect; then `a` and `n` are latched and the command runs, its caller range the one races are about (R59). -/
def accept (t : Transport) (len : Nat → Nat) (s : State) (run : Nat → Nat → State → Out State) : Out State :=
  if s.cfg.transport ≠ t then .refused .wrongTransport
  else if s.status.ready = false then .refused .notReady
  else if s.status.state ≠ .idle then .refused .busy
  else if operandA s + len (operandN s) > addressSpace then .refused .rangeWraps
  else run (operandA s) (operandN s) { s with race := .over (operandA s) (len (operandN s)) }

end Sys2Proof.Machine
end

