-- ==== Sys2Proof/Machine/Boot.lean ====
section
/-! DEFINITION. Initialisation: INIT resolves the handles the transport needs. 70_reset_and_hazards.md rules R171 to R173. -/

namespace Sys2Proof.Machine

/-- A handle INIT resolves (R172). -/
inductive Handle where
  | pin (id : BitVec 16)
  | clock
  | bus (id : BitVec 16)
  deriving DecidableEq, Repr

/-- The handles an instance requires (R172). -/
def requiredHandles (c : Cfg) : List Handle :=
  match c.transport with
  | .gpio => [.pin c.pinId, .clock]
  | .spi => [.bus c.busId]

/-- INIT's loop over the handles (R172): it stops at the first one that is not found. Answer word 0 is "found" (R13). -/
def resolveAll : List Handle → State → State
  | [], s => initDone s
  | _ :: rest, s =>
    if (replyAt s 0).error = 0 then resolveAll rest (tookReply s) else initFailed (tookReply s)

/-- INIT (R172). -/
def runInit (s : State) : Out State := .next (resolveAll (requiredHandles s.cfg) s)

/-- wf_exclusive: no other instance uses the same pin, or the same bus (R16, D38). -/
def handlesExclusive (s : State) : Bool :=
  s.peers.all fun p =>
    !(p.transport == s.cfg.transport && p.id == (match s.cfg.transport with | .gpio => s.cfg.pinId | .spi => s.cfg.busId))

/-- The instance's configuration passes every check of R16; one that does not is no instance (R15). -/
def wellConstructed (s : State) : Bool := cfgWf s.cfg && handlesExclusive s

end Sys2Proof.Machine
end

