-- ==== Sys2Proof/Machine/Window.lean ====
section
/-! DEFINITION. The register accesses RD, WR.ADDR, WR.COUNT and WR.RO. 44_interface.md rules R140 to R143. -/

namespace Sys2Proof.Machine

/-- RD (R140): the register's value goes back to the host; nothing of the block changes. -/
def execRd (r : Reg) (s : State) : Out State := .next { s with loads := s.loads ++ [(r, regWord s r)] }

/-- WR.ADDR (R142). -/
def execWrAddr (v : Word) (s : State) : Out State := .next { s with addr := v }

/-- WR.COUNT (R142). -/
def execWrCount (v : Word) (s : State) : Out State := .next { s with count := v }

/-- WR.RO (R143): no effect. At a register that is not read-only, which no code decodes to, it has no meaning. -/
def execWrRo (r : Reg) (_v : Word) (s : State) : Out State :=
  if r.readOnly then .next s else .refused .notReadOnly

/-- RESERVED_CMD (R66): refused, and nothing changes. -/
def execReservedCmd (c : Word) (_s : State) : Out State := .refused (.reservedCommand c)

end Sys2Proof.Machine
end

