-- ==== Sys2Proof/Machine/Agents.lean ====
section
/-! DEFINITION. What the other host agents do while a command runs, and the block's micro-steps, each of which lets them act
first: one byte of host memory read or written, one oracle call, one change of STATUS.STATE, or `finish`. 10_state.md rule R40;
20_memory.md rules R50, R58, R59; 44_interface.md rules R140, R142, R145; 00_scope.md rule R13. -/

namespace Sys2Proof.Machine

/-- The refusal of a CMD store made while a command runs (R144, R145): R144's checks in order, of which STATE ≠ IDLE holds. -/
def refusedDuring (c : Word) (s : State) : Refusal :=
  if reservedWord c then .reservedCommand c
  else if s.status.ready = false then .notReady
  else .busy

/-- An instruction another agent presents while a command runs: a register access has its meaning (R140, R142, R143), a command is
refused (R145, R176). -/
def duringInstr (i : Instr) (s : State) : Out State :=
  match i with
  | .rd r => execRd r s
  | .wrAddr v => execWrAddr v s
  | .wrCount v => execWrCount v s
  | .wrRo r v => execWrRo r v s
  | .wrCmd c => .refused (refusedDuring c s)
  | .reservedCmd c => .refused (refusedDuring c s)
  | .updateRgbGpio => .refused (refusedDuring 1 s)
  | .updateRgbSpi => .refused (refusedDuring 1 s)
  | .updateChannelsGpio => .refused (refusedDuring 2 s)
  | .updateChannelsSpi => .refused (refusedDuring 2 s)

/-- Another agent's operation while a command runs. A store to the caller range makes the byte racy (R59). -/
def duringOp (op : AgentOp) (s : State) : Out State :=
  match op with
  | .present code =>
    match decode s.cfg.transport s.cfg.regBase code with
    | .ok i => duringInstr i s
    | .error e => .refused (.access e)
  | .memLoad a => if admitsRead s a.toNat then .next (agentLoaded s a.toNat) else .refused .hostMemory
  | .memStore a v => if admitsWrite s a.toNat then .next (agentStored s a.toNat v) else .refused .hostMemory
  | .remap rs => .next { s with regions := rs }

/-- The other agents' operations that are due now, in order; the first one that is not yet due comes one micro-step nearer. -/
def runDue : List Timed → State → Out State
  | [], s => .next { s with others := [] }
  | ⟨0, op⟩ :: rest, s => andThen (duringOp op s) (runDue rest)
  | ⟨d + 1, op⟩ :: rest, s => .next { s with others := ⟨d, op⟩ :: rest }

/-- One block micro-step is about to happen: the other agents act first (R59). -/
def tick (s : State) : Out State := runDue s.others s

/-- STATUS.STATE <- st once the command runs (R40): an agent may see the state before it until this moment (R140, R168). -/
def enterState (st : EngineState) (s : State) : Out State := andThen (tick s) fun s1 => .next (setState st s1)

/-- `finish(res, detail)` once the command has left IDLE (R146). -/
def complete (res : ResultCode) (detail : Word) (s : State) : Out State :=
  andThen (tick s) fun s1 => .next (finish res detail s1)

/-- MemRead(a, 1) (R10, R50): stuck where the memory does not admit it, the races so far settled. -/
def memRead (a : Nat) (s : State) : Out (Byte × State) :=
  andThen (tick s) fun s1 =>
    if admitsRead s1 a then .next (readValue s1 a, afterRead s1 a (readValue s1 a))
    else .fault (.stuckRead a (settle s1))

/-- MemWrite(a, 1, v) (R10, R50): stuck where the memory does not admit it, the races so far settled. -/
def memWrite (a : Nat) (v : Byte) (s : State) : Out State :=
  andThen (tick s) fun s1 =>
    if admitsWrite s1 a then .next (emit (.memW a v) (storeNoted s1 a v))
    else .fault (.stuckWrite a (settle s1))

/-- ClockRequest() (R13, R93): the answer, and the state after it. CLK_REQ is the caller's to write. -/
def clockRequest (s : State) : Out (Answer × State) :=
  andThen (tick s) fun s1 =>
    .next (answerOfWord (replyAt s1 0).error, emit (.clkReq (answerOfWord (replyAt s1 0).error)) (tookReply s1))

/-- ClockRelease() (R13, R93). -/
def clockRelease (s : State) : Out (Answer × State) :=
  andThen (tick s) fun s1 =>
    .next (answerOfWord (replyAt s1 0).error, emit (.clkRel (answerOfWord (replyAt s1 0).error)) (tookReply s1))

/-- How much of a bus write reached the wire (R127): all of it if the answer is ok, else any first part. -/
def sentPart (bytes : List Byte) (r : Reply) : List Byte := if r.error = 0 then bytes else bytes.take r.sent

/-- BusWrite(kind, bytes) (R13, R127). -/
def busWrite (kind : BusKind) (bytes : List Byte) (s : State) : Out (Answer × State) :=
  andThen (tick s) fun s1 =>
    .next (answerOfWord (replyAt s1 0).error,
      emit (.bus kind bytes (answerOfWord (replyAt s1 0).error) (sentPart bytes (replyAt s1 0))) (tookReply s1))

/-- Read the record of pixel `i` of the caller's buffer at `a`: red, green, blue in that order (R69, R84, R119). -/
def readPixel (a i : Nat) (s : State) : Out ((Byte × Byte × Byte) × State) :=
  andThen (memRead (recordAddr s.cfg a i 0) s) fun x =>
  andThen (memRead (recordAddr s.cfg a i 1) x.2) fun y =>
  andThen (memRead (recordAddr s.cfg a i 2) y.2) fun z =>
    .next ((x.1, y.1, z.1), z.2)

end Sys2Proof.Machine
end

