-- ==== Sys2Proof/Machine/Pixel.lean ====
section
/-! DEFINITION. The pixel model both transports share: wire_of and wire_stream, and the frame lookup SER. 40_pixel_model.md rules
R81 to R88; 42_spi_transport.md rules R116 and R117. -/

namespace Sys2Proof.Machine

/-- A pixel as the caller supplies it (R69): there is no white input. -/
structure Pixel where
  r : Byte
  g : Byte
  b : Byte
  deriving DecidableEq, Repr

/-- The value of a channel of a pixel; white is always 0 (R82, R86). -/
def channelValue (p : Pixel) : Channel → Byte
  | .red => p.r
  | .green => p.g
  | .blue => p.b
  | .white => 0

/-- wire_of (R82): the STRIDE wire bytes of a pixel. -/
def wireOf (c : Cfg) (p : Pixel) : List Byte :=
  (channels c).foldl (fun out ch => out.set (order c ch) (channelValue p ch)) (List.replicate (stride c) 0)

/-- The pixel whose record is record `i` of the caller's buffer in memory `m` (R69). -/
def pixelAt (c : Cfg) (m : List Host.Cell) (a i : Nat) : Pixel :=
  { r := memGet m (recordAddr c a i 0), g := memGet m (recordAddr c a i 1), b := memGet m (recordAddr c a i 2) }

/-- wire_stream (R83): the wire bytes of the first `n` pixels of memory `m`. -/
def wireStream (c : Cfg) (m : List Host.Cell) (a n : Nat) : List Byte :=
  (List.range n).flatMap fun i => wireOf c (pixelAt c m a i)

/-- SER (R116): the eight frames of a byte, most significant bit first. -/
def ser (c : Cfg) (v : Byte) : List Byte :=
  (List.range 8).map fun k => if v.getLsbD (7 - k) then c.oneFrame else c.zeroFrame

/-- The frames of a run of wire bytes, in order (R72). -/
def serAll (c : Cfg) (ws : List Byte) : List Byte := ws.flatMap (ser c)

end Sys2Proof.Machine
end

