-- ==== Sys2Proof/Machine/Gpio.lean ====
section
/-! DEFINITION. The GPIO pulse generator: the in-place layout, the bit-slot machine of the burst, and the commands
UPDATE_RGB.GPIO and UPDATE_CHANNELS.GPIO. 40_pixel_model.md rule R84; 41_gpio_transport.md rules R94 to R108. -/

namespace Sys2Proof.Machine

/-- The writes of one pixel of LAYOUT_INPLACE, over the channels left to write (R84, D44): `w` is the pixel's wire record. -/
def layoutWrites (a i : Nat) (w : List Byte) : List Channel → State → Out State
  | [], s => .next s
  | ch :: rest, s =>
    andThen (memWrite (wireAddr s.cfg a i ch) (w.getD (order s.cfg ch) 0) s) (layoutWrites a i w rest)

/-- One pixel of LAYOUT_INPLACE (R84): its record is read completely before its first write. -/
def layoutPixel (a i : Nat) (s : State) : Out State :=
  andThen (readPixel a i s) fun p =>
    layoutWrites a i (wireOf p.2.cfg { r := p.1.1, g := p.1.2.1, b := p.1.2.2 }) (channels p.2.cfg) p.2

/-- The `k` pixels of LAYOUT_INPLACE from pixel `i` on, in ascending order (R84). -/
def layoutFrom (a : Nat) : Nat → Nat → State → Out State
  | _, 0, s => .next s
  | i, k + 1, s => andThen (layoutPixel a i s) (layoutFrom a (i + 1) k)

/-- LAYOUT_INPLACE(a, n) (R84). -/
def layoutInplace (a n : Nat) (s : State) : Out State := layoutFrom a 0 n s

/-- TH(b): the high time of a bit, in cycles (R73, R95). -/
def highTime (c : Cfg) (b : Bool) : Nat := if b then c.t1h.toNat else c.t0h.toNat

/-- slot_len(j, i) of a burst of `nb` wire bytes (R95). -/
def slotLen (c : Cfg) (nb j i : Nat) : Nat := c.tper.toNat + if i = 0 ∧ j + 1 < nb then c.gap.toNat else 0

/-- D(NB): the length of a burst in cycles (R97). -/
def burstLength (c : Cfg) (nb : Nat) : Nat := if nb = 0 then 0 else 8 * nb * c.tper.toNat + (nb - 1) * c.gap.toNat

/-- The Burst event of the burst that just ended (R43). -/
def burstEvent (g : GpioEngine) : Event := .burst g.start g.sent

/-- BURST is left (R99): its event is written and the engine goes on to CLKREL (R94). -/
def leaveBurst (s : State) : State := setPhase .clkRel (emit (burstEvent s.g) s)

/-- BURST entry (R98). The burst's cycle 0 comes after an unspecified finite time (D42): a free number of cycles. If NB = 0 it
returns at once, with no cycle, no edge and no event. -/
def burstEnter (a nb : Nat) (s : State) : Out State :=
  if nb = 0 then .next (setPhase .clkRel { s with g := { s.g with nb := nb } })
  else
    andThen (memRead (a + 0) { s with g := { s.g with nb := nb, j := 0, i := 7, c := 0, phase := .burst } }) fun x =>
      .next
        { drew x.2 with
          cycle := x.2.cycle + Config.freeNat x.2.draws
          g := { x.2.g with b := x.1, start := x.2.cycle + Config.freeNat x.2.draws, sent := [x.1] } }

/-- The level part of BURST_CYCLE (R99): at the start of a slot "branch on the bit"; then the pin is high for the high time and low
for the rest; the cycle count goes up by one. -/
def burstLevel (s : State) : State :=
  let h := if s.g.c = 0 then highTime s.cfg (s.g.b.getLsbD s.g.i) else s.g.h
  { s with
    pin := if s.g.c < h then .high else .low
    cycle := s.cycle + 1
    g := { s.g with h := h, c := s.g.c + 1 } }

/-- The end-of-slot part of BURST_CYCLE (R99): next bit, next wire byte, or leave. -/
def burstAdvance (a : Nat) (s : State) : Out State :=
  if s.g.c = slotLen s.cfg s.g.nb s.g.j s.g.i then
    if s.g.i > 0 then .next { s with g := { s.g with c := 0, i := s.g.i - 1 } }
    else if s.g.j + 1 < s.g.nb then
      andThen (memRead (a + (s.g.j + 1)) { s with g := { s.g with c := 0, j := s.g.j + 1, i := 7 } }) fun x =>
        .next { x.2 with g := { x.2.g with b := x.1, sent := x.2.g.sent ++ [x.1] } }
    else .next (leaveBurst { s with g := { s.g with c := 0 } })
  else .next s

/-- BURST_CYCLE (R99): one cycle of the precise-timing clock. -/
def burstCycle (a : Nat) (s : State) : Out State :=
  andThen (tick s) fun s1 => burstAdvance a (burstLevel s1)

/-- Burst cycles, at most `fuel` of them, until the burst is left. -/
def burstRun (a : Nat) : Nat → State → Out State
  | 0, s => .next s
  | fuel + 1, s => if s.g.phase = .burst then andThen (burstCycle a s) (burstRun a fuel) else .next s

/-- BURST(a, NB) (R98, R99): entry, then exactly the D(NB) cycles of R97. -/
def burst (a nb : Nat) (s : State) : Out State :=
  andThen (burstEnter a nb s) fun s1 => burstRun a (burstLength s.cfg nb) s1

/-- Steps 5 and 6 of UPDATE_RGB.GPIO, after IRQ_MASK went back to 0: ClockRelease and the result (R106). CLK_REQ after a failed
release is a free value (D22). -/
def gpioRelease (s : State) : Out State :=
  andThen (clockRelease s) fun x =>
    match x.1 with
    | .ok => complete .ok 0 (setPhase .done { x.2 with clkReq := false })
    | .fail e => complete .clockControlFailure e (setPhase .done { drew x.2 with clkReq := Config.freeBit x.2.draws })

/-- Steps 3 to 6 of UPDATE_RGB.GPIO, once the clock was granted (R106): mask, burst, unmask, release. -/
def gpioTransmit (a n : Nat) (s : State) : Out State :=
  andThen (burst a (stride s.cfg * n) (setMask true { s with clkReq := true })) fun s1 =>
    gpioRelease (setMask false s1)

/-- UPDATE_RGB.GPIO on latched operands (R106). STATE is TRANSMITTING from the moment of acceptance (D10). -/
def gpioRgb (a n : Nat) (s : State) : Out State :=
  andThen (layoutInplace a n (setPhase .layout (setState .transmitting s))) fun s1 =>
  andThen (clockRequest (setPhase .clkReq s1)) fun x =>
    match x.1 with
    | .fail e => complete .clockControlFailure e x.2
    | .ok => gpioTransmit a n x.2

/-- UPDATE_RGB.GPIO (R106, R144). -/
def execUpdateRgbGpio (s : State) : Out State := accept .gpio (rgbRange s.cfg) s gpioRgb

/-- UPDATE_CHANNELS.GPIO (R108, R144): always UNSUPPORTED, whatever the operands. -/
def execUpdateChannelsGpio (s : State) : Out State :=
  accept .gpio (channelsRange s.cfg) s fun _ _ s1 => .next (finish .unsupported 0 s1)

end Sys2Proof.Machine
end

