-- ==== Sys2Proof/Machine/Spi.lean ====
section
/-! DEFINITION. The SPI frame encoder and its reset/latch sequencer: ENCODE_STAGE, LATCH, and the commands UPDATE_RGB.SPI and
UPDATE_CHANNELS.SPI. 42_spi_transport.md rules R116 to R128; 43_reset_latch.md rules R129 to R133. -/

namespace Sys2Proof.Machine

/-- A byte buffer with the bytes from index `pos` on overwritten by `bs`. -/
def overwrite (buf : List Byte) (pos : Nat) (bs : List Byte) : List Byte :=
  buf.take pos ++ bs ++ buf.drop (pos + bs.length)

/-- One pixel of ENCODE_STAGE (R119): its record is read, and the frames of its wire bytes go to STAGE at 8 × STRIDE × S_I. -/
def encodePixel (a i : Nat) (s : State) : Out State :=
  andThen (readPixel a i { s with sI := i }) fun p =>
    .next { p.2 with
      stage := overwrite p.2.stage (8 * (stride p.2.cfg * i))
        (serAll p.2.cfg (wireOf p.2.cfg { r := p.1.1, g := p.1.2.1, b := p.1.2.2 })) }

/-- The `k` pixels of ENCODE_STAGE from pixel `i` on. -/
def encodeFrom (a : Nat) : Nat → Nat → State → Out State
  | _, 0, s => .next s
  | i, k + 1, s => andThen (encodePixel a i s) (encodeFrom a (i + 1) k)

/-- ENCODE_STAGE(a, n) (R119). S_I starts at 0 (R18). -/
def encodeStage (a n : Nat) (s : State) : Out State := encodeFrom a 0 n { s with sI := 0 }

/-- LATCH() (R131): one bus write of RESET_FRAMES zero bytes, with STATE = LATCHING throughout. -/
def latch (s : State) : Out (Answer × State) :=
  andThen (enterState .latching s) (busWrite .reset (List.replicate (resetFrames s.cfg) 0))

/-- A DATA write and the reset that always follows it (R118, R122, R124, R132): both answers. -/
def dataThenLatch (bytes : List Byte) (s : State) : Out ((Answer × Answer) × State) :=
  andThen (enterState .transmitting s) fun s1 =>
  andThen (busWrite .data bytes s1) fun x =>
  andThen (latch x.2) fun y => .next ((x.1, y.1), y.2)

/-- UPDATE_RGB.SPI on latched operands (R118). The first change of STATE comes with acceptance. -/
def spiRgb (a n : Nat) (s : State) : Out State :=
  if n > s.cfg.maxPixels.toNat then .next (finish .capacityExceeded 0 s)
  else
    andThen (encodeStage a n (setState .encoding s)) fun s1 =>
    andThen (dataThenLatch (s1.stage.take (8 * stride s1.cfg * n)) s1) fun x =>
      complete (rgbSpiResult x.1.1 x.1.2).1 (rgbSpiResult x.1.1 x.1.2).2 x.2

/-- STATE <- ENCODING for channel `j` (R40, R124): with acceptance for the first channel, later a micro-step of its own. -/
def channelStart (j : Nat) (s : State) : Out State :=
  if j = 0 then .next (setState .encoding s) else enterState .encoding s

/-- The end of UPDATE_CHANNELS.SPI after `j` channels (R124): without a channel, STATE never left IDLE (D24). -/
def channelsDone (j : Nat) (s : State) : Out State := if j = 0 then .next (finish .ok 0 s) else complete .ok 0 s

/-- One channel of UPDATE_CHANNELS.SPI up to its two answers (R124). -/
def channelSend (a j : Nat) (s : State) : Out ((Answer × Answer) × State) :=
  andThen (channelStart j { s with sJ := j }) fun s1 =>
  andThen (memRead (a + j) s1) fun x =>
    dataThenLatch (ser x.2.cfg x.1) { x.2 with chbuf := ser x.2.cfg x.1 }

/-- The `k` channels of UPDATE_CHANNELS.SPI from channel `j` on: it stops at the first failed write (R124, R125, R160). -/
def channelsFrom (a : Nat) : Nat → Nat → State → Out State
  | j, 0, s => channelsDone j s
  | j, k + 1, s =>
    andThen (channelSend a j s) fun x =>
      match x.1 with
      | (.fail e, _) => complete .busFailure e x.2
      | (.ok, .fail e2) => complete .busFailure e2 x.2
      | (.ok, .ok) => channelsFrom a (j + 1) k x.2

/-- UPDATE_CHANNELS.SPI on latched operands (R124). S_J starts at 0 (R18). -/
def spiChannels (a n : Nat) (s : State) : Out State := channelsFrom a 0 n { s with sJ := 0 }

/-- UPDATE_RGB.SPI (R118, R144). -/
def execUpdateRgbSpi (s : State) : Out State := accept .spi (rgbRange s.cfg) s spiRgb

/-- UPDATE_CHANNELS.SPI (R124, R144). -/
def execUpdateChannelsSpi (s : State) : Out State := accept .spi (channelsRange s.cfg) s spiChannels

end Sys2Proof.Machine
end

