-- ==== Sys2Proof/Machine/Interface.lean ====
section
/-! DEFINITION. The store to CMD: its word is decoded by the CMD rows and dispatched on the transport. 44_interface.md rules R137,
R144 to R146. -/

namespace Sys2Proof.Machine

/-- WR.CMD (R144). The word is decoded in the CMD space (R65); each row's own meaning makes the checks that follow. -/
def execWrCmd (c : Word) (s : State) : Out State :=
  match decodeCmd s.cfg.transport c with
  | .updateRgbGpio => execUpdateRgbGpio s
  | .updateChannelsGpio => execUpdateChannelsGpio s
  | .updateRgbSpi => execUpdateRgbSpi s
  | .updateChannelsSpi => execUpdateChannelsSpi s
  | .reservedCmd w => execReservedCmd w s
  | .rd _ | .wrAddr _ | .wrCount _ | .wrRo _ _ | .wrCmd _ => .refused (.reservedCommand c)

end Sys2Proof.Machine
end

