-- ==== Sys2Proof/Machine/HostSide.lean ====
section
/-! DEFINITION. What one step of the machine is: which agent moves next, and its operation carried out by a given execution of
instructions. 30_encoding.md rules R78 to R80; 60_exceptions.md rules R168 and R169; 70_reset_and_hazards.md rules R171 to R175. -/

namespace Sys2Proof.Machine

/-- What happens next, between commands. -/
inductive Move where
  /-- an agent's operation -/
  | op (op : AgentOp)
  /-- INIT, the first thing after a reset (R171) -/
  | init
  /-- a hardware reset -/
  | reset
  /-- nothing: no agent has anything to do now (R170, R175) -/
  | idle
  deriving DecidableEq, Repr

/-- Time passes for the other agents by one step. -/
def ageOthers : List Timed → List Timed
  | [] => []
  | ⟨d, op⟩ :: rest => ⟨d - 1, op⟩ :: rest

/-- Who moves next: another agent whose operation is due; else INIT if it has not run; else the issuing agent's program. The state
is the one the move starts from. -/
def nextMove (s : State) : Move × State :=
  match s.others with
  | ⟨0, op⟩ :: rest => (.op op, { s with others := rest })
  | _ =>
    match s.boot with
    | .pending => (.init, { s with others := ageOthers s.others })
    | .complete =>
      match s.program with
      | [] => (.idle, { s with others := ageOthers s.others })
      | .reset :: rest => (.reset, { s with others := ageOthers s.others, program := rest })
      | .op op :: rest => (.op op, { s with others := ageOthers s.others, program := rest })

/-- An agent's operation between commands, instructions carried out by `ex`. -/
def agentOp (ex : Instr → State → Out State) (op : AgentOp) (s : State) : Out State :=
  match op with
  | .present code =>
    match decode s.cfg.transport s.cfg.regBase code with
    | .ok i => ex i s
    | .error e => .refused (.access e)
  | .memLoad a =>
    if admitsRead s a.toNat then .next { s with hostReads := s.hostReads ++ [(a.toNat, memGet s.mem a.toNat)] }
    else .refused .hostMemory
  | .memStore a v =>
    if admitsWrite s a.toNat then .next { s with mem := memPut s.mem a.toNat v } else .refused .hostMemory
  | .remap rs => .next { s with regions := rs }

/-- A move carried out. -/
def runMove (ex : Instr → State → Out State) (m : Move) (s : State) : Out State :=
  match m with
  | .op op => agentOp ex op s
  | .init => runInit s
  | .reset => .next (hardReset s)
  | .idle => .next s

/-- One step of a machine whose instructions are carried out by `ex`. An ill-formed configuration has no instance (R15). -/
def stepWith (ex : Instr → State → Out State) (s : State) : Out State :=
  if wellConstructed s then runMove ex (nextMove s).1 (nextMove s).2 else .refused .illFormedConfig

/-- The state with a table word placed so that the next step runs it: `code` is the next item of the program, init has run (as if
every handle had resolved) if it had not, and no other agent is due first. Assumption logs 6 and 14. -/
def placeNext (s : State) (code : Code) : State :=
  { (match s.boot with | .pending => initDone s | .complete => s) with
    program := .op (.present code) :: s.program
    others := match s.others with | ⟨0, op⟩ :: rest => ⟨1, op⟩ :: rest | o => o }

end Sys2Proof.Machine
end

