-- ==== Sys2Proof/Machine/Dispatch.lean ====
section
/-! DEFINITION. Which meaning each instruction has: one arm per constructor of Instr, no other. -/

namespace Sys2Proof.Machine

def exec (i : Instr) (s : State) : Host.Outcome State Fault Refusal :=
  match i with
  | .updateRgbGpio => Sys2Proof.Machine.execUpdateRgbGpio s
  | .updateChannelsGpio => Sys2Proof.Machine.execUpdateChannelsGpio s
  | .updateRgbSpi => Sys2Proof.Machine.execUpdateRgbSpi s
  | .updateChannelsSpi => Sys2Proof.Machine.execUpdateChannelsSpi s
  | .reservedCmd word => Sys2Proof.Machine.execReservedCmd word s
  | .rd reg => Sys2Proof.Machine.execRd reg s
  | .wrAddr value => Sys2Proof.Machine.execWrAddr value s
  | .wrCount value => Sys2Proof.Machine.execWrCount value s
  | .wrRo reg value => Sys2Proof.Machine.execWrRo reg value s
  | .wrCmd word => Sys2Proof.Machine.execWrCmd word s

end Sys2Proof.Machine
end

