-- ==== Sys2Proof/Machine/Step.lean ====
section
/-! DEFINITION. One step of the machine, and how a table word is placed to be the next instruction. -/

namespace Sys2Proof.Machine

/-- One step: the next move (another agent's operation, INIT, a reset, the program's next access, or nothing), an instruction
running from its acceptance to its completion (R146). -/
def step (s : State) : Host.Outcome State Fault Refusal := stepWith exec s

/-- `s` with the instruction of table word `w` as the very next thing a step runs. No operand word of an instruction is above its
32 table bits but the value of a store, which is 0, so `nbits` needs no use. -/
def State.withFetchWord (s : State) (_nbits w : Nat) : State :=
  placeNext s (tableCode s.cfg.regBase (BitVec.ofNat 32 w))

end Sys2Proof.Machine
end

