-- ==== Sys2Proof/Machine/Wave.lean ====
section
/-! DEFINITION. The waveforms in closed form, which the step machines are held against, and the advisory timing predicate. No rule
of the block reads this file. 41_gpio_transport.md rules R95 to R104 and R111; 42_spi_transport.md rule R121;
70_reset_and_hazards.md rule R183. -/

namespace Sys2Proof.Machine

/-- s_k: the burst cycle at which slot `k` starts (R96). -/
def slotStart (c : Cfg) (k : Nat) : Nat := k * c.tper.toNat + k / 8 * c.gap.toNat

/-- b_k: the bit slot `k` carries, most significant first (R96). -/
def slotBit (ws : List Byte) (k : Nat) : Bool := (ws.getD (k / 8) 0).getLsbD (7 - k % 8)

/-- PIN(t) = 1 in burst cycle `t` of wire stream `ws` (R100). -/
def pinHighAt (c : Cfg) (ws : List Byte) (t : Nat) : Bool :=
  (List.range (8 * ws.length)).any fun k =>
    decide (slotStart c k ≤ t) && decide (t < slotStart c k + highTime c (slotBit ws k))

/-- The level of the pin in burst cycle `t` (R100). -/
def pinAt (c : Cfg) (ws : List Byte) (t : Nat) : PinLevel := if pinHighAt c ws t then .high else .low

/-- The eight levels of the SPI data line while byte `x` goes out, one per bus bit time (R121). -/
def lineBits (x : Byte) : List Bool := (List.range 8).map fun k => x.getLsbD (7 - k)

/-- |ns(x) − target| ≤ 150 for `x` cycles at `freq` Hz, in exact integers (R111). -/
def within150 (freq x target : Nat) : Bool :=
  decide (x * 1000000000 ≤ (target + 150) * freq) && decide (target * freq ≤ x * 1000000000 + 150 * freq)

/-- TIMING_OK (R111). -/
def timingOk (c : Cfg) : Bool :=
  let f := c.cpuClkHz.toNat
  let high1 := c.t1h.toNat
  let high0 := c.t0h.toNat
  let low1 := c.tper.toNat - c.t1h.toNat
  let low0 := c.tper.toNat - c.t0h.toNat
  within150 f high1 850 && within150 f low1 400 && within150 f high0 400 && within150 f low0 850 &&
    within150 f (low1 + c.gap.toNat) 400 && within150 f (low0 + c.gap.toNat) 850

/-- The frame with `h` leading one bits of 8, the rest zero (R183): one pulse, high for `h` bus bit times and then low for 8 − `h`. -/
def pulseFrame (h : Nat) : Byte := BitVec.ofNat 8 (2 ^ 8 - 2 ^ (8 - h))

/-- The number of leading one bits of a frame that is one pulse (R183); none if it is no pulse. -/
def pulseHigh (f : Byte) : Option Nat := (List.range 9).find? fun h => f == pulseFrame h

/-- A frame is a pulse whose high time h / BUS_FREQ_HZ and low time (8 − h) / BUS_FREQ_HZ are within 150 ns of the targets (R183). -/
def frameOk (freq : Nat) (f : Byte) (high low : Nat) : Bool :=
  match pulseHigh f with
  | some h => within150 freq h high && within150 freq (8 - h) low
  | none => false

/-- The targets of R183 for SPI: both frames meet the nominal waveform of R8 within 150 ns. Advisory, like TIMING_OK. -/
def spiTimingOk (c : Cfg) : Bool :=
  frameOk c.busFreqHz.toNat c.oneFrame 850 400 && frameOk c.busFreqHz.toNat c.zeroFrame 400 850

end Sys2Proof.Machine
end

