-- ==== Sys2Proof/Safety.lean ====
section
/-! DEFINITION. The terms claims are made in: when a command is taken and its bytes admitted, the events a command's rules list,
the machine's invariant between commands, and outcomes seen through a map of states. -/

namespace Sys2Proof.Machine

/-- No other agent acts: the premise of R60 for claims about the caller's buffer. -/
abbrev Alone (s : State) : Prop := s.others = []

/-- The conditions of R144 under which a command of transport `t` with a caller range of `len` bytes is accepted. -/
abbrev Takes (t : Transport) (len : Nat) (s : State) : Prop :=
  s.cfg.transport = t ∧ s.status.ready = true ∧ s.status.state = .idle ∧ operandA s + len ≤ addressSpace

/-- The memory admits every byte an UPDATE_RGB reads of `n` records (R50, R69). -/
abbrev RecordsReadable (s : State) (a n : Nat) : Prop :=
  ∀ i, i < n → ∀ k, k < 3 → admitsRead s (recordAddr s.cfg a i k) = true

/-- The memory admits a read of each of the `n` bytes from `a` on (R50, R70). -/
abbrev BytesReadable (s : State) (a n : Nat) : Prop := ∀ k, k < n → admitsRead s (a + k) = true

/-- The memory admits a write of each of the `n` bytes from `a` on (R50, R84). -/
abbrev BytesWritable (s : State) (a n : Nat) : Prop := ∀ k, k < n → admitsWrite s (a + k) = true

/-- UPDATE_RGB.GPIO is accepted and reaches `finish` (R144, R147). -/
abbrev GpioRgbRuns (s : State) : Prop :=
  Takes .gpio (rgbRange s.cfg (operandN s)) s ∧ cfgWf s.cfg = true ∧ Alone s ∧
    RecordsReadable s (operandA s) (operandN s) ∧ BytesWritable s (operandA s) (stride s.cfg * operandN s)

/-- UPDATE_RGB.SPI within its capacity is accepted and reaches `finish` (R144, R147). -/
abbrev SpiRgbRuns (s : State) : Prop :=
  Takes .spi (rgbRange s.cfg (operandN s)) s ∧ Alone s ∧ operandN s ≤ s.cfg.maxPixels.toNat ∧
    RecordsReadable s (operandA s) (operandN s)

/-- UPDATE_CHANNELS.SPI is accepted and reaches `finish` (R144, R147). -/
abbrev SpiChannelsRuns (s : State) : Prop :=
  Takes .spi (channelsRange s.cfg (operandN s)) s ∧ Alone s ∧ BytesReadable s (operandA s) (operandN s)

/-- A store of command word `c` to CMD is accepted and reaches `finish`, whatever the instance's transport (R144, R147). -/
abbrev CommandRuns (c : Word) (s : State) : Prop :=
  (c = 1 ∧ (GpioRgbRuns s ∨ SpiRgbRuns s ∨
    (Takes .spi (rgbRange s.cfg (operandN s)) s ∧ s.cfg.maxPixels.toNat < operandN s))) ∨
  (c = 2 ∧ (Takes .gpio (channelsRange s.cfg (operandN s)) s ∨ SpiChannelsRuns s))

/-- The reads of pixel record `i` of memory `m`: red, green, blue (R84, R119). -/
def recordReads (c : Cfg) (m : List Host.Cell) (a i : Nat) : List Event :=
  [.memR (recordAddr c a i 0) (pixelAt c m a i).r, .memR (recordAddr c a i 1) (pixelAt c m a i).g,
    .memR (recordAddr c a i 2) (pixelAt c m a i).b]

/-- The events of ENCODE_STAGE (R119). -/
def encodeEvents (c : Cfg) (m : List Host.Cell) (a n : Nat) : List Event :=
  (List.range n).flatMap fun i => recordReads c m a i

/-- The writes of pixel `i` of LAYOUT_INPLACE, in the order R, G, B, W (R84, D44). -/
def recordWrites (c : Cfg) (m : List Host.Cell) (a i : Nat) : List Event :=
  (channels c).map fun ch => .memW (wireAddr c a i ch) (channelValue (pixelAt c m a i) ch)

/-- The events of LAYOUT_INPLACE on memory `m` (R84). -/
def layoutEvents (c : Cfg) (m : List Host.Cell) (a n : Nat) : List Event :=
  (List.range n).flatMap fun i => recordReads c m a i ++ recordWrites c m a i

/-- The events of a burst of wire stream `ws` started at cycle `t0` (R102, R106): none for an empty one (D24). -/
def burstEvents (ws : List Byte) (a t0 : Nat) : List Event :=
  if ws = [] then [] else (List.range ws.length).map (fun j => .memR (a + j) (ws.getD j 0)) ++ [.burst t0 ws]

/-- The event of a bus write answered by `r` (R43, R127). -/
def busEvent (kind : BusKind) (bytes : List Byte) (r : Reply) : Event :=
  .bus kind bytes (answerOfWord r.error) (sentPart bytes r)

/-- The RESET_FRAMES zero bytes of a reset write (R74, R131). -/
def resetBytes (c : Cfg) : List Byte := List.replicate (resetFrames c) 0

/-- The events of channel `j` of an UPDATE_CHANNELS.SPI in state `s` (R124): its read, its DATA write, its reset write, answered by
the oracle calls 2j and 2j + 1. -/
def channelEvents (s : State) (j : Nat) : List Event :=
  [.memR (operandA s + j) (memGet s.mem (operandA s + j)),
    busEvent .data (ser s.cfg (memGet s.mem (operandA s + j))) (replyAt s (2 * j)),
    busEvent .reset (resetBytes s.cfg) (replyAt s (2 * j + 1))]

/-- Both writes of channels 0 to j − 1 are answered ok. -/
abbrev ChannelsOk (s : State) (j : Nat) : Prop := ∀ k, k < 2 * j → (replyAt s k).error = 0

/-- Whether an event is a change of IRQ_MASK to `v`. -/
def isMask (v : Bool) : Event → Bool
  | .mask w => w == v
  | _ => false

/-- The label of a bus write event. -/
def busLabel : Event → Option BusKind
  | .bus k _ _ _ => some k
  | _ => none

/-- Whether an event is a read or write of host memory. -/
def isMem : Event → Bool
  | .memR _ _ => true
  | .memW _ _ => true
  | _ => false

/-- The state a fault leaves. -/
def Fault.left : Fault → State
  | .stuckRead _ l => l
  | .stuckWrite _ l => l

/-- An outcome with every state in it (the next state, or the one a fault leaves) seen through `f`. -/
def mapStates (f : State → State) : Out State → Out State
  | .next s => .next (f s)
  | .fault (.stuckRead a l) => .fault (.stuckRead a (f l))
  | .fault (.stuckWrite a l) => .fault (.stuckWrite a (f l))
  | .refused r => .refused r

/-- A state without the contents of STAGE and CHBUF. -/
def eraseBuffers (s : State) : State := { s with stage := [], chbuf := [] }

/-- Whether an instruction is a register access that starts no command (R140, R142, R143). -/
def isAccess : Instr → Bool
  | .rd _ => true
  | .wrAddr _ => true
  | .wrCount _ => true
  | .wrRo _ _ => true
  | .wrCmd _ => false
  | .reservedCmd _ => false
  | .updateRgbGpio => false
  | .updateChannelsGpio => false
  | .updateRgbSpi => false
  | .updateChannelsSpi => false

/-- Whether an agent's operation is such an access to the window of an instance of configuration `c`. -/
def isRegisterAccess (c : Cfg) (op : AgentOp) : Bool :=
  match op with
  | .present code =>
    match decode c.transport c.regBase code with
    | .ok i => isAccess i
    | .error _ => false
  | .memLoad _ => false
  | .memStore _ _ => false
  | .remap _ => false

/-- A state without what other agents' register accesses change: ADDR, COUNT, the values loaded, and what is still to come. -/
def hideAccesses (s : State) : State := { s with addr := 0, count := 0, loads := [], others := [] }

/-- An instruction that is a command of the CMD rows (R64). -/
abbrev IsCommand (i : Instr) : Prop :=
  i = .updateRgbGpio ∨ i = .updateChannelsGpio ∨ i = .updateRgbSpi ∨ i = .updateChannelsSpi

/-- The STATUS word with the last command's result and detail and STATE `st` (R140, R184). -/
def statusIn (st : EngineState) (s : State) : Word := statusWord { s.status with state := st }

/-- The load of STATUS by another agent, after `d` block micro-steps (R140). -/
def statusLoad (c : Cfg) (d : Nat) : Timed := ⟨d, .present (.bus (.load (c.regBase + 0x0C) 4))⟩

/-- A store of `v` to the register at `off` by another agent, after `d` block micro-steps (R142). -/
def wordStore (c : Cfg) (d : Nat) (off v : Word) : Timed := ⟨d, .present (.bus (.store (c.regBase + off) (bytesOfWord v)))⟩

/-- Another agent's remap was carried out on the way from `s` to `t`: it is one of the operations `s` has yet to do and `t` has not (R50,
R153). -/
def Remapped (s t : State) : Prop :=
  ∃ done rs, s.others.map Timed.op = done ++ t.others.map Timed.op ∧ AgentOp.remap rs ∈ done

/-- The invariant of a machine between commands. -/
structure Inv (s : State) : Prop where
  /-- host memory is in canonical form -/
  memory : memWf s.mem = true
  /-- STAGE holds STAGE_BYTES bytes (R21) -/
  stageSize : s.stage.length = stageBytes s.cfg
  /-- CHBUF holds 8 bytes (R22) -/
  chbufSize : s.chbuf.length = 8
  /-- no command is running (R146) -/
  stateIdle : s.status.state = .idle
  /-- IRQ_MASK is 0 at every finish, at reset and after init (R157) -/
  unmasked : s.irqMask = false
  /-- outside a burst the pin is not driven high (R105, D20) -/
  pinNotHigh : s.pin ≠ .high
  /-- a GPIO instance that is ready drives its pin low: from init on, after every burst, until the next burst or reset (R105, R172) -/
  pinLow : s.cfg.transport = .gpio → s.status.ready = true → s.pin = .low
  /-- READY is 0 until init has run (R39) -/
  readyAfterInit : s.status.ready = true → s.boot = .complete
  /-- DETAIL is 0 unless the result is BUS_FAILURE or CLOCK_CONTROL_FAILURE (R28) -/
  detailOnlyOfFailures : s.status.detail ≠ 0 → s.status.result = .busFailure ∨ s.status.result = .clockControlFailure
  /-- an SPI instance drives no pin and requests no clock (R37, R126) -/
  spiDrivesNoPin : s.cfg.transport = .spi → s.pin = .z ∧ s.clkReq = false
  /-- no race is recorded (R59 speaks of a running command only) -/
  noRace : s.race = .empty

end Sys2Proof.Machine
end

