-- ==== Sys2Proof/Certificates/Slice0/Obligations.lean ====
section
/-! DEFINITION. The statements for the provers, each a Prop; OBLIGATIONS.json says what each formalises. -/

open Sys2Proof Sys2Proof.Machine

/-! ### Encoding -/

/-- Every code of a well-formed instruction decodes to it (R63 to R65, R78, R80). -/
def Obligations.DecodeOfEncodeIsTheInstruction : Prop :=
  ∀ (t : Transport) (base : Word) (i : Instr), i.wf t = true → decode t base (encode base i) = .ok i

/-- Each code has one meaning: what a code decodes to is well formed, and encodes to that code and no other. -/
def Obligations.EncodeOfDecodeIsTheCode : Prop :=
  ∀ (t : Transport) (base : Word) (code : Code) (i : Instr),
    decode t base code = .ok i → i.wf t = true ∧ encode base i = code

/-- Words written out from the spec's encodings: the bus accesses of program P1 (95_test_vectors.md) at REG_BASE 0x40000000, the
command words on both transports, and a store to a read-only register. -/
def Obligations.WrittenOutCodesDecode : Prop :=
  decode .spi 0x40000000 (.bus (.load 0x4000000C 4)) = .ok (.rd .status) ∧
  decode .spi 0x40000000 (.bus (.store 0x40000004 [0x00, 0x00, 0x00, 0x20])) = .ok (.wrAddr 0x20000000) ∧
  decode .spi 0x40000000 (.bus (.store 0x40000008 [0x03, 0x00, 0x00, 0x00])) = .ok (.wrCount 3) ∧
  decode .spi 0x40000000 (.bus (.store 0x40000000 [0x01, 0x00, 0x00, 0x00])) = .ok (.wrCmd 1) ∧
  decode .spi 0x40000000 (.bus (.store 0x40000010 [0x00, 0x00, 0x00, 0x00])) = .ok (.wrRo .cfg0 0) ∧
  decode .gpio 0x40000000 (.cmd 0x00000001) = .ok .updateRgbGpio ∧
  decode .spi 0x40000000 (.cmd 0x00000001) = .ok .updateRgbSpi ∧
  decode .gpio 0x40000000 (.cmd 0x00000002) = .ok .updateChannelsGpio ∧
  decode .spi 0x40000000 (.cmd 0x00000002) = .ok .updateChannelsSpi ∧
  decode .spi 0x40000000 (.cmd 0x00000011) = .ok (.reservedCmd 0x00000011)

/-- `check_access` (R141) admits exactly the 4-byte accesses at a multiple of 4 up to 0x28, and answers the register there; and
what it refuses, a step refuses: a load of a wrong width, or at a misaligned or undefined offset, or such a store. -/
def Obligations.CheckAccessAdmitsExactlyTheElevenWords : Prop :=
  (∀ (off : Word) (w : Nat),
    ((∃ r, checkAccess off w = .ok r) ↔ w = 4 ∧ off.toNat % 4 = 0 ∧ off.toNat ≤ 0x28) ∧
    (∀ r, checkAccess off w = .ok r → r.offset = off)) ∧
  (∀ (s : State) (rest : List ProgItem) (a : Word) (w : Nat),
    wellConstructed s = true → Alone s → s.boot = .complete → s.program = .op (.present (.bus (.load a w))) :: rest →
    ¬ (w = 4 ∧ (a - s.cfg.regBase).toNat % 4 = 0 ∧ (a - s.cfg.regBase).toNat ≤ 0x28) →
    ∃ why, step s = .refused (.access why)) ∧
  (∀ (s : State) (rest : List ProgItem) (a : Word) (data : List Byte),
    wellConstructed s = true → Alone s → s.boot = .complete → s.program = .op (.present (.bus (.store a data))) :: rest →
    ¬ (data.length = 4 ∧ (a - s.cfg.regBase).toNat % 4 = 0 ∧ (a - s.cfg.regBase).toNat ≤ 0x28) →
    ∃ why, step s = .refused (.access why))

/-! ### Steps, reset and init -/

/-- A step runs the decoded instruction: between commands, when no other agent is due and init has run, the step at a program
whose next access decodes to `i` is `exec i`, the access taken off the program and the other agents one step nearer. That the
accesses are a list a step takes one of, and other agents a list with delays, is the model's choice (assumption logs 6, 7). -/
def Obligations.StepRunsTheDecodedInstruction : Prop :=
  ∀ (s : State) (code : Code) (i : Instr) (rest : List ProgItem),
    wellConstructed s = true → (∀ tm ∈ s.others.head?, 0 < tm.delay) → s.boot = .complete →
    s.program = .op (.present code) :: rest → decode s.cfg.transport s.cfg.regBase code = .ok i →
    step s = exec i { s with program := rest, others := ageOthers s.others }

/-- A configuration that fails a check of R16, or shares its pin or bus, has no instance: every step is refused (R15, R16). -/
def Obligations.IllFormedConfigurationHasNoStep : Prop :=
  ∀ s : State,
    ¬ (((channels s.cfg).map (order s.cfg)).Nodup ∧ (∀ ch ∈ channels s.cfg, order s.cfg ch < stride s.cfg) ∧
      (s.cfg.recordBytes = 3 ∨ s.cfg.recordBytes = 4) ∧
      (s.cfg.transport = .gpio → stride s.cfg ≤ s.cfg.recordBytes) ∧
      (s.cfg.transport = .gpio → 1 ≤ s.cfg.t0h.toNat ∧ s.cfg.t0h.toNat < s.cfg.t1h.toNat ∧
        s.cfg.t1h.toNat < s.cfg.tper.toNat ∧ 0 < s.cfg.cpuClkHz.toNat) ∧
      (s.cfg.transport = .spi → 0 < s.cfg.busFreqHz.toNat) ∧
      s.cfg.regBase.toNat % 4 = 0 ∧
      (∀ p ∈ s.peers, p.transport = s.cfg.transport →
        p.id ≠ (match s.cfg.transport with | .gpio => s.cfg.pinId | .spi => s.cfg.busId))) →
    step s = .refused .illFormedConfig

/-- A reset item of the program puts the instance at R44's second column, its configuration kept and host memory untouched (R171).
STAGE and CHBUF keep their sizes; what they hold is the model's choice (assumption log 2) and not stated. -/
def Obligations.ResetLeavesTheTabledValues : Prop :=
  ∀ (s : State) (rest : List ProgItem),
    wellConstructed s = true → Alone s → s.boot = .complete → s.program = .reset :: rest →
    ∃ t, step s = .next t ∧ t.cfg = s.cfg ∧ t.addr = 0 ∧ t.count = 0 ∧ statusWord t.status = 0 ∧
      t.stage.length = stageBytes s.cfg ∧ t.chbuf.length = 8 ∧
      t.g.nb = 0 ∧ t.g.j = 0 ∧ t.g.i = 0 ∧ t.g.c = 0 ∧ t.g.b = 0 ∧ t.g.h = 0 ∧ t.sI = 0 ∧ t.sJ = 0 ∧
      t.pin = .z ∧ t.irqMask = false ∧ t.clkReq = false ∧ t.trace = [] ∧ t.boot = .pending ∧
      t.mem = s.mem ∧ t.regions = s.regions ∧ t.program = rest ∧
      (∀ r, r ≠ .addr → r ≠ .count → r ≠ .status → regWord t r = regWord s r)

/-- INIT (R172): the first step after a reset. If every required handle resolves (GPIO: pin and clock; SPI: bus) STATUS is
0x00000040 and a GPIO instance drives its pin low; otherwise STATUS is 0x00000001 and the pin stays as it was. It makes no event
and touches neither memory nor CLK_REQ. -/
def Obligations.InitResolvesTheHandles : Prop :=
  ∀ s : State, wellConstructed s = true → Alone s → s.boot = .pending →
    ∃ t, step s = .next t ∧ t.boot = .complete ∧ t.trace = s.trace ∧ t.mem = s.mem ∧ t.clkReq = s.clkReq ∧
      t.irqMask = s.irqMask ∧ t.addr = s.addr ∧ t.count = s.count ∧ t.cfg = s.cfg ∧ t.program = s.program ∧
      (if (replyAt s 0).error = 0 ∧ (s.cfg.transport = .gpio → (replyAt s 1).error = 0)
        then statusWord t.status = 0x00000040 ∧ t.pin = (if s.cfg.transport = .gpio then .low else s.pin)
        else statusWord t.status = 0x00000001 ∧ t.pin = s.pin)

/-- No instruction changes READY, or runs init again (R39, R173): after a failed init it stays 0 until the next reset. -/
def Obligations.NoInstructionChangesReady : Prop :=
  ∀ (i : Instr) (s t : State), cfgWf s.cfg = true → exec i s = .next t → t.status.ready = s.status.ready ∧ t.boot = s.boot

/-- The configuration never changes: no step writes CFG (R20). -/
def Obligations.NoStepWritesTheConfiguration : Prop :=
  ∀ s t : State, step s = .next t → t.cfg = s.cfg

/-- The machine right after reset meets the invariant. -/
def Obligations.ResetMeetsTheInvariant : Prop := ∀ c : Cfg, Inv (State.resetWith c)

/-- Every step keeps the invariant, whatever the other agents do. -/
def Obligations.EveryStepKeepsTheInvariant : Prop :=
  ∀ s t : State, Inv s → step s = .next t → Inv t

/-! ### Register access -/

/-- RD (R140): a load gives the host the register's value, and nothing else changes. CMD reads 0; ADDR, COUNT their values; STATUS its
fields; the CFG registers their constants, shown field by field (R28, R30 to R36). -/
def Obligations.RegisterLoadReturnsItsValue : Prop :=
  ∀ (s : State) (r : Reg), ∃ v : Word,
    exec (.rd r) s = .next { s with loads := s.loads ++ [(r, v)] } ∧
    match r with
    | .cmd => v = 0
    | .addr => v = s.addr
    | .count => v = s.count
    | .status => v.extractLsb' 16 16 = s.status.detail ∧ v.extractLsb' 7 9 = 0 ∧ v.getLsbD 6 = s.status.ready ∧
        v.extractLsb' 4 2 = stateCode s.status.state ∧ v.extractLsb' 0 4 = resultCode s.status.result
    | .cfg0 => v.getLsbD 0 = (s.cfg.transport == .spi) ∧ v.getLsbD 1 = s.cfg.hasWhite ∧ v.extractLsb' 2 2 = s.cfg.ordR ∧
        v.extractLsb' 4 2 = s.cfg.ordG ∧ v.extractLsb' 6 2 = s.cfg.ordB ∧
        v.extractLsb' 8 2 = (if s.cfg.hasWhite then s.cfg.ordW else 0) ∧ v.getLsbD 10 = (s.cfg.recordBytes == 4) ∧
        v.extractLsb' 11 5 = 0 ∧
        v.extractLsb' 16 16 = (match s.cfg.transport with | .gpio => s.cfg.pinId | .spi => s.cfg.busId)
    | .busFreq => v = (match s.cfg.transport with | .gpio => 0 | .spi => s.cfg.busFreqHz)
    | .frames => if s.cfg.transport = .gpio then v = 0 else
        v.extractLsb' 0 8 = s.cfg.oneFrame ∧ v.extractLsb' 8 8 = s.cfg.zeroFrame ∧
        (v.extractLsb' 16 16).toNat = resetFrames s.cfg
    | .maxPix => v = (match s.cfg.transport with | .gpio => 0 | .spi => s.cfg.maxPixels)
    | .tHigh => if s.cfg.transport = .gpio then v.extractLsb' 0 16 = s.cfg.t1h ∧ v.extractLsb' 16 16 = s.cfg.t0h else v = 0
    | .tPer => if s.cfg.transport = .gpio then v.extractLsb' 0 16 = s.cfg.tper ∧ v.extractLsb' 16 16 = s.cfg.gap else v = 0
    | .cpuHz => v = (match s.cfg.transport with | .gpio => s.cfg.cpuClkHz | .spi => 0)

/-- WR.ADDR and WR.COUNT (R142): every value is accepted, the register takes it, and nothing else changes; a load then returns it. -/
def Obligations.RegisterStoreWritesOnlyItsRegister : Prop :=
  ∀ (s : State) (v : Word),
    exec (.wrAddr v) s = .next { s with addr := v } ∧ exec (.wrCount v) s = .next { s with count := v } ∧
    regWord { s with addr := v } .addr = v ∧ regWord { s with count := v } .count = v

/-- WR.RO (R143): a store to STATUS or a CFG register passes check_access and has no effect. -/
def Obligations.ReadOnlyStoreHasNoEffect : Prop :=
  ∀ (s : State) (r : Reg) (v : Word), 0x0C ≤ r.offset.toNat →
    checkAccess r.offset (bytesOfWord v).length = .ok r ∧ exec (.wrRo r v) s = .next s

/-! ### Acceptance -/

/-- WR.CMD and RESERVED_CMD (R144, R66, R145, R53): the checks in order, each a refusal before any effect, then the dispatch on the
transport. The range check computes in unbounded arithmetic. -/
def Obligations.CommandStoreChecksInOrder : Prop :=
  ∀ (s : State) (c : Word),
    exec (.reservedCmd c) s = .refused (.reservedCommand c) ∧
    exec (.wrCmd c) s =
      if reservedWord c then .refused (.reservedCommand c)
      else if s.status.ready = false then .refused .notReady
      else if s.status.state ≠ .idle then .refused .busy
      else if s.addr.toNat +
          (match s.cfg.transport, decide (c = 1) with
            | .gpio, true => s.cfg.recordBytes * s.count.toNat
            | .spi, true => if s.count.toNat > s.cfg.maxPixels.toNat then 0 else s.cfg.recordBytes * s.count.toNat
            | .gpio, false => 0
            | .spi, false => s.count.toNat) > 2 ^ 32 then .refused .rangeWraps
      else
        match s.cfg.transport, decide (c = 1) with
        | .gpio, true => exec .updateRgbGpio s
        | .spi, true => exec .updateRgbSpi s
        | .gpio, false => exec .updateChannelsGpio s
        | .spi, false => exec .updateChannelsSpi s

/-- The command rows refuse in the same order when run by themselves: READY, then STATE (R144, R145). A term no code decodes to, a command
row of the other transport or WR.RO at CMD, ADDR or COUNT, is refused: the model's choice (assumption log 15). -/
def Obligations.CommandRowsRefuse : Prop :=
  ∀ s : State,
    (s.cfg.transport = .spi → exec .updateRgbGpio s = .refused .wrongTransport ∧
      exec .updateChannelsGpio s = .refused .wrongTransport) ∧
    (s.cfg.transport = .gpio → exec .updateRgbSpi s = .refused .wrongTransport ∧
      exec .updateChannelsSpi s = .refused .wrongTransport) ∧
    (∀ v, exec (.wrRo .cmd v) s = .refused .notReadOnly ∧ exec (.wrRo .addr v) s = .refused .notReadOnly ∧
      exec (.wrRo .count v) s = .refused .notReadOnly) ∧
    (∀ i, i.wf s.cfg.transport = true →
      i = .updateRgbGpio ∨ i = .updateChannelsGpio ∨ i = .updateRgbSpi ∨ i = .updateChannelsSpi →
      (s.status.ready = false → exec i s = .refused .notReady) ∧
      (s.status.ready = true → s.status.state ≠ .idle → exec i s = .refused .busy))

/-- Every accepted command reaches `finish` if the memory admits its accesses (R147): a store of a command word to CMD answers a next
state in which STATE is IDLE and the last event is the command's Done, with the result and detail STATUS shows (R146); ADDR, COUNT,
CFG, READY and the loads made so far are as before. It takes as a premise of the model that the oracles always answer (U9,
assumption log 9). -/
def Obligations.AcceptedCommandStoreReachesFinish : Prop :=
  ∀ (s : State) (c : Word), CommandRuns c s →
    ∃ t new res det, exec (.wrCmd c) s = .next t ∧ t.trace = s.trace ++ new ++ [.done res det] ∧
      (∀ r d, Event.done r d ∉ new) ∧
      t.status = { result := res, state := .idle, ready := true, detail := det } ∧
      t.addr = s.addr ∧ t.count = s.count ∧ t.cfg = s.cfg ∧ t.loads = s.loads

/-- A second agent's CMD store while a command runs is refused (R145, R176), and with it the step it falls in (assumption log 7). For
each command that would run, each of the two command words and each micro-step named: an UPDATE_RGB.GPIO refuses up to its clock
request in any case, and later it refuses or has completed with the store still to come. And of every command that
answers a next state, whatever the other agents do, the accesses it let in were register accesses and no command. -/
def Obligations.SecondCommandIsRefusedWhileOneRuns : Prop :=
  (∀ (s : State) (c : Word) (d : Nat) (rest : List Timed),
    reservedWord c = false → s.others = wordStore s.cfg d 0 c :: rest →
    (SpiRgbRuns { s with others := [] } → d ≤ 3 * operandN s + 4 → exec .updateRgbSpi s = .refused .busy) ∧
    (SpiChannelsRuns { s with others := [] } → ChannelsOk s (operandN s) → d < 6 * operandN s →
      exec .updateChannelsSpi s = .refused .busy) ∧
    (GpioRgbRuns { s with others := [] } →
      (d ≤ (3 + stride s.cfg) * operandN s → exec .updateRgbGpio s = .refused .busy) ∧
      (exec .updateRgbGpio s = .refused .busy ∨
        ∃ t, exec .updateRgbGpio s = .next t ∧ t.others.length = s.others.length))) ∧
  (∀ (i : Instr) (s t : State), IsCommand i → exec i s = .next t →
    ∃ k, t.others.map Timed.op = (s.others.drop k).map Timed.op ∧
      ∀ tm ∈ s.others.take k, ∀ code, tm.op = .present code → isRegisterAccess s.cfg tm.op = true)

/-- What a second agent sees in STATUS while a command runs (R140, R168): the result and detail of the last command and the STATE
of R40 (R184). Its load may fall before any micro-step, that is a memory access, an oracle call, a later change of STATE, or
`finish` (DESIGN CHOICE: assumption log 7, which fixes the delays below). UPDATE_RGB.SPI shows ENCODING through its 3n reads,
then TRANSMITTING, then LATCHING until `finish`; UPDATE_CHANNELS.SPI the three states in each channel; UPDATE_RGB.GPIO
TRANSMITTING throughout; and no command ever shows IDLE. -/
def Obligations.SecondAgentSeesTheRunningState : Prop :=
  (∀ (s : State) (d : Nat), s.others = [statusLoad s.cfg d] →
    (SpiRgbRuns { s with others := [] } → d ≤ 3 * operandN s + 4 →
      ∃ t, exec .updateRgbSpi s = .next t ∧ t.others = [] ∧ t.loads = s.loads ++
        [(.status, statusIn (if d ≤ 3 * operandN s then .encoding else if d ≤ 3 * operandN s + 2 then .transmitting
          else .latching) s)]) ∧
    (SpiChannelsRuns { s with others := [] } → ChannelsOk s (operandN s) → d < 6 * operandN s →
      ∃ t, exec .updateChannelsSpi s = .next t ∧ t.others = [] ∧ t.loads = s.loads ++
        [(.status, statusIn (if d % 6 < 2 then .encoding else if d % 6 < 4 then .transmitting else .latching) s)]) ∧
    (GpioRgbRuns { s with others := [] } →
      ∃ t, exec .updateRgbGpio s = .next t ∧ (d ≤ (3 + stride s.cfg) * operandN s → t.others = []) ∧
        (t.others = [] → t.loads = s.loads ++ [(.status, statusIn .transmitting s)]))) ∧
  (∀ (i : Instr) (s t : State), IsCommand i → exec i s = .next t →
    ∃ new, t.loads = s.loads ++ new ∧ ∀ v, (Reg.status, v) ∈ new →
      ∃ st, st ≠ .idle ∧ v = statusIn st s ∧ (i = .updateRgbGpio → st = .transmitting))

/-- A running command has latched its operands (R142, R144). Whatever register accesses other agents make, and whenever they fall (assumption
log 7), a command's outcome is the one it has without them, but for ADDR, COUNT and the values loaded; and one store to
ADDR or COUNT, before the first micro-step or a later one, leaves its value in that register and changes nothing else. -/
def Obligations.RunningCommandHasLatchedItsOperands : Prop :=
  (∀ (i : Instr) (s : State) (ops : List Timed),
    IsCommand i → (∀ tm ∈ ops, isRegisterAccess s.cfg tm.op = true) →
    mapStates hideAccesses (exec i { s with others := ops }) = mapStates hideAccesses (exec i { s with others := [] })) ∧
  (∀ (s : State) (d : Nat) (v : Word), Alone s →
    (operandN s ≤ s.cfg.maxPixels.toNat → Takes .spi (rgbRange s.cfg (operandN s)) s →
      d = 0 ∨ (SpiRgbRuns s ∧ d ≤ 3 * operandN s + 4) →
      exec .updateRgbSpi { s with others := [wordStore s.cfg d 4 v] } =
        mapStates (fun t => { t with addr := v }) (exec .updateRgbSpi s) ∧
      exec .updateRgbSpi { s with others := [wordStore s.cfg d 8 v] } =
        mapStates (fun t => { t with count := v }) (exec .updateRgbSpi s)) ∧
    (0 < operandN s → Takes .spi (channelsRange s.cfg (operandN s)) s →
      d = 0 ∨ (SpiChannelsRuns s ∧ ChannelsOk s (operandN s) ∧ d < 6 * operandN s) →
      exec .updateChannelsSpi { s with others := [wordStore s.cfg d 4 v] } =
        mapStates (fun t => { t with addr := v }) (exec .updateChannelsSpi s) ∧
      exec .updateChannelsSpi { s with others := [wordStore s.cfg d 8 v] } =
        mapStates (fun t => { t with count := v }) (exec .updateChannelsSpi s)) ∧
    (Takes .gpio (rgbRange s.cfg (operandN s)) s →
      d = 0 ∨ (GpioRgbRuns s ∧ d ≤ (3 + stride s.cfg) * operandN s) →
      exec .updateRgbGpio { s with others := [wordStore s.cfg d 4 v] } =
        mapStates (fun t => { t with addr := v }) (exec .updateRgbGpio s) ∧
      exec .updateRgbGpio { s with others := [wordStore s.cfg d 8 v] } =
        mapStates (fun t => { t with count := v }) (exec .updateRgbGpio s)))

/-! ### The pixel model and the frame lookup -/

/-- Placement (R87): the wire byte at STRIDE·i + ORDER[c] is channel c of pixel i, for every well-formed order, and its frame group is
at frame bytes [8(STRIDE·i + ORDER[c]), +8). -/
def Obligations.WireByteHoldsItsChannel : Prop :=
  ∀ (c : Cfg) (m : List Host.Cell) (a n i : Nat) (ch : Channel),
    cfgWf c = true → i < n → ch ∈ channels c →
    (wireStream c m a n)[stride c * i + order c ch]? = some (channelValue (pixelAt c m a i) ch) ∧
    ((serAll c (wireStream c m a n)).drop (8 * (stride c * i + order c ch))).take 8 =
      ser c (channelValue (pixelAt c m a i) ch) ∧
    (wireStream c m a n).length = stride c * n

/-- The white wire byte is 0 for every pixel and every input, and its SPI frame group is eight zero frames (R86). -/
def Obligations.WhiteSlotIsZero : Prop :=
  ∀ (c : Cfg) (m : List Host.Cell) (a n i : Nat),
    cfgWf c = true → c.hasWhite = true → i < n →
    (wireStream c m a n)[stride c * i + order c .white]? = some 0 ∧
    ((serAll c (wireStream c m a n)).drop (8 * (stride c * i + order c .white))).take 8 = List.replicate 8 c.zeroFrame

/-- SER (R116, R117): exactly 8 frames, most significant bit first, each the one frame or the zero frame by its bit. -/
def Obligations.SerIsEightFramesByBit : Prop :=
  ∀ (c : Cfg) (v : Byte),
    (ser c v).length = 8 ∧ (∀ f ∈ ser c v, f = c.oneFrame ∨ f = c.zeroFrame) ∧
    ∀ k, k < 8 → (ser c v)[k]? = some (if v.getLsbD (7 - k) then c.oneFrame else c.zeroFrame)

/-- Frame groups (R72): wire byte `m` of a stream occupies frame bytes [8m, 8m + 8), its bit 7 − k the one or zero frame at 8m + k. -/
def Obligations.FrameGroupOfWireByte : Prop :=
  ∀ (c : Cfg) (ws : List Byte) (m k : Nat), m < ws.length → k < 8 →
    (serAll c ws)[8 * m + k]? = some (if (ws.getD m 0).getLsbD (7 - k) then c.oneFrame else c.zeroFrame) ∧
    (serAll c ws).length = 8 * ws.length

/-! ### The GPIO pulse generator -/

/-- UPDATE_CHANNELS.GPIO (R108): command word 0x00000002 on a GPIO instance always ends UNSUPPORTED, whatever ADDR and COUNT, with STATUS
0x00000043, and nothing but STATUS and TRACE changes. -/
def Obligations.GpioChannelsIsUnsupported : Prop :=
  ∀ s : State, s.cfg.transport = .gpio → s.status.ready = true → s.status.state = .idle →
    exec .updateChannelsGpio s =
      .next { s with
        status := { result := .unsupported, state := .idle, ready := true, detail := 0 }
        trace := s.trace ++ [.done .unsupported 0]
        race := .empty } ∧
    statusWord { result := .unsupported, state := .idle, ready := true, detail := 0 } = 0x00000043 ∧
    exec (.wrCmd 2) s = exec .updateChannelsGpio s

/-- In-place layout (R84, R85): with no other agent writing, LAYOUT_INPLACE leaves wire_stream of the memory before it in
[a, a + STRIDE·n), every other byte as it was, and makes exactly the reads and writes of R84 in order. -/
def Obligations.LayoutInPlaceLeavesTheWireStream : Prop :=
  ∀ (s : State) (a n : Nat),
    cfgWf s.cfg = true → s.cfg.transport = .gpio → memWf s.mem = true → Alone s → s.race.raced = [] →
    RecordsReadable s a n → BytesWritable s a (stride s.cfg * n) →
    ∃ t, layoutInplace a n s = .next t ∧
      (∀ x, memGet t.mem x =
        if a ≤ x ∧ x < a + stride s.cfg * n then (wireStream s.cfg s.mem a n).getD (x - a) 0 else memGet s.mem x) ∧
      t.trace = s.trace ++ layoutEvents s.cfg s.mem a n

/-- The burst machine of R98 and R99 produces the closed form of R100: from burst entry, with the wire stream in memory, every cycle
t < D(NB) shows the pin at the level R100 gives, the engine is still in BURST before cycle D(NB) and has left it after (R97, R101). -/
def Obligations.BurstProducesTheClosedForm : Prop :=
  ∀ (s : State) (a : Nat) (ws : List Byte),
    cfgWf s.cfg = true → s.cfg.transport = .gpio → Alone s → s.race.raced = [] → ws ≠ [] →
    (∀ j, j < ws.length → admitsRead s (a + j) = true ∧ memGet s.mem (a + j) = ws.getD j 0) →
    ∃ s0, burstEnter a ws.length s = .next s0 ∧
      (∀ t, t < burstLength s.cfg ws.length →
        ∃ st, burstRun a (t + 1) s0 = .next st ∧ st.pin = pinAt s.cfg ws t ∧ st.cycle = s0.cycle + t + 1 ∧
          (st.g.phase = .burst ↔ t + 1 < burstLength s.cfg ws.length))

/-- Slot times (R95, R96, R104): slot k starts where slot k − 1 ends, a slot lasts TPER_CYC cycles, the last slot of a byte that is not
the last GAP_CYC more, and the last slot ends with the burst, after D(NB) cycles (R97). -/
def Obligations.SlotsAreFixedLength : Prop :=
  ∀ (c : Cfg) (nb k : Nat), 0 < nb → k < 8 * nb →
    (k + 1 < 8 * nb → slotStart c (k + 1) = slotStart c k + slotLen c nb (k / 8) (7 - k % 8)) ∧
    (k + 1 = 8 * nb → burstLength c nb = slotStart c k + slotLen c nb (k / 8) (7 - k % 8)) ∧
    slotLen c nb (k / 8) (7 - k % 8) = c.tper.toNat + (if k % 8 = 7 ∧ k + 1 < 8 * nb then c.gap.toNat else 0) ∧
    burstLength c nb = 8 * nb * c.tper.toNat + (nb - 1) * c.gap.toNat ∧ burstLength c 0 = 0

/-- Timing classes (R103, R95): in the closed form every slot is high for exactly TH of its bit from its start, then low to its end. -/
def Obligations.SlotIsHighForItsBit : Prop :=
  ∀ (c : Cfg) (ws : List Byte) (k x : Nat),
    cfgWf c = true → c.transport = .gpio → k < 8 * ws.length → x < slotLen c ws.length (k / 8) (7 - k % 8) →
    pinAt c ws (slotStart c k + x) = (if x < highTime c (slotBit ws k) then .high else .low)

/-- UPDATE_RGB.GPIO with the clock granted and released (R106, R102, R105): STATUS OK, the wire stream left in memory and sent in one
burst, the mask and the clock back to 0, the pin low after a burst, and the events of R106 in order. t0 is a cycle at or after
acceptance (D42), a value of the model's cycle count, and the Burst event comes after the burst's reads (assumption log 11). Nothing
else of the instance changes but its engine. -/
def Obligations.GpioRgbSendsTheWireStream : Prop :=
  ∀ s : State, GpioRgbRuns s → memWf s.mem = true → (replyAt s 0).error = 0 → (replyAt s 1).error = 0 →
    ∃ t t0, exec .updateRgbGpio s = .next t ∧ s.cycle ≤ t0 ∧
      t.status = { result := .ok, state := .idle, ready := true, detail := 0 } ∧
      t.trace = s.trace ++ layoutEvents s.cfg s.mem (operandA s) (operandN s) ++ [.clkReq .ok, .mask true] ++
        burstEvents (wireStream s.cfg s.mem (operandA s) (operandN s)) (operandA s) t0 ++
        [.mask false, .clkRel .ok, .done .ok 0] ∧
      (∀ x, memGet t.mem x =
        if operandA s ≤ x ∧ x < operandA s + stride s.cfg * operandN s
        then (wireStream s.cfg s.mem (operandA s) (operandN s)).getD (x - operandA s) 0 else memGet s.mem x) ∧
      t.pin = (if operandN s = 0 then s.pin else .low) ∧ t.irqMask = false ∧ t.clkReq = false ∧
      (0 < operandN s → t.cycle = t0 + burstLength s.cfg (stride s.cfg * operandN s)) ∧
      t.cfg = s.cfg ∧ t.addr = s.addr ∧ t.count = s.count ∧ t.stage = s.stage ∧ t.chbuf = s.chbuf ∧ t.sI = s.sI ∧
      t.sJ = s.sJ ∧ t.loads = s.loads ∧ t.program = s.program ∧ t.regions = s.regions ∧ t.boot = s.boot

/-- A failed ClockRequest (R106, R107, R161): CLOCK_CONTROL_FAILURE with its error, no mask, no burst, no release, the pin, the mask
and CLK_REQ untouched, and the buffer already reordered (R179). -/
def Obligations.GpioClockRequestFailure : Prop :=
  ∀ s : State, GpioRgbRuns s → memWf s.mem = true → (replyAt s 0).error ≠ 0 →
    ∃ t, exec .updateRgbGpio s = .next t ∧
      t.status = { result := .clockControlFailure, state := .idle, ready := true,
                   detail := (replyAt s 0).error.truncate 16 } ∧
      t.trace = s.trace ++ layoutEvents s.cfg s.mem (operandA s) (operandN s) ++
        [.clkReq (.fail (replyAt s 0).error), .done .clockControlFailure ((replyAt s 0).error.truncate 16)] ∧
      (∀ x, memGet t.mem x =
        if operandA s ≤ x ∧ x < operandA s + stride s.cfg * operandN s
        then (wireStream s.cfg s.mem (operandA s) (operandN s)).getD (x - operandA s) 0 else memGet s.mem x) ∧
      t.pin = s.pin ∧ t.irqMask = s.irqMask ∧ t.clkReq = s.clkReq

/-- A failed ClockRelease (R106, R163): the whole burst has been sent, CLOCK_CONTROL_FAILURE with the release's error, the mask back to
0. Nothing is said of CLK_REQ, which is any value (D22). The place of the Burst event and the cycle count t0 is a value of are the
model's (assumption log 11). -/
def Obligations.GpioClockReleaseFailure : Prop :=
  ∀ s : State, GpioRgbRuns s → memWf s.mem = true → (replyAt s 0).error = 0 → (replyAt s 1).error ≠ 0 →
    ∃ t t0, exec .updateRgbGpio s = .next t ∧ s.cycle ≤ t0 ∧
      t.status = { result := .clockControlFailure, state := .idle, ready := true,
                   detail := (replyAt s 1).error.truncate 16 } ∧
      t.trace = s.trace ++ layoutEvents s.cfg s.mem (operandA s) (operandN s) ++ [.clkReq .ok, .mask true] ++
        burstEvents (wireStream s.cfg s.mem (operandA s) (operandN s)) (operandA s) t0 ++
        [.mask false, .clkRel (.fail (replyAt s 1).error),
          .done .clockControlFailure ((replyAt s 1).error.truncate 16)] ∧
      t.irqMask = false

/-- The frame of the GPIO commands (R54, R84, R112): alone on its memory, a GPIO command that completes leaves every byte outside
[a, a + STRIDE·n) as it was, UPDATE_CHANNELS every byte; ADDR, COUNT, CFG, STAGE, CHBUF, the SPI engine, READY, the loads and the
admission are unchanged by both, and by UPDATE_CHANNELS the pin, the mask, the clock and the engine too. -/
def Obligations.GpioCommandFrame : Prop :=
  ∀ s t : State, cfgWf s.cfg = true → Alone s →
    (exec .updateRgbGpio s = .next t →
      (∀ x, ¬ (operandA s ≤ x ∧ x < operandA s + stride s.cfg * operandN s) → memGet t.mem x = memGet s.mem x) ∧
      t.cfg = s.cfg ∧ t.addr = s.addr ∧ t.count = s.count ∧ t.stage = s.stage ∧ t.chbuf = s.chbuf ∧ t.sI = s.sI ∧
      t.sJ = s.sJ ∧ t.status.ready = s.status.ready ∧ t.loads = s.loads ∧ t.hostReads = s.hostReads ∧
      t.regions = s.regions) ∧
    (exec .updateChannelsGpio s = .next t →
      t.mem = s.mem ∧ t.cfg = s.cfg ∧ t.addr = s.addr ∧ t.count = s.count ∧ t.stage = s.stage ∧ t.chbuf = s.chbuf ∧
      t.sI = s.sI ∧ t.sJ = s.sJ ∧ t.status.ready = s.status.ready ∧ t.loads = s.loads ∧ t.hostReads = s.hostReads ∧
      t.regions = s.regions ∧ t.pin = s.pin ∧ t.irqMask = s.irqMask ∧ t.clkReq = s.clkReq ∧ t.g = s.g)

/-- The result set of the GPIO transport (R113), whatever the other agents do. -/
def Obligations.GpioResultSet : Prop :=
  ∀ s t : State,
    (exec .updateRgbGpio s = .next t → t.status.result = .ok ∨ t.status.result = .clockControlFailure) ∧
    (exec .updateChannelsGpio s = .next t → t.status.result = .unsupported)

/-- When IRQ_MASK changes (R157), whatever the other agents do: an UPDATE_RGB.GPIO whose ClockRequest answered ok sets it once and
clears it once, in that order; no other command changes it. -/
def Obligations.MaskPulsesOncePerGrantedBurst : Prop :=
  (∀ s t : State, cfgWf s.cfg = true → s.irqMask = false → exec .updateRgbGpio s = .next t →
    ∃ new, t.trace = s.trace ++ new ∧ t.irqMask = false ∧
      new.filter (fun e => isMask true e || isMask false e) =
        if (replyAt s 0).error = 0 then [.mask true, .mask false] else []) ∧
  (∀ (i : Instr) (s t : State), i = .updateChannelsGpio ∨ i = .updateRgbSpi ∨ i = .updateChannelsSpi → exec i s = .next t →
    ∃ new, t.trace = s.trace ++ new ∧ t.irqMask = s.irqMask ∧
      new.filter (fun e => isMask true e || isMask false e) = [])

/-- Where an UPDATE_RGB.GPIO can be stuck (R153): alone, and with the admission unchanged, only in the layout: STATE is TRANSMITTING,
the mask, the clock and the pin are as before, and no clock request has been made. -/
def Obligations.GpioIsStuckOnlyInTheLayout : Prop :=
  ∀ (s : State) (f : Fault), cfgWf s.cfg = true → Alone s → exec .updateRgbGpio s = .fault f →
    f.left.status.state = .transmitting ∧ f.left.g.phase = .layout ∧ f.left.irqMask = s.irqMask ∧
      f.left.clkReq = s.clkReq ∧ f.left.pin = s.pin ∧
      ∃ new, f.left.trace = s.trace ++ new ∧ ∀ e ∈ new, isMem e = true

/-- An UPDATE_RGB.GPIO that starts with its pin low and is stuck in a burst (R153, second case): whatever the other agents do, a stuck
one is in its layout with mask, clock and pin as before, or in its burst with IRQ_MASK = 1, CLK_REQ = 1 and PIN = 0 after another
agent's remap was carried out, STATE TRANSMITTING in both. The second happens where the admission is taken away between the layout
and the burst's first read (the delays are those of assumption log 7). -/
def Obligations.GpioIsStuckInTheBurstOnlyAfterARemap : Prop :=
  (∀ (s : State) (f : Fault), cfgWf s.cfg = true → s.pin = .low → exec .updateRgbGpio s = .fault f →
    f.left.status.state = .transmitting ∧
    ((f.left.g.phase = .layout ∧ f.left.irqMask = s.irqMask ∧ f.left.clkReq = s.clkReq ∧ f.left.pin = .low) ∨
     (f.left.g.phase = .burst ∧ f.left.irqMask = true ∧ f.left.clkReq = true ∧ f.left.pin = .low ∧ Remapped s f.left))) ∧
  (∀ (s : State) (d : Nat), GpioRgbRuns { s with others := [] } → s.pin = .low → 0 < operandN s → (replyAt s 0).error = 0 →
    s.others = [⟨d, .remap []⟩] → d = (3 + stride s.cfg) * operandN s ∨ d = (3 + stride s.cfg) * operandN s + 1 →
    ∃ left, exec .updateRgbGpio s = .fault (.stuckRead (operandA s) left) ∧ left.status.state = .transmitting ∧
      left.g.phase = .burst ∧ left.irqMask = true ∧ left.clkReq = true ∧ left.pin = .low)

/-! ### The SPI frame encoder and the reset/latch sequencer -/

/-- The reset-frame count (R129, R130): the formula, at least 1, at least 2 for a bus that clocks, at most 3223, non-decreasing, and long
enough: 8 frames' bits of RESET_FRAMES exceed 6 µs. -/
def Obligations.ResetFrameCountProperties : Prop :=
  (∀ c : Cfg, resetFrames c = (3 * c.busFreqHz.toNat + 3999999) / 4000000 + 1 ∧ 1 ≤ resetFrames c ∧ resetFrames c ≤ 3223 ∧
    (resetFrames c = 1 ↔ c.busFreqHz.toNat = 0) ∧
    (0 < c.busFreqHz.toNat → 2 ≤ resetFrames c ∧ 6 * c.busFreqHz.toNat < 8 * resetFrames c * 1000000)) ∧
  (∀ f f' : Nat, f ≤ f' → resetFrameCount f ≤ resetFrameCount f')

/-- Capacity (R118, R123): an UPDATE_RGB.SPI of more than MAX_PIXELS pixels ends with CAPACITY_EXCEEDED, for every ADDR, with no memory
access and no bus write: nothing but STATUS and TRACE changes. -/
def Obligations.SpiCapacityIsRejectedBeforeAnyEffect : Prop :=
  ∀ s : State, s.cfg.transport = .spi → s.status.ready = true → s.status.state = .idle →
    s.cfg.maxPixels.toNat < operandN s →
    exec .updateRgbSpi s =
      .next { s with
        status := { result := .capacityExceeded, state := .idle, ready := true, detail := 0 }
        trace := s.trace ++ [.done .capacityExceeded 0]
        race := .empty }

/-- UPDATE_RGB.SPI within its capacity (R118 to R120, R122, R127, R131, R159): the reads of its records, one DATA write of the
8·STRIDE·n frames of the wire stream, one reset write of RESET_FRAMES zeros whatever the DATA write answered, and the result: the
DATA error wins, else the reset's error, else OK. STAGE holds the frames; memory, pin, mask and clock are untouched. -/
def Obligations.SpiRgbSendsTheFramesThenTheReset : Prop :=
  ∀ s : State, SpiRgbRuns s → s.stage.length = stageBytes s.cfg →
    ∃ t, exec .updateRgbSpi s = .next t ∧
      (let frames := serAll s.cfg (wireStream s.cfg s.mem (operandA s) (operandN s))
       let result := if (replyAt s 0).error = 0 ∧ (replyAt s 1).error = 0 then ResultCode.ok else .busFailure
       let detail := if (replyAt s 0).error = 0 then (replyAt s 1).error.truncate 16 else (replyAt s 0).error.truncate 16
       frames.length = 8 * stride s.cfg * operandN s ∧
       t.trace = s.trace ++ encodeEvents s.cfg s.mem (operandA s) (operandN s) ++
         [busEvent .data frames (replyAt s 0), busEvent .reset (resetBytes s.cfg) (replyAt s 1), .done result detail] ∧
       t.status = { result := result, state := .idle, ready := true, detail := detail } ∧
       t.stage = frames ++ s.stage.drop frames.length) ∧
      t.mem = s.mem ∧ t.pin = s.pin ∧ t.irqMask = s.irqMask ∧ t.clkReq = s.clkReq ∧ t.g = s.g ∧ t.chbuf = s.chbuf ∧
      t.sJ = s.sJ ∧ t.addr = s.addr ∧ t.count = s.count ∧ t.cfg = s.cfg ∧ t.loads = s.loads ∧ t.regions = s.regions

/-- UPDATE_CHANNELS.SPI whose writes all succeed (R124): each channel read, its 8 frames sent as one DATA write, then one reset write, in
order; OK; with no capacity check and, for n = 0, no bus write. -/
def Obligations.SpiChannelsSendsEachChannel : Prop :=
  ∀ s : State, SpiChannelsRuns s → ChannelsOk s (operandN s) →
    ∃ t, exec .updateChannelsSpi s = .next t ∧
      t.status = { result := .ok, state := .idle, ready := true, detail := 0 } ∧
      t.trace = s.trace ++ (List.range (operandN s)).flatMap (channelEvents s) ++ [.done .ok 0] ∧
      t.mem = s.mem ∧ t.pin = s.pin ∧ t.irqMask = s.irqMask ∧ t.clkReq = s.clkReq ∧ t.g = s.g ∧ t.stage = s.stage ∧
      t.sI = s.sI ∧ t.addr = s.addr ∧ t.count = s.count ∧ t.cfg = s.cfg ∧ t.loads = s.loads ∧ t.regions = s.regions

/-- UPDATE_CHANNELS.SPI stops at the first channel with a failed write (R124, R125, R160): that channel's reset write is still made, once;
its DATA error wins over its reset's error; later channels are not read. -/
def Obligations.SpiChannelsStopsAtTheFailingChannel : Prop :=
  ∀ (s : State) (j : Nat), SpiChannelsRuns s → j < operandN s → ChannelsOk s j →
    ¬ ((replyAt s (2 * j)).error = 0 ∧ (replyAt s (2 * j + 1)).error = 0) →
    ∃ t, exec .updateChannelsSpi s = .next t ∧
      (let e := if (replyAt s (2 * j)).error = 0 then (replyAt s (2 * j + 1)).error else (replyAt s (2 * j)).error
       t.status = { result := .busFailure, state := .idle, ready := true, detail := e.truncate 16 } ∧
       t.trace = s.trace ++ (List.range (j + 1)).flatMap (channelEvents s) ++ [.done .busFailure (e.truncate 16)]) ∧
      t.mem = s.mem

/-- The frame of the SPI commands (R54, R126): alone on its memory, an SPI command that completes leaves every byte of host memory, the
pin, the mask, the clock, the GPIO engine, ADDR, COUNT, CFG, READY and the loads unchanged; UPDATE_RGB also CHBUF and S_J,
UPDATE_CHANNELS also STAGE and S_I. -/
def Obligations.SpiCommandFrame : Prop :=
  ∀ (i : Instr) (s t : State), i = .updateRgbSpi ∨ i = .updateChannelsSpi → Alone s → exec i s = .next t →
    t.mem = s.mem ∧ t.pin = s.pin ∧ t.irqMask = s.irqMask ∧ t.clkReq = s.clkReq ∧ t.g = s.g ∧ t.addr = s.addr ∧
    t.count = s.count ∧ t.cfg = s.cfg ∧ t.status.ready = s.status.ready ∧ t.loads = s.loads ∧ t.hostReads = s.hostReads ∧
    t.regions = s.regions ∧
    (i = .updateRgbSpi → t.chbuf = s.chbuf ∧ t.sJ = s.sJ) ∧ (i = .updateChannelsSpi → t.stage = s.stage ∧ t.sI = s.sI)

/-- A reset write follows every DATA write, and only a DATA write (R132), whatever the answers and the other agents: the bus
writes of an SPI command alternate DATA, RESET, and every reset write is LATCH's RESET_FRAMES zero bytes (R131). -/
def Obligations.ResetWriteFollowsEveryDataWrite : Prop :=
  ∀ (i : Instr) (s t : State), i = .updateRgbSpi ∨ i = .updateChannelsSpi → exec i s = .next t →
    ∃ new k, t.trace = s.trace ++ new ∧
      new.filterMap busLabel = (List.replicate k [BusKind.data, BusKind.reset]).flatten ∧
      (∀ bytes ans sent, Event.bus .reset bytes ans sent ∈ new → bytes = List.replicate (resetFrames s.cfg) 0) ∧
      (i = .updateRgbSpi → k ≤ 1)

/-- What a bus write put on the wire (R127): all of its bytes if it answered ok, else some first part of them; and the answer's error is
never 0 (R13). -/
def Obligations.FailedWriteSendsAFirstPart : Prop :=
  ∀ (i : Instr) (s t : State), i = .updateRgbSpi ∨ i = .updateChannelsSpi → exec i s = .next t →
    ∃ new, t.trace = s.trace ++ new ∧
      ∀ kind bytes ans sent, Event.bus kind bytes ans sent ∈ new →
        sent <+: bytes ∧ (ans = .ok → sent = bytes) ∧ ans ≠ .fail 0

/-- The result sets of the SPI transport (R128), whatever the other agents do. -/
def Obligations.SpiResultSet : Prop :=
  ∀ s t : State,
    (exec .updateRgbSpi s = .next t →
      t.status.result = .ok ∨ t.status.result = .capacityExceeded ∨ t.status.result = .busFailure) ∧
    (exec .updateChannelsSpi s = .next t → t.status.result = .ok ∨ t.status.result = .busFailure)

/-- Where an SPI command can be stuck (R153): in ENCODING, an UPDATE_RGB before any bus write, an UPDATE_CHANNELS with as many reset
writes made as DATA writes. -/
def Obligations.SpiIsStuckOnlyWhileEncoding : Prop :=
  ∀ (i : Instr) (s : State) (f : Fault), i = .updateRgbSpi ∨ i = .updateChannelsSpi → exec i s = .fault f →
    f.left.status.state = .encoding ∧
    ∃ new k, f.left.trace = s.trace ++ new ∧
      new.filterMap busLabel = (List.replicate k [BusKind.data, BusKind.reset]).flatten ∧ (i = .updateRgbSpi → k = 0)

/-- What STAGE and CHBUF hold before an instruction never shows (R119, D34): with them erased from view, its outcome is the same whatever
they held. -/
def Obligations.OldBufferContentsNeverShow : Prop :=
  ∀ (i : Instr) (s : State) (stage chbuf : List Byte),
    s.stage.length = stageBytes s.cfg → stage.length = stageBytes s.cfg →
    mapStates eraseBuffers (exec i { s with stage := stage, chbuf := chbuf }) = mapStates eraseBuffers (exec i s)

/-! ### Races, and the two transports together -/

/-- A race (R59, D17): if another agent stores `v` to an admitted byte of the running command's range just before the block reads it, the
read returns the old byte or `v` (both are allowed), and memory holds `v` then; with no store by another agent the read
returns the byte there. -/
def Obligations.RacyReadReturnsAWrittenByte : Prop :=
  ∀ (s : State) (lo len : Nat) (a : Word) (v : Byte), memWf s.mem = true → s.race = .over lo len →
    lo ≤ a.toNat → a.toNat < lo + len → admitsRead s a.toNat = true → admitsWrite s a.toNat = true →
    (s.others = [⟨0, .memStore a v⟩] →
      ∃ b t, memRead a.toNat s = .next (b, t) ∧ (b = memGet s.mem a.toNat ∨ b = v) ∧
        memGet t.mem a.toNat = v ∧ t.trace = s.trace ++ [.memR a.toNat b]) ∧
    (s.others = [] →
      ∃ t, memRead a.toNat s = .next (memGet s.mem a.toNat, t) ∧ t.mem = s.mem ∧
        t.trace = s.trace ++ [.memR a.toNat (memGet s.mem a.toNat)])

/-- The final bytes of a command (R60, R177, U11), whatever the other agents do: every byte of memory ends as it was before the command,
or with a byte the command wrote there, or with a byte another agent stored there; and where other agents store `v` and `w`
to one byte of an UPDATE_RGB.SPI's range, one of the two stays there, no order between them promised, and every other byte
stays as it was. -/
def Obligations.RacedByteEndsWithAWrittenByte : Prop :=
  (∀ (i : Instr) (s t : State), IsCommand i → memWf s.mem = true → exec i s = .next t →
    ∃ new, t.trace = s.trace ++ new ∧ ∀ x, memGet t.mem x = memGet s.mem x ∨ .memW x (memGet t.mem x) ∈ new ∨
      ∃ tm ∈ s.others, ∃ y : Word, y.toNat = x ∧ tm.op = .memStore y (memGet t.mem x)) ∧
  (∀ (s : State) (x : Word) (v w : Byte) (d e : Nat), SpiRgbRuns { s with others := [] } → memWf s.mem = true →
    operandA s ≤ x.toNat → x.toNat < operandA s + rgbRange s.cfg (operandN s) → admitsWrite s x.toNat = true →
    s.others = [⟨d, .memStore x v⟩, ⟨e, .memStore x w⟩] → d + e ≤ 3 * operandN s + 4 →
    ∃ t, exec .updateRgbSpi s = .next t ∧ (memGet t.mem x.toNat = v ∨ memGet t.mem x.toNat = w) ∧
      ∀ y, y ≠ x.toNat → memGet t.mem y = memGet s.mem y)

/-- Host memory between commands (R57): an agent's load gets the byte memory holds and changes nothing else, a store writes its byte
and no other; and once an UPDATE_RGB.GPIO has completed, whatever the clock answered, a load by the issuing agent gets the byte
the layout left. The program's list of items is the model's (assumption logs 6, 8). -/
def Obligations.HostAgentSeesMemoryBetweenCommands : Prop :=
  ∀ (s : State) (x : Word) (rest : List ProgItem),
    wellConstructed s = true → Alone s → s.boot = .complete → memWf s.mem = true →
    (s.program = .op (.memLoad x) :: rest → admitsRead s x.toNat = true →
      step s = .next { s with program := rest, hostReads := s.hostReads ++ [(x.toNat, memGet s.mem x.toNat)] }) ∧
    (∀ v, s.program = .op (.memStore x v) :: rest → admitsWrite s x.toNat = true →
      ∃ t, step s = .next t ∧ t = { s with program := rest, mem := t.mem } ∧ memGet t.mem x.toNat = v ∧
        ∀ y, y ≠ x.toNat → memGet t.mem y = memGet s.mem y) ∧
    (s.program = .op (.present (.bus (.store s.cfg.regBase (bytesOfWord 1)))) :: .op (.memLoad x) :: rest →
      GpioRgbRuns s → operandA s ≤ x.toNat → x.toNat < operandA s + stride s.cfg * operandN s →
      ∃ t u, step s = .next t ∧ step t = .next u ∧ u.hostReads = s.hostReads ++
        [(x.toNat, (wireStream s.cfg s.mem (operandA s) (operandN s)).getD (x.toNat - operandA s) 0)])

/-- The shared contract (R138): two instances, one of each transport, with the same ORDER, HAS_WHITE and PIXEL_RECORD_BYTES and the same
caller buffer, both completing an UPDATE_RGB with every answer ok, emit the same wire stream: the burst's bytes on GPIO, and on SPI
the frames of those bytes. -/
def Obligations.TransportsEmitTheSameWireStream : Prop :=
  ∀ g p : State, GpioRgbRuns g → SpiRgbRuns p → memWf g.mem = true → p.stage.length = stageBytes p.cfg →
    g.cfg.hasWhite = p.cfg.hasWhite → g.cfg.ordR = p.cfg.ordR → g.cfg.ordG = p.cfg.ordG → g.cfg.ordB = p.cfg.ordB →
    g.cfg.ordW = p.cfg.ordW → g.cfg.recordBytes = p.cfg.recordBytes → g.mem = p.mem →
    operandA g = operandA p → operandN g = operandN p → 0 < operandN g →
    (replyAt g 0).error = 0 → (replyAt g 1).error = 0 → (replyAt p 0).error = 0 → (replyAt p 1).error = 0 →
    ∃ tg tp t0 ws, exec .updateRgbGpio g = .next tg ∧ exec .updateRgbSpi p = .next tp ∧
      tg.trace.filterMap (fun e => match e with | .burst t b => some (t, b) | _ => none) =
        g.trace.filterMap (fun e => match e with | .burst t b => some (t, b) | _ => none) ++ [(t0, ws)] ∧
      tp.trace.filterMap (fun e => match e with | .bus .data b _ _ => some b | _ => none) =
        p.trace.filterMap (fun e => match e with | .bus .data b _ _ => some b | _ => none) ++ [serAll p.cfg ws]

/-! ### The parameter targets -/

/-- The targets of R183 for SPI: a frame of h leading one bits is high for h bus bit times and low for the other 8 − h, and `spiTimingOk` says
that both times of both frames are within 150 ns of 850, 400, 400 and 850 ns. -/
def Obligations.SpiPulseTargets : Prop :=
  (∀ h, h ≤ 8 → lineBits (pulseFrame h) = List.replicate h true ++ List.replicate (8 - h) false) ∧
  (∀ (c : Cfg) (h1 h0 : Nat), h1 ≤ 8 → h0 ≤ 8 → c.oneFrame = pulseFrame h1 → c.zeroFrame = pulseFrame h0 →
    (spiTimingOk c = true ↔
      (700 * c.busFreqHz.toNat ≤ h1 * 1000000000 ∧ h1 * 1000000000 ≤ 1000 * c.busFreqHz.toNat) ∧
      (250 * c.busFreqHz.toNat ≤ (8 - h1) * 1000000000 ∧ (8 - h1) * 1000000000 ≤ 550 * c.busFreqHz.toNat) ∧
      (250 * c.busFreqHz.toNat ≤ h0 * 1000000000 ∧ h0 * 1000000000 ≤ 550 * c.busFreqHz.toNat) ∧
      (700 * c.busFreqHz.toNat ≤ (8 - h0) * 1000000000 ∧ (8 - h0) * 1000000000 ≤ 1000 * c.busFreqHz.toNat)))
end

