-- ==== Sys2Proof/Laws/Memory.lean ====
section
/-! SUPPORT. Host memory: a read after a write, and the canonical form, kept by every write and making equal memories equal
data. -/

namespace Sys2Proof.Machine

theorem memGet_memCons (a : Nat) (v : Byte) (rest : List Host.Cell) (b : Nat)
    (h : b = a → v = unlistedByte → memGet rest b = unlistedByte) :
    memGet (memCons a v rest) b = if b = a then v else memGet rest b := by
  unfold memCons
  split
  · next hv =>
    split
    · next hb => rw [h hb hv, hv]
    · rfl
  · simp [memGet]

/-- A canonical memory whose addresses all lie above `a` reads the unlisted byte at `a`. -/
theorem memGet_of_wfFrom {lo a : Nat} {m : List Host.Cell} (h : memWfFrom lo m = true) (ha : a < lo) :
    memGet m a = unlistedByte := by
  induction m generalizing lo with
  | nil => rfl
  | cons p rest ih =>
    obtain ⟨b, w⟩ := p
    simp only [memWfFrom, Bool.and_eq_true, decide_eq_true_eq] at h
    have hne : a ≠ b := by omega
    simp only [memGet, if_neg hne]
    exact ih h.2 (by omega)

theorem memWfFrom_mono {lo lo' : Nat} {m : List Host.Cell} (h : memWfFrom lo m = true) (hl : lo' ≤ lo) :
    memWfFrom lo' m = true := by
  cases m with
  | nil => rfl
  | cons p rest =>
    obtain ⟨b, w⟩ := p
    simp only [memWfFrom, Bool.and_eq_true, decide_eq_true_eq] at h ⊢
    exact ⟨⟨⟨by omega, h.1.1.2⟩, h.1.2⟩, h.2⟩

theorem memWfFrom_memCons {lo a : Nat} {v : Byte} {m : List Host.Cell} (h : memWfFrom (a + 1) m = true) (hl : lo ≤ a)
    (ha : a < addressSpace) : memWfFrom lo (memCons a v m) = true := by
  unfold memCons
  split
  · exact memWfFrom_mono h (by omega)
  · next hv =>
    simp only [memWfFrom, Bool.and_eq_true, decide_eq_true_eq, bne_iff_ne]
    exact ⟨⟨⟨hl, ha⟩, hv⟩, h⟩

/-- A write keeps the canonical form above `lo`. -/
theorem memWfFrom_memPut {lo a : Nat} {v : Byte} {m : List Host.Cell} (h : memWfFrom lo m = true) (hl : lo ≤ a)
    (ha : a < addressSpace) : memWfFrom lo (memPut m a v) = true := by
  induction m generalizing lo with
  | nil => exact memWfFrom_memCons rfl hl ha
  | cons p rest ih =>
    obtain ⟨b, w⟩ := p
    simp only [memWfFrom, Bool.and_eq_true, decide_eq_true_eq] at h
    simp only [memPut]
    split
    · next hab =>
      refine memWfFrom_memCons ?_ hl ha
      simp only [memWfFrom, Bool.and_eq_true, decide_eq_true_eq]
      exact ⟨⟨⟨by omega, h.1.1.2⟩, h.1.2⟩, h.2⟩
    · split
      · next hab => subst hab; exact memWfFrom_memCons h.2 hl ha
      · simp only [memWfFrom, Bool.and_eq_true, decide_eq_true_eq]
        exact ⟨⟨⟨h.1.1.1, h.1.1.2⟩, h.1.2⟩, ih h.2 (by omega)⟩

/-- Every memory operation keeps the canonical form. -/
theorem memWf_memPut {a : Nat} {v : Byte} {m : List Host.Cell} (h : memWf m = true) (ha : a < addressSpace) :
    memWf (memPut m a v) = true :=
  memWfFrom_memPut h (Nat.zero_le a) ha

/-- In a canonical memory a read after a write gives the byte written, at its address, and the old byte elsewhere. -/
theorem memGet_memPut_from {lo : Nat} {m : List Host.Cell} (h : memWfFrom lo m = true) (a b : Nat) (v : Byte) :
    memGet (memPut m a v) b = if b = a then v else memGet m b := by
  induction m generalizing lo with
  | nil => exact memGet_memCons a v [] b (fun _ _ => rfl)
  | cons p rest ih =>
    obtain ⟨c, w⟩ := p
    have h' := h
    simp only [memWfFrom, Bool.and_eq_true, decide_eq_true_eq] at h
    simp only [memPut]
    split
    · next hac =>
      refine memGet_memCons a v _ b (fun hb _ => ?_)
      subst hb
      have : b ≠ c := by omega
      simp only [memGet, if_neg this]
      exact memGet_of_wfFrom h.2 (by omega)
    · split
      · next hac =>
        subst hac
        rw [memGet_memCons a v _ b (fun hb _ => by subst hb; exact memGet_of_wfFrom h.2 (by omega))]
        by_cases hb : b = a <;> simp [memGet, hb]
      · next hac =>
        simp only [memGet, ih h.2]
        by_cases hb : b = c
        · subst hb
          have : b ≠ a := by omega
          simp [this]
        · simp [hb]

theorem memGet_memPut {m : List Host.Cell} (h : memWf m = true) (a b : Nat) (v : Byte) :
    memGet (memPut m a v) b = if b = a then v else memGet m b :=
  memGet_memPut_from h a b v

/-- A write leaves every other byte alone, in any memory. -/
theorem memGet_memPut_ne (m : List Host.Cell) {a b : Nat} (v : Byte) (h : b ≠ a) :
    memGet (memPut m a v) b = memGet m b := by
  have hc : ∀ rest, memGet (memCons a v rest) b = memGet rest b := by
    intro rest
    unfold memCons
    split
    · rfl
    · simp [memGet, h]
  induction m with
  | nil => exact hc []
  | cons p rest ih =>
    obtain ⟨c, w⟩ := p
    simp only [memPut]
    split
    · exact hc _
    · split
      · next hac => subst hac; rw [hc]; simp [memGet, h]
      · simp [memGet, ih]

/-- Canonical memories that read the same from `lo` on are the same list. -/
theorem eq_of_memGet_eq {lo : Nat} {m m' : List Host.Cell} (h : memWfFrom lo m = true) (h' : memWfFrom lo m' = true)
    (hg : ∀ a, memGet m a = memGet m' a) : m = m' := by
  induction m generalizing lo m' with
  | nil =>
    cases m' with
    | nil => rfl
    | cons p rest =>
      obtain ⟨b, w⟩ := p
      simp only [memWfFrom, Bool.and_eq_true, decide_eq_true_eq, bne_iff_ne] at h'
      have := hg b
      simp [memGet] at this
      exact absurd this.symm h'.1.2
  | cons p rest ih =>
    obtain ⟨b, w⟩ := p
    cases m' with
    | nil =>
      simp only [memWfFrom, Bool.and_eq_true, decide_eq_true_eq, bne_iff_ne] at h
      have := hg b
      simp [memGet] at this
      exact absurd this h.1.2
    | cons q rest' =>
      obtain ⟨c, x⟩ := q
      simp only [memWfFrom, Bool.and_eq_true, decide_eq_true_eq, bne_iff_ne] at h h'
      have hbc : b = c := by
        rcases Nat.lt_trichotomy b c with hlt | heq | hgt
        · have := hg b
          rw [show memGet ((b, w) :: rest) b = w by simp [memGet],
            show memGet ((c, x) :: rest') b = memGet rest' b by simp [memGet, Nat.ne_of_lt hlt],
            memGet_of_wfFrom h'.2 (by omega)] at this
          exact absurd this h.1.2
        · exact heq
        · have := hg c
          rw [show memGet ((c, x) :: rest') c = x by simp [memGet],
            show memGet ((b, w) :: rest) c = memGet rest c by simp [memGet, Nat.ne_of_lt hgt],
            memGet_of_wfFrom h.2 (by omega)] at this
          exact absurd this.symm h'.1.2
      subst hbc
      have hwx : w = x := by have := hg b; simpa [memGet] using this
      subst hwx
      rw [ih h.2 h'.2 (fun a => ?_)]
      rcases Nat.lt_or_ge b a with hlt | hge
      · have := hg a
        simpa [memGet, Nat.ne_of_gt hlt] using this
      · rw [memGet_of_wfFrom h.2 (by omega), memGet_of_wfFrom h'.2 (by omega)]

end Sys2Proof.Machine
end

