-- ==== Sys2Proof/Laws/State.lean ====
section
/-! SUPPORT. What each named update of the state does to each field: one lemma a field, true by rfl, so that no proof unfolds
a record update. -/

namespace Sys2Proof.Machine

@[simp] theorem emit_cfg (e : Event) (s : State) : (emit e s).cfg = s.cfg := rfl
@[simp] theorem emit_addr (e : Event) (s : State) : (emit e s).addr = s.addr := rfl
@[simp] theorem emit_count (e : Event) (s : State) : (emit e s).count = s.count := rfl
@[simp] theorem emit_status (e : Event) (s : State) : (emit e s).status = s.status := rfl
@[simp] theorem emit_stage (e : Event) (s : State) : (emit e s).stage = s.stage := rfl
@[simp] theorem emit_chbuf (e : Event) (s : State) : (emit e s).chbuf = s.chbuf := rfl
@[simp] theorem emit_g (e : Event) (s : State) : (emit e s).g = s.g := rfl
@[simp] theorem emit_sI (e : Event) (s : State) : (emit e s).sI = s.sI := rfl
@[simp] theorem emit_sJ (e : Event) (s : State) : (emit e s).sJ = s.sJ := rfl
@[simp] theorem emit_pin (e : Event) (s : State) : (emit e s).pin = s.pin := rfl
@[simp] theorem emit_irqMask (e : Event) (s : State) : (emit e s).irqMask = s.irqMask := rfl
@[simp] theorem emit_clkReq (e : Event) (s : State) : (emit e s).clkReq = s.clkReq := rfl
@[simp] theorem emit_trace (e : Event) (s : State) : (emit e s).trace = s.trace ++ [e] := rfl
@[simp] theorem emit_boot (e : Event) (s : State) : (emit e s).boot = s.boot := rfl
@[simp] theorem emit_mem (e : Event) (s : State) : (emit e s).mem = s.mem := rfl
@[simp] theorem emit_regions (e : Event) (s : State) : (emit e s).regions = s.regions := rfl
@[simp] theorem emit_peers (e : Event) (s : State) : (emit e s).peers = s.peers := rfl
@[simp] theorem emit_program (e : Event) (s : State) : (emit e s).program = s.program := rfl
@[simp] theorem emit_others (e : Event) (s : State) : (emit e s).others = s.others := rfl
@[simp] theorem emit_loads (e : Event) (s : State) : (emit e s).loads = s.loads := rfl
@[simp] theorem emit_hostReads (e : Event) (s : State) : (emit e s).hostReads = s.hostReads := rfl
@[simp] theorem emit_replies (e : Event) (s : State) : (emit e s).replies = s.replies := rfl
@[simp] theorem emit_asked (e : Event) (s : State) : (emit e s).asked = s.asked := rfl
@[simp] theorem emit_draws (e : Event) (s : State) : (emit e s).draws = s.draws := rfl
@[simp] theorem emit_cycle (e : Event) (s : State) : (emit e s).cycle = s.cycle := rfl
@[simp] theorem emit_race (e : Event) (s : State) : (emit e s).race = s.race := rfl

@[simp] theorem setState_cfg (st : EngineState) (s : State) : (setState st s).cfg = s.cfg := rfl
@[simp] theorem setState_addr (st : EngineState) (s : State) : (setState st s).addr = s.addr := rfl
@[simp] theorem setState_count (st : EngineState) (s : State) : (setState st s).count = s.count := rfl
@[simp] theorem setState_status (st : EngineState) (s : State) : (setState st s).status = { s.status with state := st } := rfl
@[simp] theorem setState_stage (st : EngineState) (s : State) : (setState st s).stage = s.stage := rfl
@[simp] theorem setState_chbuf (st : EngineState) (s : State) : (setState st s).chbuf = s.chbuf := rfl
@[simp] theorem setState_g (st : EngineState) (s : State) : (setState st s).g = s.g := rfl
@[simp] theorem setState_sI (st : EngineState) (s : State) : (setState st s).sI = s.sI := rfl
@[simp] theorem setState_sJ (st : EngineState) (s : State) : (setState st s).sJ = s.sJ := rfl
@[simp] theorem setState_pin (st : EngineState) (s : State) : (setState st s).pin = s.pin := rfl
@[simp] theorem setState_irqMask (st : EngineState) (s : State) : (setState st s).irqMask = s.irqMask := rfl
@[simp] theorem setState_clkReq (st : EngineState) (s : State) : (setState st s).clkReq = s.clkReq := rfl
@[simp] theorem setState_trace (st : EngineState) (s : State) : (setState st s).trace = s.trace := rfl
@[simp] theorem setState_boot (st : EngineState) (s : State) : (setState st s).boot = s.boot := rfl
@[simp] theorem setState_mem (st : EngineState) (s : State) : (setState st s).mem = s.mem := rfl
@[simp] theorem setState_regions (st : EngineState) (s : State) : (setState st s).regions = s.regions := rfl
@[simp] theorem setState_peers (st : EngineState) (s : State) : (setState st s).peers = s.peers := rfl
@[simp] theorem setState_program (st : EngineState) (s : State) : (setState st s).program = s.program := rfl
@[simp] theorem setState_others (st : EngineState) (s : State) : (setState st s).others = s.others := rfl
@[simp] theorem setState_loads (st : EngineState) (s : State) : (setState st s).loads = s.loads := rfl
@[simp] theorem setState_hostReads (st : EngineState) (s : State) : (setState st s).hostReads = s.hostReads := rfl
@[simp] theorem setState_replies (st : EngineState) (s : State) : (setState st s).replies = s.replies := rfl
@[simp] theorem setState_asked (st : EngineState) (s : State) : (setState st s).asked = s.asked := rfl
@[simp] theorem setState_draws (st : EngineState) (s : State) : (setState st s).draws = s.draws := rfl
@[simp] theorem setState_cycle (st : EngineState) (s : State) : (setState st s).cycle = s.cycle := rfl
@[simp] theorem setState_race (st : EngineState) (s : State) : (setState st s).race = s.race := rfl

@[simp] theorem setMask_cfg (v : Bool) (s : State) : (setMask v s).cfg = s.cfg := rfl
@[simp] theorem setMask_addr (v : Bool) (s : State) : (setMask v s).addr = s.addr := rfl
@[simp] theorem setMask_count (v : Bool) (s : State) : (setMask v s).count = s.count := rfl
@[simp] theorem setMask_status (v : Bool) (s : State) : (setMask v s).status = s.status := rfl
@[simp] theorem setMask_stage (v : Bool) (s : State) : (setMask v s).stage = s.stage := rfl
@[simp] theorem setMask_chbuf (v : Bool) (s : State) : (setMask v s).chbuf = s.chbuf := rfl
@[simp] theorem setMask_g (v : Bool) (s : State) : (setMask v s).g = s.g := rfl
@[simp] theorem setMask_sI (v : Bool) (s : State) : (setMask v s).sI = s.sI := rfl
@[simp] theorem setMask_sJ (v : Bool) (s : State) : (setMask v s).sJ = s.sJ := rfl
@[simp] theorem setMask_pin (v : Bool) (s : State) : (setMask v s).pin = s.pin := rfl
@[simp] theorem setMask_irqMask (v : Bool) (s : State) : (setMask v s).irqMask = v := rfl
@[simp] theorem setMask_clkReq (v : Bool) (s : State) : (setMask v s).clkReq = s.clkReq := rfl
@[simp] theorem setMask_trace (v : Bool) (s : State) : (setMask v s).trace = s.trace ++ [.mask v] := rfl
@[simp] theorem setMask_boot (v : Bool) (s : State) : (setMask v s).boot = s.boot := rfl
@[simp] theorem setMask_mem (v : Bool) (s : State) : (setMask v s).mem = s.mem := rfl
@[simp] theorem setMask_regions (v : Bool) (s : State) : (setMask v s).regions = s.regions := rfl
@[simp] theorem setMask_peers (v : Bool) (s : State) : (setMask v s).peers = s.peers := rfl
@[simp] theorem setMask_program (v : Bool) (s : State) : (setMask v s).program = s.program := rfl
@[simp] theorem setMask_others (v : Bool) (s : State) : (setMask v s).others = s.others := rfl
@[simp] theorem setMask_loads (v : Bool) (s : State) : (setMask v s).loads = s.loads := rfl
@[simp] theorem setMask_hostReads (v : Bool) (s : State) : (setMask v s).hostReads = s.hostReads := rfl
@[simp] theorem setMask_replies (v : Bool) (s : State) : (setMask v s).replies = s.replies := rfl
@[simp] theorem setMask_asked (v : Bool) (s : State) : (setMask v s).asked = s.asked := rfl
@[simp] theorem setMask_draws (v : Bool) (s : State) : (setMask v s).draws = s.draws := rfl
@[simp] theorem setMask_cycle (v : Bool) (s : State) : (setMask v s).cycle = s.cycle := rfl
@[simp] theorem setMask_race (v : Bool) (s : State) : (setMask v s).race = s.race := rfl

@[simp] theorem setPhase_cfg (p : GpioPhase) (s : State) : (setPhase p s).cfg = s.cfg := rfl
@[simp] theorem setPhase_addr (p : GpioPhase) (s : State) : (setPhase p s).addr = s.addr := rfl
@[simp] theorem setPhase_count (p : GpioPhase) (s : State) : (setPhase p s).count = s.count := rfl
@[simp] theorem setPhase_status (p : GpioPhase) (s : State) : (setPhase p s).status = s.status := rfl
@[simp] theorem setPhase_stage (p : GpioPhase) (s : State) : (setPhase p s).stage = s.stage := rfl
@[simp] theorem setPhase_chbuf (p : GpioPhase) (s : State) : (setPhase p s).chbuf = s.chbuf := rfl
@[simp] theorem setPhase_g (p : GpioPhase) (s : State) : (setPhase p s).g = { s.g with phase := p } := rfl
@[simp] theorem setPhase_sI (p : GpioPhase) (s : State) : (setPhase p s).sI = s.sI := rfl
@[simp] theorem setPhase_sJ (p : GpioPhase) (s : State) : (setPhase p s).sJ = s.sJ := rfl
@[simp] theorem setPhase_pin (p : GpioPhase) (s : State) : (setPhase p s).pin = s.pin := rfl
@[simp] theorem setPhase_irqMask (p : GpioPhase) (s : State) : (setPhase p s).irqMask = s.irqMask := rfl
@[simp] theorem setPhase_clkReq (p : GpioPhase) (s : State) : (setPhase p s).clkReq = s.clkReq := rfl
@[simp] theorem setPhase_trace (p : GpioPhase) (s : State) : (setPhase p s).trace = s.trace := rfl
@[simp] theorem setPhase_boot (p : GpioPhase) (s : State) : (setPhase p s).boot = s.boot := rfl
@[simp] theorem setPhase_mem (p : GpioPhase) (s : State) : (setPhase p s).mem = s.mem := rfl
@[simp] theorem setPhase_regions (p : GpioPhase) (s : State) : (setPhase p s).regions = s.regions := rfl
@[simp] theorem setPhase_peers (p : GpioPhase) (s : State) : (setPhase p s).peers = s.peers := rfl
@[simp] theorem setPhase_program (p : GpioPhase) (s : State) : (setPhase p s).program = s.program := rfl
@[simp] theorem setPhase_others (p : GpioPhase) (s : State) : (setPhase p s).others = s.others := rfl
@[simp] theorem setPhase_loads (p : GpioPhase) (s : State) : (setPhase p s).loads = s.loads := rfl
@[simp] theorem setPhase_hostReads (p : GpioPhase) (s : State) : (setPhase p s).hostReads = s.hostReads := rfl
@[simp] theorem setPhase_replies (p : GpioPhase) (s : State) : (setPhase p s).replies = s.replies := rfl
@[simp] theorem setPhase_asked (p : GpioPhase) (s : State) : (setPhase p s).asked = s.asked := rfl
@[simp] theorem setPhase_draws (p : GpioPhase) (s : State) : (setPhase p s).draws = s.draws := rfl
@[simp] theorem setPhase_cycle (p : GpioPhase) (s : State) : (setPhase p s).cycle = s.cycle := rfl
@[simp] theorem setPhase_race (p : GpioPhase) (s : State) : (setPhase p s).race = s.race := rfl

@[simp] theorem settle_cfg (s : State) : (settle s).cfg = s.cfg := rfl
@[simp] theorem settle_addr (s : State) : (settle s).addr = s.addr := rfl
@[simp] theorem settle_count (s : State) : (settle s).count = s.count := rfl
@[simp] theorem settle_status (s : State) : (settle s).status = s.status := rfl
@[simp] theorem settle_stage (s : State) : (settle s).stage = s.stage := rfl
@[simp] theorem settle_chbuf (s : State) : (settle s).chbuf = s.chbuf := rfl
@[simp] theorem settle_g (s : State) : (settle s).g = s.g := rfl
@[simp] theorem settle_sI (s : State) : (settle s).sI = s.sI := rfl
@[simp] theorem settle_sJ (s : State) : (settle s).sJ = s.sJ := rfl
@[simp] theorem settle_pin (s : State) : (settle s).pin = s.pin := rfl
@[simp] theorem settle_irqMask (s : State) : (settle s).irqMask = s.irqMask := rfl
@[simp] theorem settle_clkReq (s : State) : (settle s).clkReq = s.clkReq := rfl
@[simp] theorem settle_trace (s : State) : (settle s).trace = s.trace := rfl
@[simp] theorem settle_boot (s : State) : (settle s).boot = s.boot := rfl
@[simp] theorem settle_regions (s : State) : (settle s).regions = s.regions := rfl
@[simp] theorem settle_peers (s : State) : (settle s).peers = s.peers := rfl
@[simp] theorem settle_program (s : State) : (settle s).program = s.program := rfl
@[simp] theorem settle_others (s : State) : (settle s).others = s.others := rfl
@[simp] theorem settle_loads (s : State) : (settle s).loads = s.loads := rfl
@[simp] theorem settle_hostReads (s : State) : (settle s).hostReads = s.hostReads := rfl
@[simp] theorem settle_replies (s : State) : (settle s).replies = s.replies := rfl
@[simp] theorem settle_asked (s : State) : (settle s).asked = s.asked := rfl
@[simp] theorem settle_cycle (s : State) : (settle s).cycle = s.cycle := rfl
@[simp] theorem settle_race (s : State) : (settle s).race = .empty := rfl

@[simp] theorem finish_cfg (r : ResultCode) (d : Word) (s : State) : (finish r d s).cfg = s.cfg := rfl
@[simp] theorem finish_addr (r : ResultCode) (d : Word) (s : State) : (finish r d s).addr = s.addr := rfl
@[simp] theorem finish_count (r : ResultCode) (d : Word) (s : State) : (finish r d s).count = s.count := rfl
@[simp] theorem finish_status (r : ResultCode) (d : Word) (s : State) : (finish r d s).status = { s.status with result := r, state := .idle, detail := d.truncate 16 } := rfl
@[simp] theorem finish_stage (r : ResultCode) (d : Word) (s : State) : (finish r d s).stage = s.stage := rfl
@[simp] theorem finish_chbuf (r : ResultCode) (d : Word) (s : State) : (finish r d s).chbuf = s.chbuf := rfl
@[simp] theorem finish_g (r : ResultCode) (d : Word) (s : State) : (finish r d s).g = s.g := rfl
@[simp] theorem finish_sI (r : ResultCode) (d : Word) (s : State) : (finish r d s).sI = s.sI := rfl
@[simp] theorem finish_sJ (r : ResultCode) (d : Word) (s : State) : (finish r d s).sJ = s.sJ := rfl
@[simp] theorem finish_pin (r : ResultCode) (d : Word) (s : State) : (finish r d s).pin = s.pin := rfl
@[simp] theorem finish_irqMask (r : ResultCode) (d : Word) (s : State) : (finish r d s).irqMask = s.irqMask := rfl
@[simp] theorem finish_clkReq (r : ResultCode) (d : Word) (s : State) : (finish r d s).clkReq = s.clkReq := rfl
@[simp] theorem finish_trace (r : ResultCode) (d : Word) (s : State) : (finish r d s).trace = s.trace ++ [.done r (d.truncate 16)] := rfl
@[simp] theorem finish_boot (r : ResultCode) (d : Word) (s : State) : (finish r d s).boot = s.boot := rfl
@[simp] theorem finish_mem (r : ResultCode) (d : Word) (s : State) : (finish r d s).mem = (settle s).mem := rfl
@[simp] theorem finish_regions (r : ResultCode) (d : Word) (s : State) : (finish r d s).regions = s.regions := rfl
@[simp] theorem finish_peers (r : ResultCode) (d : Word) (s : State) : (finish r d s).peers = s.peers := rfl
@[simp] theorem finish_program (r : ResultCode) (d : Word) (s : State) : (finish r d s).program = s.program := rfl
@[simp] theorem finish_others (r : ResultCode) (d : Word) (s : State) : (finish r d s).others = s.others := rfl
@[simp] theorem finish_loads (r : ResultCode) (d : Word) (s : State) : (finish r d s).loads = s.loads := rfl
@[simp] theorem finish_hostReads (r : ResultCode) (d : Word) (s : State) : (finish r d s).hostReads = s.hostReads := rfl
@[simp] theorem finish_replies (r : ResultCode) (d : Word) (s : State) : (finish r d s).replies = s.replies := rfl
@[simp] theorem finish_asked (r : ResultCode) (d : Word) (s : State) : (finish r d s).asked = s.asked := rfl
@[simp] theorem finish_draws (r : ResultCode) (d : Word) (s : State) : (finish r d s).draws = (settle s).draws := rfl
@[simp] theorem finish_cycle (r : ResultCode) (d : Word) (s : State) : (finish r d s).cycle = s.cycle := rfl
@[simp] theorem finish_race (r : ResultCode) (d : Word) (s : State) : (finish r d s).race = .empty := rfl

@[simp] theorem tookReply_cfg (s : State) : (tookReply s).cfg = s.cfg := rfl
@[simp] theorem tookReply_addr (s : State) : (tookReply s).addr = s.addr := rfl
@[simp] theorem tookReply_count (s : State) : (tookReply s).count = s.count := rfl
@[simp] theorem tookReply_status (s : State) : (tookReply s).status = s.status := rfl
@[simp] theorem tookReply_stage (s : State) : (tookReply s).stage = s.stage := rfl
@[simp] theorem tookReply_chbuf (s : State) : (tookReply s).chbuf = s.chbuf := rfl
@[simp] theorem tookReply_g (s : State) : (tookReply s).g = s.g := rfl
@[simp] theorem tookReply_sI (s : State) : (tookReply s).sI = s.sI := rfl
@[simp] theorem tookReply_sJ (s : State) : (tookReply s).sJ = s.sJ := rfl
@[simp] theorem tookReply_pin (s : State) : (tookReply s).pin = s.pin := rfl
@[simp] theorem tookReply_irqMask (s : State) : (tookReply s).irqMask = s.irqMask := rfl
@[simp] theorem tookReply_clkReq (s : State) : (tookReply s).clkReq = s.clkReq := rfl
@[simp] theorem tookReply_trace (s : State) : (tookReply s).trace = s.trace := rfl
@[simp] theorem tookReply_boot (s : State) : (tookReply s).boot = s.boot := rfl
@[simp] theorem tookReply_mem (s : State) : (tookReply s).mem = s.mem := rfl
@[simp] theorem tookReply_regions (s : State) : (tookReply s).regions = s.regions := rfl
@[simp] theorem tookReply_peers (s : State) : (tookReply s).peers = s.peers := rfl
@[simp] theorem tookReply_program (s : State) : (tookReply s).program = s.program := rfl
@[simp] theorem tookReply_others (s : State) : (tookReply s).others = s.others := rfl
@[simp] theorem tookReply_loads (s : State) : (tookReply s).loads = s.loads := rfl
@[simp] theorem tookReply_hostReads (s : State) : (tookReply s).hostReads = s.hostReads := rfl
@[simp] theorem tookReply_replies (s : State) : (tookReply s).replies = s.replies.drop 1 := rfl
@[simp] theorem tookReply_asked (s : State) : (tookReply s).asked = s.asked + 1 := rfl
@[simp] theorem tookReply_draws (s : State) : (tookReply s).draws = s.draws := rfl
@[simp] theorem tookReply_cycle (s : State) : (tookReply s).cycle = s.cycle := rfl
@[simp] theorem tookReply_race (s : State) : (tookReply s).race = s.race := rfl

@[simp] theorem drew_cfg (s : State) : (drew s).cfg = s.cfg := rfl
@[simp] theorem drew_addr (s : State) : (drew s).addr = s.addr := rfl
@[simp] theorem drew_count (s : State) : (drew s).count = s.count := rfl
@[simp] theorem drew_status (s : State) : (drew s).status = s.status := rfl
@[simp] theorem drew_stage (s : State) : (drew s).stage = s.stage := rfl
@[simp] theorem drew_chbuf (s : State) : (drew s).chbuf = s.chbuf := rfl
@[simp] theorem drew_g (s : State) : (drew s).g = s.g := rfl
@[simp] theorem drew_sI (s : State) : (drew s).sI = s.sI := rfl
@[simp] theorem drew_sJ (s : State) : (drew s).sJ = s.sJ := rfl
@[simp] theorem drew_pin (s : State) : (drew s).pin = s.pin := rfl
@[simp] theorem drew_irqMask (s : State) : (drew s).irqMask = s.irqMask := rfl
@[simp] theorem drew_clkReq (s : State) : (drew s).clkReq = s.clkReq := rfl
@[simp] theorem drew_trace (s : State) : (drew s).trace = s.trace := rfl
@[simp] theorem drew_boot (s : State) : (drew s).boot = s.boot := rfl
@[simp] theorem drew_mem (s : State) : (drew s).mem = s.mem := rfl
@[simp] theorem drew_regions (s : State) : (drew s).regions = s.regions := rfl
@[simp] theorem drew_peers (s : State) : (drew s).peers = s.peers := rfl
@[simp] theorem drew_program (s : State) : (drew s).program = s.program := rfl
@[simp] theorem drew_others (s : State) : (drew s).others = s.others := rfl
@[simp] theorem drew_loads (s : State) : (drew s).loads = s.loads := rfl
@[simp] theorem drew_hostReads (s : State) : (drew s).hostReads = s.hostReads := rfl
@[simp] theorem drew_replies (s : State) : (drew s).replies = s.replies := rfl
@[simp] theorem drew_asked (s : State) : (drew s).asked = s.asked := rfl
@[simp] theorem drew_draws (s : State) : (drew s).draws = s.draws + 1 := rfl
@[simp] theorem drew_cycle (s : State) : (drew s).cycle = s.cycle := rfl
@[simp] theorem drew_race (s : State) : (drew s).race = s.race := rfl

@[simp] theorem storeNoted_cfg (s : State) (a : Nat) (v : Byte) : (storeNoted s a v).cfg = s.cfg := rfl
@[simp] theorem storeNoted_addr (s : State) (a : Nat) (v : Byte) : (storeNoted s a v).addr = s.addr := rfl
@[simp] theorem storeNoted_count (s : State) (a : Nat) (v : Byte) : (storeNoted s a v).count = s.count := rfl
@[simp] theorem storeNoted_status (s : State) (a : Nat) (v : Byte) : (storeNoted s a v).status = s.status := rfl
@[simp] theorem storeNoted_stage (s : State) (a : Nat) (v : Byte) : (storeNoted s a v).stage = s.stage := rfl
@[simp] theorem storeNoted_chbuf (s : State) (a : Nat) (v : Byte) : (storeNoted s a v).chbuf = s.chbuf := rfl
@[simp] theorem storeNoted_g (s : State) (a : Nat) (v : Byte) : (storeNoted s a v).g = s.g := rfl
@[simp] theorem storeNoted_sI (s : State) (a : Nat) (v : Byte) : (storeNoted s a v).sI = s.sI := rfl
@[simp] theorem storeNoted_sJ (s : State) (a : Nat) (v : Byte) : (storeNoted s a v).sJ = s.sJ := rfl
@[simp] theorem storeNoted_pin (s : State) (a : Nat) (v : Byte) : (storeNoted s a v).pin = s.pin := rfl
@[simp] theorem storeNoted_irqMask (s : State) (a : Nat) (v : Byte) : (storeNoted s a v).irqMask = s.irqMask := rfl
@[simp] theorem storeNoted_clkReq (s : State) (a : Nat) (v : Byte) : (storeNoted s a v).clkReq = s.clkReq := rfl
@[simp] theorem storeNoted_trace (s : State) (a : Nat) (v : Byte) : (storeNoted s a v).trace = s.trace := rfl
@[simp] theorem storeNoted_boot (s : State) (a : Nat) (v : Byte) : (storeNoted s a v).boot = s.boot := rfl
@[simp] theorem storeNoted_mem (s : State) (a : Nat) (v : Byte) : (storeNoted s a v).mem = memPut s.mem a v := rfl
@[simp] theorem storeNoted_regions (s : State) (a : Nat) (v : Byte) : (storeNoted s a v).regions = s.regions := rfl
@[simp] theorem storeNoted_peers (s : State) (a : Nat) (v : Byte) : (storeNoted s a v).peers = s.peers := rfl
@[simp] theorem storeNoted_program (s : State) (a : Nat) (v : Byte) : (storeNoted s a v).program = s.program := rfl
@[simp] theorem storeNoted_others (s : State) (a : Nat) (v : Byte) : (storeNoted s a v).others = s.others := rfl
@[simp] theorem storeNoted_loads (s : State) (a : Nat) (v : Byte) : (storeNoted s a v).loads = s.loads := rfl
@[simp] theorem storeNoted_hostReads (s : State) (a : Nat) (v : Byte) : (storeNoted s a v).hostReads = s.hostReads := rfl
@[simp] theorem storeNoted_replies (s : State) (a : Nat) (v : Byte) : (storeNoted s a v).replies = s.replies := rfl
@[simp] theorem storeNoted_asked (s : State) (a : Nat) (v : Byte) : (storeNoted s a v).asked = s.asked := rfl
@[simp] theorem storeNoted_draws (s : State) (a : Nat) (v : Byte) : (storeNoted s a v).draws = s.draws := rfl
@[simp] theorem storeNoted_cycle (s : State) (a : Nat) (v : Byte) : (storeNoted s a v).cycle = s.cycle := rfl
@[simp] theorem storeNoted_race (s : State) (a : Nat) (v : Byte) : (storeNoted s a v).race = { s.race with held := s.race.held ++ [(a, memGet s.mem a)] } := rfl

@[simp] theorem storeRaced_cfg (s : State) (a : Nat) (v : Byte) : (storeRaced s a v).cfg = s.cfg := rfl
@[simp] theorem storeRaced_addr (s : State) (a : Nat) (v : Byte) : (storeRaced s a v).addr = s.addr := rfl
@[simp] theorem storeRaced_count (s : State) (a : Nat) (v : Byte) : (storeRaced s a v).count = s.count := rfl
@[simp] theorem storeRaced_status (s : State) (a : Nat) (v : Byte) : (storeRaced s a v).status = s.status := rfl
@[simp] theorem storeRaced_stage (s : State) (a : Nat) (v : Byte) : (storeRaced s a v).stage = s.stage := rfl
@[simp] theorem storeRaced_chbuf (s : State) (a : Nat) (v : Byte) : (storeRaced s a v).chbuf = s.chbuf := rfl
@[simp] theorem storeRaced_g (s : State) (a : Nat) (v : Byte) : (storeRaced s a v).g = s.g := rfl
@[simp] theorem storeRaced_sI (s : State) (a : Nat) (v : Byte) : (storeRaced s a v).sI = s.sI := rfl
@[simp] theorem storeRaced_sJ (s : State) (a : Nat) (v : Byte) : (storeRaced s a v).sJ = s.sJ := rfl
@[simp] theorem storeRaced_pin (s : State) (a : Nat) (v : Byte) : (storeRaced s a v).pin = s.pin := rfl
@[simp] theorem storeRaced_irqMask (s : State) (a : Nat) (v : Byte) : (storeRaced s a v).irqMask = s.irqMask := rfl
@[simp] theorem storeRaced_clkReq (s : State) (a : Nat) (v : Byte) : (storeRaced s a v).clkReq = s.clkReq := rfl
@[simp] theorem storeRaced_trace (s : State) (a : Nat) (v : Byte) : (storeRaced s a v).trace = s.trace := rfl
@[simp] theorem storeRaced_boot (s : State) (a : Nat) (v : Byte) : (storeRaced s a v).boot = s.boot := rfl
@[simp] theorem storeRaced_mem (s : State) (a : Nat) (v : Byte) : (storeRaced s a v).mem = memPut s.mem a v := rfl
@[simp] theorem storeRaced_regions (s : State) (a : Nat) (v : Byte) : (storeRaced s a v).regions = s.regions := rfl
@[simp] theorem storeRaced_peers (s : State) (a : Nat) (v : Byte) : (storeRaced s a v).peers = s.peers := rfl
@[simp] theorem storeRaced_program (s : State) (a : Nat) (v : Byte) : (storeRaced s a v).program = s.program := rfl
@[simp] theorem storeRaced_others (s : State) (a : Nat) (v : Byte) : (storeRaced s a v).others = s.others := rfl
@[simp] theorem storeRaced_loads (s : State) (a : Nat) (v : Byte) : (storeRaced s a v).loads = s.loads := rfl
@[simp] theorem storeRaced_hostReads (s : State) (a : Nat) (v : Byte) : (storeRaced s a v).hostReads = s.hostReads := rfl
@[simp] theorem storeRaced_replies (s : State) (a : Nat) (v : Byte) : (storeRaced s a v).replies = s.replies := rfl
@[simp] theorem storeRaced_asked (s : State) (a : Nat) (v : Byte) : (storeRaced s a v).asked = s.asked := rfl
@[simp] theorem storeRaced_draws (s : State) (a : Nat) (v : Byte) : (storeRaced s a v).draws = s.draws := rfl
@[simp] theorem storeRaced_cycle (s : State) (a : Nat) (v : Byte) : (storeRaced s a v).cycle = s.cycle := rfl
@[simp] theorem storeRaced_race (s : State) (a : Nat) (v : Byte) : (storeRaced s a v).race = { s.race with raced := s.race.raced.insert a, held := s.race.held ++ [(a, memGet s.mem a)] } := rfl

@[simp] theorem initDone_cfg (s : State) : (initDone s).cfg = s.cfg := rfl
@[simp] theorem initDone_addr (s : State) : (initDone s).addr = s.addr := rfl
@[simp] theorem initDone_count (s : State) : (initDone s).count = s.count := rfl
@[simp] theorem initDone_status (s : State) : (initDone s).status = { result := .ok, state := .idle, ready := true, detail := 0 } := rfl
@[simp] theorem initDone_stage (s : State) : (initDone s).stage = s.stage := rfl
@[simp] theorem initDone_chbuf (s : State) : (initDone s).chbuf = s.chbuf := rfl
@[simp] theorem initDone_g (s : State) : (initDone s).g = s.g := rfl
@[simp] theorem initDone_sI (s : State) : (initDone s).sI = s.sI := rfl
@[simp] theorem initDone_sJ (s : State) : (initDone s).sJ = s.sJ := rfl
@[simp] theorem initDone_pin (s : State) : (initDone s).pin = (match s.cfg.transport with | .gpio => .low | .spi => s.pin) := rfl
@[simp] theorem initDone_irqMask (s : State) : (initDone s).irqMask = s.irqMask := rfl
@[simp] theorem initDone_clkReq (s : State) : (initDone s).clkReq = s.clkReq := rfl
@[simp] theorem initDone_trace (s : State) : (initDone s).trace = s.trace := rfl
@[simp] theorem initDone_boot (s : State) : (initDone s).boot = .complete := rfl
@[simp] theorem initDone_mem (s : State) : (initDone s).mem = s.mem := rfl
@[simp] theorem initDone_regions (s : State) : (initDone s).regions = s.regions := rfl
@[simp] theorem initDone_peers (s : State) : (initDone s).peers = s.peers := rfl
@[simp] theorem initDone_program (s : State) : (initDone s).program = s.program := rfl
@[simp] theorem initDone_others (s : State) : (initDone s).others = s.others := rfl
@[simp] theorem initDone_loads (s : State) : (initDone s).loads = s.loads := rfl
@[simp] theorem initDone_hostReads (s : State) : (initDone s).hostReads = s.hostReads := rfl
@[simp] theorem initDone_replies (s : State) : (initDone s).replies = s.replies := rfl
@[simp] theorem initDone_asked (s : State) : (initDone s).asked = s.asked := rfl
@[simp] theorem initDone_draws (s : State) : (initDone s).draws = s.draws := rfl
@[simp] theorem initDone_cycle (s : State) : (initDone s).cycle = s.cycle := rfl
@[simp] theorem initDone_race (s : State) : (initDone s).race = s.race := rfl

@[simp] theorem initFailed_cfg (s : State) : (initFailed s).cfg = s.cfg := rfl
@[simp] theorem initFailed_addr (s : State) : (initFailed s).addr = s.addr := rfl
@[simp] theorem initFailed_count (s : State) : (initFailed s).count = s.count := rfl
@[simp] theorem initFailed_status (s : State) : (initFailed s).status = { result := .deviceNotFound, state := .idle, ready := false, detail := 0 } := rfl
@[simp] theorem initFailed_stage (s : State) : (initFailed s).stage = s.stage := rfl
@[simp] theorem initFailed_chbuf (s : State) : (initFailed s).chbuf = s.chbuf := rfl
@[simp] theorem initFailed_g (s : State) : (initFailed s).g = s.g := rfl
@[simp] theorem initFailed_sI (s : State) : (initFailed s).sI = s.sI := rfl
@[simp] theorem initFailed_sJ (s : State) : (initFailed s).sJ = s.sJ := rfl
@[simp] theorem initFailed_pin (s : State) : (initFailed s).pin = s.pin := rfl
@[simp] theorem initFailed_irqMask (s : State) : (initFailed s).irqMask = s.irqMask := rfl
@[simp] theorem initFailed_clkReq (s : State) : (initFailed s).clkReq = s.clkReq := rfl
@[simp] theorem initFailed_trace (s : State) : (initFailed s).trace = s.trace := rfl
@[simp] theorem initFailed_boot (s : State) : (initFailed s).boot = .complete := rfl
@[simp] theorem initFailed_mem (s : State) : (initFailed s).mem = s.mem := rfl
@[simp] theorem initFailed_regions (s : State) : (initFailed s).regions = s.regions := rfl
@[simp] theorem initFailed_peers (s : State) : (initFailed s).peers = s.peers := rfl
@[simp] theorem initFailed_program (s : State) : (initFailed s).program = s.program := rfl
@[simp] theorem initFailed_others (s : State) : (initFailed s).others = s.others := rfl
@[simp] theorem initFailed_loads (s : State) : (initFailed s).loads = s.loads := rfl
@[simp] theorem initFailed_hostReads (s : State) : (initFailed s).hostReads = s.hostReads := rfl
@[simp] theorem initFailed_replies (s : State) : (initFailed s).replies = s.replies := rfl
@[simp] theorem initFailed_asked (s : State) : (initFailed s).asked = s.asked := rfl
@[simp] theorem initFailed_draws (s : State) : (initFailed s).draws = s.draws := rfl
@[simp] theorem initFailed_cycle (s : State) : (initFailed s).cycle = s.cycle := rfl
@[simp] theorem initFailed_race (s : State) : (initFailed s).race = s.race := rfl

@[simp] theorem leaveBurst_cfg (s : State) : (leaveBurst s).cfg = s.cfg := rfl
@[simp] theorem leaveBurst_addr (s : State) : (leaveBurst s).addr = s.addr := rfl
@[simp] theorem leaveBurst_count (s : State) : (leaveBurst s).count = s.count := rfl
@[simp] theorem leaveBurst_status (s : State) : (leaveBurst s).status = s.status := rfl
@[simp] theorem leaveBurst_stage (s : State) : (leaveBurst s).stage = s.stage := rfl
@[simp] theorem leaveBurst_chbuf (s : State) : (leaveBurst s).chbuf = s.chbuf := rfl
@[simp] theorem leaveBurst_g (s : State) : (leaveBurst s).g = { s.g with phase := .clkRel } := rfl
@[simp] theorem leaveBurst_sI (s : State) : (leaveBurst s).sI = s.sI := rfl
@[simp] theorem leaveBurst_sJ (s : State) : (leaveBurst s).sJ = s.sJ := rfl
@[simp] theorem leaveBurst_pin (s : State) : (leaveBurst s).pin = s.pin := rfl
@[simp] theorem leaveBurst_irqMask (s : State) : (leaveBurst s).irqMask = s.irqMask := rfl
@[simp] theorem leaveBurst_clkReq (s : State) : (leaveBurst s).clkReq = s.clkReq := rfl
@[simp] theorem leaveBurst_trace (s : State) : (leaveBurst s).trace = s.trace ++ [burstEvent s.g] := rfl
@[simp] theorem leaveBurst_boot (s : State) : (leaveBurst s).boot = s.boot := rfl
@[simp] theorem leaveBurst_mem (s : State) : (leaveBurst s).mem = s.mem := rfl
@[simp] theorem leaveBurst_regions (s : State) : (leaveBurst s).regions = s.regions := rfl
@[simp] theorem leaveBurst_peers (s : State) : (leaveBurst s).peers = s.peers := rfl
@[simp] theorem leaveBurst_program (s : State) : (leaveBurst s).program = s.program := rfl
@[simp] theorem leaveBurst_others (s : State) : (leaveBurst s).others = s.others := rfl
@[simp] theorem leaveBurst_loads (s : State) : (leaveBurst s).loads = s.loads := rfl
@[simp] theorem leaveBurst_hostReads (s : State) : (leaveBurst s).hostReads = s.hostReads := rfl
@[simp] theorem leaveBurst_replies (s : State) : (leaveBurst s).replies = s.replies := rfl
@[simp] theorem leaveBurst_asked (s : State) : (leaveBurst s).asked = s.asked := rfl
@[simp] theorem leaveBurst_draws (s : State) : (leaveBurst s).draws = s.draws := rfl
@[simp] theorem leaveBurst_cycle (s : State) : (leaveBurst s).cycle = s.cycle := rfl
@[simp] theorem leaveBurst_race (s : State) : (leaveBurst s).race = s.race := rfl

@[simp] theorem burstLevel_cfg (s : State) : (burstLevel s).cfg = s.cfg := rfl
@[simp] theorem burstLevel_addr (s : State) : (burstLevel s).addr = s.addr := rfl
@[simp] theorem burstLevel_count (s : State) : (burstLevel s).count = s.count := rfl
@[simp] theorem burstLevel_status (s : State) : (burstLevel s).status = s.status := rfl
@[simp] theorem burstLevel_stage (s : State) : (burstLevel s).stage = s.stage := rfl
@[simp] theorem burstLevel_chbuf (s : State) : (burstLevel s).chbuf = s.chbuf := rfl
@[simp] theorem burstLevel_g (s : State) : (burstLevel s).g = { s.g with h := if s.g.c = 0 then highTime s.cfg (s.g.b.getLsbD s.g.i) else s.g.h, c := s.g.c + 1 } := rfl
@[simp] theorem burstLevel_sI (s : State) : (burstLevel s).sI = s.sI := rfl
@[simp] theorem burstLevel_sJ (s : State) : (burstLevel s).sJ = s.sJ := rfl
@[simp] theorem burstLevel_pin (s : State) : (burstLevel s).pin = (if s.g.c < (if s.g.c = 0 then highTime s.cfg (s.g.b.getLsbD s.g.i) else s.g.h) then .high else .low) := rfl
@[simp] theorem burstLevel_irqMask (s : State) : (burstLevel s).irqMask = s.irqMask := rfl
@[simp] theorem burstLevel_clkReq (s : State) : (burstLevel s).clkReq = s.clkReq := rfl
@[simp] theorem burstLevel_trace (s : State) : (burstLevel s).trace = s.trace := rfl
@[simp] theorem burstLevel_boot (s : State) : (burstLevel s).boot = s.boot := rfl
@[simp] theorem burstLevel_mem (s : State) : (burstLevel s).mem = s.mem := rfl
@[simp] theorem burstLevel_regions (s : State) : (burstLevel s).regions = s.regions := rfl
@[simp] theorem burstLevel_peers (s : State) : (burstLevel s).peers = s.peers := rfl
@[simp] theorem burstLevel_program (s : State) : (burstLevel s).program = s.program := rfl
@[simp] theorem burstLevel_others (s : State) : (burstLevel s).others = s.others := rfl
@[simp] theorem burstLevel_loads (s : State) : (burstLevel s).loads = s.loads := rfl
@[simp] theorem burstLevel_hostReads (s : State) : (burstLevel s).hostReads = s.hostReads := rfl
@[simp] theorem burstLevel_replies (s : State) : (burstLevel s).replies = s.replies := rfl
@[simp] theorem burstLevel_asked (s : State) : (burstLevel s).asked = s.asked := rfl
@[simp] theorem burstLevel_draws (s : State) : (burstLevel s).draws = s.draws := rfl
@[simp] theorem burstLevel_cycle (s : State) : (burstLevel s).cycle = s.cycle + 1 := rfl
@[simp] theorem burstLevel_race (s : State) : (burstLevel s).race = s.race := rfl

@[simp] theorem afterRead_cfg (s : State) (a : Nat) (v : Byte) : (afterRead s a v).cfg = s.cfg := by unfold afterRead; split <;> simp_all
@[simp] theorem afterRead_addr (s : State) (a : Nat) (v : Byte) : (afterRead s a v).addr = s.addr := by unfold afterRead; split <;> simp_all
@[simp] theorem afterRead_count (s : State) (a : Nat) (v : Byte) : (afterRead s a v).count = s.count := by unfold afterRead; split <;> simp_all
@[simp] theorem afterRead_status (s : State) (a : Nat) (v : Byte) : (afterRead s a v).status = s.status := by unfold afterRead; split <;> simp_all
@[simp] theorem afterRead_stage (s : State) (a : Nat) (v : Byte) : (afterRead s a v).stage = s.stage := by unfold afterRead; split <;> simp_all
@[simp] theorem afterRead_chbuf (s : State) (a : Nat) (v : Byte) : (afterRead s a v).chbuf = s.chbuf := by unfold afterRead; split <;> simp_all
@[simp] theorem afterRead_g (s : State) (a : Nat) (v : Byte) : (afterRead s a v).g = s.g := by unfold afterRead; split <;> simp_all
@[simp] theorem afterRead_sI (s : State) (a : Nat) (v : Byte) : (afterRead s a v).sI = s.sI := by unfold afterRead; split <;> simp_all
@[simp] theorem afterRead_sJ (s : State) (a : Nat) (v : Byte) : (afterRead s a v).sJ = s.sJ := by unfold afterRead; split <;> simp_all
@[simp] theorem afterRead_pin (s : State) (a : Nat) (v : Byte) : (afterRead s a v).pin = s.pin := by unfold afterRead; split <;> simp_all
@[simp] theorem afterRead_irqMask (s : State) (a : Nat) (v : Byte) : (afterRead s a v).irqMask = s.irqMask := by unfold afterRead; split <;> simp_all
@[simp] theorem afterRead_clkReq (s : State) (a : Nat) (v : Byte) : (afterRead s a v).clkReq = s.clkReq := by unfold afterRead; split <;> simp_all
@[simp] theorem afterRead_trace (s : State) (a : Nat) (v : Byte) : (afterRead s a v).trace = s.trace ++ [.memR a v] := by unfold afterRead; split <;> simp_all
@[simp] theorem afterRead_boot (s : State) (a : Nat) (v : Byte) : (afterRead s a v).boot = s.boot := by unfold afterRead; split <;> simp_all
@[simp] theorem afterRead_mem (s : State) (a : Nat) (v : Byte) : (afterRead s a v).mem = s.mem := by unfold afterRead; split <;> simp_all
@[simp] theorem afterRead_regions (s : State) (a : Nat) (v : Byte) : (afterRead s a v).regions = s.regions := by unfold afterRead; split <;> simp_all
@[simp] theorem afterRead_peers (s : State) (a : Nat) (v : Byte) : (afterRead s a v).peers = s.peers := by unfold afterRead; split <;> simp_all
@[simp] theorem afterRead_program (s : State) (a : Nat) (v : Byte) : (afterRead s a v).program = s.program := by unfold afterRead; split <;> simp_all
@[simp] theorem afterRead_others (s : State) (a : Nat) (v : Byte) : (afterRead s a v).others = s.others := by unfold afterRead; split <;> simp_all
@[simp] theorem afterRead_loads (s : State) (a : Nat) (v : Byte) : (afterRead s a v).loads = s.loads := by unfold afterRead; split <;> simp_all
@[simp] theorem afterRead_hostReads (s : State) (a : Nat) (v : Byte) : (afterRead s a v).hostReads = s.hostReads := by unfold afterRead; split <;> simp_all
@[simp] theorem afterRead_replies (s : State) (a : Nat) (v : Byte) : (afterRead s a v).replies = s.replies := by unfold afterRead; split <;> simp_all
@[simp] theorem afterRead_asked (s : State) (a : Nat) (v : Byte) : (afterRead s a v).asked = s.asked := by unfold afterRead; split <;> simp_all
@[simp] theorem afterRead_draws (s : State) (a : Nat) (v : Byte) : (afterRead s a v).draws = if s.race.raced.contains a then s.draws + 1 else s.draws := by unfold afterRead; split <;> simp_all
@[simp] theorem afterRead_cycle (s : State) (a : Nat) (v : Byte) : (afterRead s a v).cycle = s.cycle := by unfold afterRead; split <;> simp_all
@[simp] theorem afterRead_race (s : State) (a : Nat) (v : Byte) : (afterRead s a v).race = s.race := by unfold afterRead; split <;> simp_all

end Sys2Proof.Machine
end

