-- ==== Sys2Proof/Laws/Ops.lean ====
section
/-! SUPPORT. Sequencing, what the other agents can do at a micro-step, and what each micro-step of the block answers: with other
agents about (inversion), and alone (equation). -/

namespace Sys2Proof.Machine

/-! ### Sequencing -/

@[simp] theorem andThen_next {σ τ : Type} (x : σ) (f : σ → Out τ) : andThen (.next x) f = f x := rfl
@[simp] theorem andThen_fault {σ τ : Type} (r : Fault) (f : σ → Out τ) : andThen (.fault r) f = .fault r := rfl
@[simp] theorem andThen_refused {σ τ : Type} (r : Refusal) (f : σ → Out τ) : andThen (.refused r) f = .refused r := rfl

theorem andThen_eq_next {σ τ : Type} {o : Out σ} {f : σ → Out τ} {t : τ} (h : andThen o f = .next t) :
    ∃ x, o = .next x ∧ f x = .next t := by
  cases o with
  | next x => exact ⟨x, rfl, h⟩
  | fault r => cases h
  | refused r => cases h

theorem andThen_eq_fault {σ τ : Type} {o : Out σ} {f : σ → Out τ} {r : Fault} (h : andThen o f = .fault r) :
    o = .fault r ∨ ∃ x, o = .next x ∧ f x = .fault r := by
  cases o with
  | next x => exact .inr ⟨x, rfl, h⟩
  | fault r' => cases h; exact .inl rfl
  | refused r' => cases h

theorem andThen_assoc {σ τ υ : Type} (o : Out σ) (f : σ → Out τ) (g : τ → Out υ) :
    andThen (andThen o f) g = andThen o fun x => andThen (f x) g := by
  cases o <;> rfl

/-! ### What the other agents can do -/

/-- `t` differs from `s` at most in what other agents can change while a command runs: ADDR, COUNT, host memory, its admission, what
they loaded, what they have still to do, the free values drawn and the race record. -/
def AgentsOnly (s t : State) : Prop :=
  t = { s with addr := t.addr, count := t.count, mem := t.mem, regions := t.regions, others := t.others,
               loads := t.loads, hostReads := t.hostReads, draws := t.draws, race := t.race }

theorem AgentsOnly.refl (s : State) : AgentsOnly s s := rfl

theorem AgentsOnly.trans {s t u : State} (h : AgentsOnly s t) (h' : AgentsOnly t u) : AgentsOnly s u := by
  unfold AgentsOnly at *
  rw [h] at h'
  exact h'

theorem AgentsOnly.fields {s t : State} (h : AgentsOnly s t) :
    t.cfg = s.cfg ∧ t.status = s.status ∧ t.stage = s.stage ∧ t.chbuf = s.chbuf ∧ t.g = s.g ∧ t.sI = s.sI ∧ t.sJ = s.sJ ∧
      t.pin = s.pin ∧ t.irqMask = s.irqMask ∧ t.clkReq = s.clkReq ∧ t.trace = s.trace ∧ t.boot = s.boot ∧
      t.peers = s.peers ∧ t.program = s.program ∧ t.replies = s.replies ∧ t.asked = s.asked ∧ t.cycle = s.cycle := by
  unfold AgentsOnly at h
  rw [h]
  simp

/-- Memory is canonical, and every raced address lies in the address space. -/
def MemOk (s : State) : Prop := memWf s.mem = true ∧ ∀ a ∈ s.race.raced, a < addressSpace

theorem MemOk.congr {s t : State} (hm : t.mem = s.mem) (hr : t.race.raced = s.race.raced) (h : MemOk s) : MemOk t := by
  unfold MemOk
  rw [hm, hr]
  exact h

/-- Settling the races keeps the canonical form. -/
theorem memWf_settleMem {r : Race} {as : List Nat} {k : Nat} {m : List Host.Cell} (hm : memWf m = true)
    (ha : ∀ a ∈ as, a < addressSpace) : memWf (settleMem r as k m) = true := by
  induction as generalizing k m with
  | nil => exact hm
  | cons a rest ih => exact ih (memWf_memPut hm (ha a (by simp))) fun b hb => ha b (by simp [hb])

/-- A free pick is one of the bytes. -/
theorem freePick_mem (k : Nat) {bs : List Byte} (o : Byte) (h : bs ≠ []) : freePick k bs o ∈ bs := by
  have hl := List.length_pos_of_ne_nil h
  unfold freePick
  rw [List.getD_eq_getElem _ _ (Nat.mod_lt _ hl)]
  exact List.getElem_mem _

/-- Settling changes no other address. -/
theorem memGet_settleMem_ne {r : Race} {as : List Nat} {k x : Nat} {m : List Host.Cell} (hx : x ∉ as) :
    memGet (settleMem r as k m) x = memGet m x := by
  induction as generalizing k m with
  | nil => rfl
  | cons a rest ih =>
    simp only [List.mem_cons, not_or] at hx
    exact (ih hx.2).trans (memGet_memPut_ne _ _ hx.1)

/-- A settled address holds a free pick among the bytes written to it (R60). -/
theorem memGet_settleMem_mem {r : Race} {as : List Nat} {k x : Nat} {m : List Host.Cell} (hm : memWf m = true)
    (ha : ∀ a ∈ as, a < addressSpace) (hn : as.Nodup) (hx : x ∈ as) :
    ∃ j, memGet (settleMem r as k m) x = freePick j (r.written m x) (memGet m x) := by
  induction as generalizing k m with
  | nil => cases hx
  | cons a rest ih =>
    have hn' := List.nodup_cons.mp hn
    by_cases hxa : x = a
    · subst hxa
      exact ⟨k, (memGet_settleMem_ne hn'.1).trans (by rw [memGet_memPut hm, if_pos rfl])⟩
    · obtain ⟨j, hj⟩ := ih (k := k + 1) (m := memPut m a (freePick k (r.written m a) (memGet m a)))
        (memWf_memPut hm (ha a (by simp))) (fun b hb => ha b (by simp [hb])) hn'.2 (by simpa [hxa] using hx)
      exact ⟨j, hj.trans (by simp only [Race.written, memGet_memPut_ne _ _ hxa])⟩

theorem MemOk.settle {s : State} (h : MemOk s) : MemOk (settle s) :=
  ⟨memWf_settleMem h.1 h.2, by simp [Machine.settle, Race.empty]⟩

/-- Without a race nothing is settled. -/
theorem settle_of_not_raced {s : State} (h : s.race.raced = []) : settle s = { s with race := .empty } := by
  simp [settle, h, settleMem]

theorem duringInstr_next {i : Instr} {s t : State} (h : duringInstr i s = .next t) :
    AgentsOnly s t ∧ t.mem = s.mem ∧ t.race = s.race := by
  cases i with
  | rd r => cases h; exact ⟨rfl, rfl, rfl⟩
  | wrAddr v => cases h; exact ⟨rfl, rfl, rfl⟩
  | wrCount v => cases h; exact ⟨rfl, rfl, rfl⟩
  | wrRo r v =>
    simp only [duringInstr, execWrRo] at h
    split at h
    · cases h; exact ⟨rfl, rfl, rfl⟩
    · cases h
  | wrCmd c => cases h
  | reservedCmd c => cases h
  | updateRgbGpio => cases h
  | updateRgbSpi => cases h
  | updateChannelsGpio => cases h
  | updateChannelsSpi => cases h

theorem duringInstr_not_fault {i : Instr} {s : State} {r : Fault} : duringInstr i s ≠ .fault r := by
  cases i <;> simp [duringInstr, execRd, execWrAddr, execWrCount, execWrRo]
  split <;> simp

theorem admitsWrite_lt {s : State} {a : Nat} (h : admitsWrite s a = true) : a < addressSpace := by
  simp only [admitsWrite, Bool.and_eq_true, decide_eq_true_eq] at h
  exact h.1.1

theorem admitsRead_of_admitsWrite {s : State} {a : Nat} (h : admitsWrite s a = true) : admitsRead s a = true := by
  simp only [admitsWrite, admitsRead, Bool.and_eq_true, List.any_eq_true] at *
  obtain ⟨h1, r, hr, hc⟩ := h
  exact ⟨h1, r, hr, hc.1⟩

/-- Another agent's store while a command runs, all of it. -/
theorem agentStored_spec {s : State} {a : Nat} (v : Byte) (ha : a < addressSpace) :
    AgentsOnly s (agentStored s a v) ∧ (MemOk s → MemOk (agentStored s a v)) ∧
      (agentStored s a v).mem = memPut s.mem a v := by
  unfold agentStored
  split
  · refine ⟨rfl, fun h => ⟨memWf_memPut h.1 ha, fun b hb => ?_⟩, rfl⟩
    simp only [storeRaced_race, List.mem_insert_iff] at hb
    rcases hb with rfl | hb
    · exact ha
    · exact h.2 b hb
  · exact ⟨rfl, fun h => ⟨memWf_memPut h.1 ha, h.2⟩, rfl⟩

/-- Another agent's load while a command runs changes what it got back, and the draws. -/
theorem agentLoaded_spec (s : State) (a : Nat) :
    AgentsOnly s (agentLoaded s a) ∧ (agentLoaded s a).mem = s.mem ∧ (agentLoaded s a).race = s.race := by
  unfold agentLoaded
  split <;> exact ⟨rfl, rfl, rfl⟩

theorem duringOp_next {op : AgentOp} {s t : State} (h : duringOp op s = .next t) :
    AgentsOnly s t ∧ (MemOk s → MemOk t) := by
  cases op with
  | present code =>
    simp only [duringOp] at h
    split at h
    · obtain ⟨h1, h2, h3⟩ := duringInstr_next h
      exact ⟨h1, fun hm => hm.congr h2 (by rw [h3])⟩
    · cases h
  | memLoad a =>
    simp only [duringOp] at h
    split at h
    · obtain ⟨h1, h2, h3⟩ := agentLoaded_spec s a.toNat
      cases h
      exact ⟨h1, fun hm => hm.congr h2 (by rw [h3])⟩
    · cases h
  | memStore a v =>
    simp only [duringOp] at h
    split at h
    · next ha =>
      obtain ⟨h1, h2, -⟩ := agentStored_spec v (admitsWrite_lt ha)
      cases h
      exact ⟨h1, h2⟩
    · cases h
  | remap rs => cases h; exact ⟨rfl, fun hm => hm⟩

theorem duringOp_not_fault {op : AgentOp} {s : State} {r : Fault} : duringOp op s ≠ .fault r := by
  cases op with
  | present code =>
    simp only [duringOp]
    split
    · exact duringInstr_not_fault
    · simp
  | memLoad a => simp only [duringOp]; split <;> simp
  | memStore a v => simp only [duringOp]; split <;> simp
  | remap rs => simp [duringOp]

theorem runDue_next {ops : List Timed} {s t : State} (h : runDue ops s = .next t) :
    AgentsOnly s t ∧ (MemOk s → MemOk t) := by
  induction ops generalizing s with
  | nil => cases h; exact ⟨rfl, id⟩
  | cons o rest ih =>
    obtain ⟨d, op⟩ := o
    cases d with
    | zero =>
      obtain ⟨s1, h1, h2⟩ := andThen_eq_next h
      have := duringOp_next h1
      have := ih h2
      exact ⟨AgentsOnly.trans (by tauto) (by tauto), by tauto⟩
    | succ d => cases h; exact ⟨rfl, id⟩

theorem runDue_not_fault {ops : List Timed} {s : State} {r : Fault} : runDue ops s ≠ .fault r := by
  induction ops generalizing s with
  | nil => simp [runDue]
  | cons o rest ih =>
    obtain ⟨d, op⟩ := o
    cases d with
    | zero =>
      intro h
      rcases andThen_eq_fault h with h | ⟨x, _, h⟩
      · exact duringOp_not_fault h
      · exact ih h
    | succ d => simp [runDue]

/-- All a micro-step's other agents can do. -/
theorem tick_next {s t : State} (h : tick s = .next t) :
    AgentsOnly s t ∧ (MemOk s → MemOk t) := runDue_next h

theorem tick_not_fault {s : State} {r : Fault} : tick s ≠ .fault r := runDue_not_fault

/-- With no other agent nothing happens before a micro-step. -/
theorem tick_alone {s : State} (h : s.others = []) : tick s = .next s := by
  unfold tick
  rw [h]
  simp only [runDue]
  congr 1
  cases s
  simp_all

/-! ### Micro-steps, inverted -/

theorem enterState_next {st : EngineState} {s t : State} (h : enterState st s = .next t) :
    ∃ s1, tick s = .next s1 ∧ t = setState st s1 := by
  obtain ⟨s1, h1, h2⟩ := andThen_eq_next h
  cases h2
  exact ⟨s1, h1, rfl⟩

theorem complete_next {r : ResultCode} {d : Word} {s t : State} (h : complete r d s = .next t) :
    ∃ s1, tick s = .next s1 ∧ t = finish r d s1 := by
  obtain ⟨s1, h1, h2⟩ := andThen_eq_next h
  cases h2
  exact ⟨s1, h1, rfl⟩

theorem memRead_next {a : Nat} {s : State} {x : Byte × State} (h : memRead a s = .next x) :
    ∃ s1, tick s = .next s1 ∧ admitsRead s1 a = true ∧ x = (readValue s1 a, afterRead s1 a (readValue s1 a)) := by
  obtain ⟨s1, h1, h2⟩ := andThen_eq_next h
  split at h2
  · next ha => cases h2; exact ⟨s1, h1, ha, rfl⟩
  · cases h2

theorem memRead_fault {a : Nat} {s : State} {r : Fault} (h : memRead a s = .fault r) :
    ∃ s1, tick s = .next s1 ∧ admitsRead s1 a = false ∧ r = .stuckRead a (settle s1) := by
  rcases andThen_eq_fault h with h | ⟨s1, h1, h2⟩
  · exact absurd h tick_not_fault
  · split at h2
    · cases h2
    · next ha => cases h2; exact ⟨s1, h1, by simpa using ha, rfl⟩

theorem memWrite_next {a : Nat} {v : Byte} {s t : State} (h : memWrite a v s = .next t) :
    ∃ s1, tick s = .next s1 ∧ admitsWrite s1 a = true ∧ t = emit (.memW a v) (storeNoted s1 a v) := by
  obtain ⟨s1, h1, h2⟩ := andThen_eq_next h
  split at h2
  · next ha => cases h2; exact ⟨s1, h1, ha, rfl⟩
  · cases h2

theorem memWrite_fault {a : Nat} {v : Byte} {s : State} {r : Fault} (h : memWrite a v s = .fault r) :
    ∃ s1, tick s = .next s1 ∧ admitsWrite s1 a = false ∧ r = .stuckWrite a (settle s1) := by
  rcases andThen_eq_fault h with h | ⟨s1, h1, h2⟩
  · exact absurd h tick_not_fault
  · split at h2
    · cases h2
    · next ha => cases h2; exact ⟨s1, h1, by simpa using ha, rfl⟩

/-- An oracle call's answer depends on the replies laid down and the calls made, which other agents cannot change. -/
theorem replyAt_agents {s t : State} (h : AgentsOnly s t) (k : Nat) : replyAt t k = replyAt s k := by
  have hf := h.fields
  simp only [replyAt, hf]

@[simp] theorem replyAt_tookReply (s : State) (k : Nat) : replyAt (tookReply s) k = replyAt s (k + 1) := by
  simp only [replyAt, tookReply_replies, tookReply_asked, List.getElem?_drop, Nat.add_assoc, Nat.add_comm 1 k]

/-- `replyAt` reads only the replies and the number of calls made. -/
theorem replyAt_congr {s t : State} (hr : t.replies = s.replies) (ha : t.asked = s.asked) (k : Nat) :
    replyAt t k = replyAt s k := by
  simp only [replyAt, hr, ha]

theorem busWrite_next {kind : BusKind} {bytes : List Byte} {s : State} {x : Answer × State}
    (h : busWrite kind bytes s = .next x) :
    ∃ s1, tick s = .next s1 ∧
      x = (answerOfWord (replyAt s 0).error,
        emit (.bus kind bytes (answerOfWord (replyAt s 0).error) (sentPart bytes (replyAt s 0))) (tookReply s1)) := by
  obtain ⟨s1, h1, h2⟩ := andThen_eq_next h
  cases h2
  exact ⟨s1, h1, by rw [replyAt_agents (tick_next h1).1]⟩

theorem busWrite_not_fault {kind : BusKind} {bytes : List Byte} {s : State} {r : Fault} :
    busWrite kind bytes s ≠ .fault r := by
  intro h
  rcases andThen_eq_fault h with h | ⟨s1, _, h2⟩
  · exact tick_not_fault h
  · cases h2

theorem clockRequest_next {s : State} {x : Answer × State} (h : clockRequest s = .next x) :
    ∃ s1, tick s = .next s1 ∧
      x = (answerOfWord (replyAt s 0).error, emit (.clkReq (answerOfWord (replyAt s 0).error)) (tookReply s1)) := by
  obtain ⟨s1, h1, h2⟩ := andThen_eq_next h
  cases h2
  exact ⟨s1, h1, by rw [replyAt_agents (tick_next h1).1]⟩

theorem clockRequest_not_fault {s : State} {r : Fault} : clockRequest s ≠ .fault r := by
  intro h
  rcases andThen_eq_fault h with h | ⟨s1, _, h2⟩
  · exact tick_not_fault h
  · cases h2

theorem clockRelease_next {s : State} {x : Answer × State} (h : clockRelease s = .next x) :
    ∃ s1, tick s = .next s1 ∧
      x = (answerOfWord (replyAt s 0).error, emit (.clkRel (answerOfWord (replyAt s 0).error)) (tookReply s1)) := by
  obtain ⟨s1, h1, h2⟩ := andThen_eq_next h
  cases h2
  exact ⟨s1, h1, by rw [replyAt_agents (tick_next h1).1]⟩

theorem clockRelease_not_fault {s : State} {r : Fault} : clockRelease s ≠ .fault r := by
  intro h
  rcases andThen_eq_fault h with h | ⟨s1, _, h2⟩
  · exact tick_not_fault h
  · cases h2

theorem answerOfWord_ne_fail_zero (e : Word) : answerOfWord e ≠ .fail 0 := by
  unfold answerOfWord
  split
  · simp
  · next h => exact fun hf => h (Answer.fail.inj hf)

theorem answerOfWord_eq_ok {e : Word} : answerOfWord e = .ok ↔ e = 0 := by
  unfold answerOfWord
  split <;> simp_all

theorem sentPart_isFirstPart (bytes : List Byte) (r : Reply) : sentPart bytes r <+: bytes := by
  unfold sentPart
  split
  · exact List.prefix_refl _
  · exact List.take_prefix _ _

/-! ### Micro-steps alone -/

theorem enterState_alone {st : EngineState} {s : State} (ho : s.others = []) : enterState st s = .next (setState st s) := by
  simp only [enterState, tick_alone ho, andThen_next]

theorem complete_alone {r : ResultCode} {d : Word} {s : State} (ho : s.others = []) :
    complete r d s = .next (finish r d s) := by
  simp only [complete, tick_alone ho, andThen_next]

/-- `finish` where nothing raced (R146). -/
theorem finish_of_not_raced {r : ResultCode} {d : Word} {s : State} (h : s.race.raced = []) :
    finish r d s = { s with
      status := { s.status with result := r, state := .idle, detail := d.truncate 16 }
      trace := s.trace ++ [.done r (d.truncate 16)]
      race := .empty } := by
  simp only [finish, settle_of_not_raced h, emit]

theorem readValue_of_not_raced {s : State} {a : Nat} (h : s.race.raced = []) : readValue s a = memGet s.mem a := by
  simp [readValue, h]

theorem afterRead_of_not_raced {s : State} {a : Nat} (v : Byte) (h : s.race.raced = []) :
    afterRead s a v = emit (.memR a v) s := by
  simp [afterRead, h]

/-- A read by a block that is alone on its memory. -/
theorem memRead_alone {a : Nat} {s : State} (ho : s.others = []) (hr : s.race.raced = []) (ha : admitsRead s a = true) :
    memRead a s = .next (memGet s.mem a, emit (.memR a (memGet s.mem a)) s) := by
  simp only [memRead, tick_alone ho, andThen_next, ha, if_true, readValue_of_not_raced hr, afterRead_of_not_raced _ hr]

/-- A write by a block that is alone on its memory. -/
theorem memWrite_alone {a : Nat} {v : Byte} {s : State} (ho : s.others = []) (ha : admitsWrite s a = true) :
    memWrite a v s = .next (emit (.memW a v) (storeNoted s a v)) := by
  simp only [memWrite, tick_alone ho, andThen_next, ha, if_true]

theorem busWrite_alone {kind : BusKind} {bytes : List Byte} {s : State} (ho : s.others = []) :
    busWrite kind bytes s = .next (answerOfWord (replyAt s 0).error,
      emit (.bus kind bytes (answerOfWord (replyAt s 0).error) (sentPart bytes (replyAt s 0))) (tookReply s)) := by
  simp only [busWrite, tick_alone ho, andThen_next]

theorem clockRequest_alone {s : State} (ho : s.others = []) :
    clockRequest s = .next (answerOfWord (replyAt s 0).error,
      emit (.clkReq (answerOfWord (replyAt s 0).error)) (tookReply s)) := by
  simp only [clockRequest, tick_alone ho, andThen_next]

theorem clockRelease_alone {s : State} (ho : s.others = []) :
    clockRelease s = .next (answerOfWord (replyAt s 0).error,
      emit (.clkRel (answerOfWord (replyAt s 0).error)) (tookReply s)) := by
  simp only [clockRelease, tick_alone ho, andThen_next]

/-- The admission reads only CFG and the regions. -/
theorem admitsRead_congr {s t : State} (hc : t.cfg = s.cfg) (hr : t.regions = s.regions) (a : Nat) :
    admitsRead t a = admitsRead s a := by simp only [admitsRead, hc, hr]

theorem admitsWrite_congr {s t : State} (hc : t.cfg = s.cfg) (hr : t.regions = s.regions) (a : Nat) :
    admitsWrite t a = admitsWrite s a := by simp only [admitsWrite, hc, hr]

/-! ### Acceptance -/

/-- Acceptance, all of it: what answers a next state or a fault was accepted (R144). -/
theorem accept_accepted {t : Transport} {len : Nat → Nat} {s : State} {run : Nat → Nat → State → Out State}
    (h : ∀ r, accept t len s run ≠ .refused r) :
    s.cfg.transport = t ∧ s.status.ready = true ∧ s.status.state = .idle ∧
      operandA s + len (operandN s) ≤ addressSpace ∧
      accept t len s run =
        run (operandA s) (operandN s) { s with race := .over (operandA s) (len (operandN s)) } := by
  unfold accept at *
  split at h
  · exact absurd rfl (h _)
  · split at h
    · exact absurd rfl (h _)
    · split at h
      · exact absurd rfl (h _)
      · split at h
        · exact absurd rfl (h _)
        · next h1 h2 h3 h4 =>
          simp only [not_not] at h1 h3
          refine ⟨h1, by simpa using h2, h3, by omega, ?_⟩
          simp [h1, h2, h3, h4]

/-- An accepted command runs on its latched operands (R144). -/
theorem accept_of_takes {t : Transport} {len : Nat → Nat} {s : State} {run : Nat → Nat → State → Out State}
    (ht : s.cfg.transport = t) (hr : s.status.ready = true) (hi : s.status.state = .idle)
    (hl : operandA s + len (operandN s) ≤ addressSpace) :
    accept t len s run = run (operandA s) (operandN s) { s with race := .over (operandA s) (len (operandN s)) } := by
  simp [accept, ht, hr, hi, Nat.not_lt.mpr hl]

end Sys2Proof.Machine
end

