-- ==== Sys2Proof/Laws/Pixel.lean ====
section
/-! SUPPORT. The pixel model: what a well-formed ORDER gives, and the wire record and frame group as lists. -/

namespace Sys2Proof.Machine

theorem stride_pos (c : Cfg) : 0 < stride c := by unfold stride; split <;> omega

theorem cfgWf_iff {c : Cfg} : cfgWf c = true ↔
    wfOrder c = true ∧ wfRecord c = true ∧ wfTiming c = true ∧ wfSpi c = true ∧ wfBase c = true := by
  simp only [cfgWf, Bool.and_eq_true, and_assoc]

theorem order_nodup {c : Cfg} (h : cfgWf c = true) : ((channels c).map (order c)).Nodup := by
  have := (cfgWf_iff.mp h).1
  simp only [wfOrder, Bool.and_eq_true, decide_eq_true_eq] at this
  exact this.1

theorem order_lt {c : Cfg} (h : cfgWf c = true) {ch : Channel} (hc : ch ∈ channels c) : order c ch < stride c := by
  have := (cfgWf_iff.mp h).1
  simp only [wfOrder, Bool.and_eq_true, List.all_eq_true, decide_eq_true_eq] at this
  exact this.2 ch hc

theorem stride_le_record {c : Cfg} (h : cfgWf c = true) (hg : c.transport = .gpio) : stride c ≤ c.recordBytes := by
  have := (cfgWf_iff.mp h).2.1
  simp only [wfRecord, Bool.and_eq_true, Bool.or_eq_true, beq_iff_eq, decide_eq_true_eq, hg] at this
  rcases this.2 with h | h
  · cases h
  · exact h

theorem three_le_record {c : Cfg} (h : cfgWf c = true) : 3 ≤ c.recordBytes := by
  have := (cfgWf_iff.mp h).2.1
  simp only [wfRecord, Bool.and_eq_true, Bool.or_eq_true, beq_iff_eq] at this
  omega

theorem timing_wf {c : Cfg} (h : cfgWf c = true) (hg : c.transport = .gpio) :
    1 ≤ c.t0h.toNat ∧ c.t0h.toNat < c.t1h.toNat ∧ c.t1h.toNat < c.tper.toNat := by
  have := (cfgWf_iff.mp h).2.2.1
  simp only [wfTiming, Bool.or_eq_true, Bool.and_eq_true, beq_iff_eq, decide_eq_true_eq, hg] at this
  rcases this with h | h
  · cases h
  · exact ⟨h.1.1.1, h.1.1.2, h.1.2⟩

theorem channels_length (c : Cfg) : (channels c).length = stride c := by
  unfold channels stride; split <;> rfl

/-- ORDER reaches every position below STRIDE. -/
theorem order_surjective {c : Cfg} (h : cfgWf c = true) {p : Nat} (hp : p < stride c) :
    ∃ ch ∈ channels c, order c ch = p := by
  have hsub : ((channels c).map (order c)).toFinset ⊆ Finset.range (stride c) := by
    intro x hx
    simp only [List.mem_toFinset, List.mem_map] at hx
    obtain ⟨ch, hc, rfl⟩ := hx
    exact Finset.mem_range.mpr (order_lt h hc)
  have hcard : (Finset.range (stride c)).card ≤ ((channels c).map (order c)).toFinset.card := by
    rw [List.toFinset_card_of_nodup (order_nodup h)]
    simp [channels_length]
  have := Finset.eq_of_subset_of_card_le hsub hcard
  have hp' : p ∈ ((channels c).map (order c)).toFinset := by rw [this]; exact Finset.mem_range.mpr hp
  simpa using hp'

theorem foldl_set_length (c : Cfg) (p : Pixel) (chs : List Channel) (out : List Byte) :
    (chs.foldl (fun out ch => out.set (order c ch) (channelValue p ch)) out).length = out.length := by
  induction chs generalizing out with
  | nil => rfl
  | cons ch rest ih => simp [ih]

/-- A wire record has STRIDE bytes, whatever the order. -/
@[simp] theorem wireOf_length (c : Cfg) (p : Pixel) : (wireOf c p).length = stride c := by
  simp [wireOf, foldl_set_length]

theorem foldl_set_other (c : Cfg) (p : Pixel) (chs : List Channel) (out : List Byte) (k : Nat)
    (h : k ∉ chs.map (order c)) :
    (chs.foldl (fun out ch => out.set (order c ch) (channelValue p ch)) out)[k]? = out[k]? := by
  induction chs generalizing out with
  | nil => rfl
  | cons ch rest ih =>
    simp only [List.map_cons, List.mem_cons, not_or] at h
    simp only [List.foldl_cons]
    rw [ih _ h.2, List.getElem?_set_ne (Ne.symm h.1)]

theorem foldl_set_get (c : Cfg) (p : Pixel) (chs : List Channel) (out : List Byte) (ch : Channel)
    (hn : (chs.map (order c)).Nodup) (hm : ch ∈ chs) (hl : order c ch < out.length) :
    (chs.foldl (fun out ch => out.set (order c ch) (channelValue p ch)) out)[order c ch]? =
      some (channelValue p ch) := by
  induction chs generalizing out with
  | nil => cases hm
  | cons d rest ih =>
    simp only [List.map_cons, List.nodup_cons] at hn
    simp only [List.foldl_cons]
    rcases List.mem_cons.mp hm with rfl | hm
    · rw [foldl_set_other c p rest _ _ hn.1]
      simp [hl]
    · exact ih _ hn.2 hm (by simpa using hl)

/-- Position ORDER[c] of a wire record holds channel c (R82). -/
theorem wireOf_get {c : Cfg} (h : cfgWf c = true) (p : Pixel) {ch : Channel} (hc : ch ∈ channels c) :
    (wireOf c p)[order c ch]? = some (channelValue p ch) :=
  foldl_set_get c p (channels c) _ ch (order_nodup h) hc (by simpa using order_lt h hc)

theorem wireOf_getD {c : Cfg} (h : cfgWf c = true) (p : Pixel) {ch : Channel} (hc : ch ∈ channels c) :
    (wireOf c p).getD (order c ch) 0 = channelValue p ch := by
  simp [List.getD_eq_getElem?_getD, wireOf_get h p hc]

/-- Block `i` of a concatenation of equally long lists. -/
theorem flatMap_range_get {α : Type} (f : Nat → List α) (L : Nat) (hf : ∀ i, (f i).length = L) (n i p : Nat) (hi : i < n)
    (hp : p < L) : ((List.range n).flatMap f)[L * i + p]? = (f i)[p]? := by
  induction n with
  | zero => omega
  | succ n ih =>
    have hlen : ((List.range n).flatMap f).length = L * n := by
      simp [List.length_flatMap, hf, Nat.mul_comm]
    rw [List.range_succ, List.flatMap_append]
    simp only [List.flatMap_cons, List.flatMap_nil, List.append_nil]
    rcases Nat.lt_or_ge i n with hlt | hge
    · have : L * i + p < L * n := by
        have := Nat.mul_le_mul_left L (Nat.succ_le_of_lt hlt)
        rw [Nat.mul_succ] at this
        omega
      rw [List.getElem?_append_left (by omega), ih hlt]
    · have hin : i = n := by omega
      subst hin
      rw [List.getElem?_append_right (by omega), hlen]
      congr 1
      omega

theorem flatMap_range_length {α : Type} (f : Nat → List α) (L : Nat) (hf : ∀ i, (f i).length = L) (n : Nat) :
    ((List.range n).flatMap f).length = L * n := by
  simp [List.length_flatMap, hf, Nat.mul_comm]

@[simp] theorem wireStream_length (c : Cfg) (m : List Host.Cell) (a n : Nat) :
    (wireStream c m a n).length = stride c * n :=
  flatMap_range_length _ _ (fun _ => wireOf_length c _) n

theorem wireStream_get (c : Cfg) (m : List Host.Cell) (a n i p : Nat) (hi : i < n) (hp : p < stride c) :
    (wireStream c m a n)[stride c * i + p]? = (wireOf c (pixelAt c m a i))[p]? :=
  flatMap_range_get _ _ (fun _ => wireOf_length c _) n i p hi hp

@[simp] theorem ser_length (c : Cfg) (v : Byte) : (ser c v).length = 8 := by simp [ser]

@[simp] theorem serAll_length (c : Cfg) (ws : List Byte) : (serAll c ws).length = 8 * ws.length := by
  simp [serAll, List.length_flatMap, Nat.mul_comm]

theorem serAll_append (c : Cfg) (u v : List Byte) : serAll c (u ++ v) = serAll c u ++ serAll c v := by
  simp [serAll, List.flatMap_append]

theorem wireStream_succ (c : Cfg) (m : List Host.Cell) (a n : Nat) :
    wireStream c m a (n + 1) = wireStream c m a n ++ wireOf c (pixelAt c m a n) := by
  simp [wireStream, List.range_succ, List.flatMap_append]

end Sys2Proof.Machine
end

