-- ==== Sys2Proof/Laws/Layout.lean ====
section
/-! SUPPORT. LAYOUT_INPLACE alone on its memory: what one pixel's reads and writes answer, and the memory a run of pixels
leaves. -/

namespace Sys2Proof.Machine

/-- Memory after the writes of channels `chs` of pixel `i`, whose pixel is `p`. -/
def pixelWrites (c : Cfg) (a i : Nat) (p : Pixel) (chs : List Channel) (m : List Host.Cell) : List Host.Cell :=
  chs.foldl (fun m ch => memPut m (wireAddr c a i ch) (channelValue p ch)) m

/-- Memory after pixels `i`, …, `i + k − 1` were laid out, one after the other. -/
def layoutMem (c : Cfg) (a : Nat) : Nat → Nat → List Host.Cell → List Host.Cell
  | _, 0, m => m
  | i, k + 1, m => layoutMem c a (i + 1) k (pixelWrites c a i (pixelAt c m a i) (channels c) m)

/-- The events of those pixels, each on the memory as it then stood. -/
def layoutEventsFrom (c : Cfg) (a : Nat) : Nat → Nat → List Host.Cell → List Event
  | _, 0, _ => []
  | i, k + 1, m => recordReads c m a i ++ recordWrites c m a i ++
      layoutEventsFrom c a (i + 1) k (pixelWrites c a i (pixelAt c m a i) (channels c) m)

/-- Reading a record alone: three reads, in order (R69, R84). -/
theorem readPixel_alone {a i : Nat} {s : State} (ho : s.others = []) (hr : s.race.raced = [])
    (ha : ∀ k, k < 3 → admitsRead s (recordAddr s.cfg a i k) = true) :
    readPixel a i s = .next (((pixelAt s.cfg s.mem a i).r, (pixelAt s.cfg s.mem a i).g, (pixelAt s.cfg s.mem a i).b),
      { s with trace := s.trace ++ recordReads s.cfg s.mem a i }) := by
  have h0 := ha 0 (by omega)
  have h1 := ha 1 (by omega)
  have h2 := ha 2 (by omega)
  unfold readPixel
  rw [memRead_alone ho hr h0]
  simp only [andThen_next]
  rw [memRead_alone (by simpa using ho) (by simpa using hr) (by rw [← h1]; exact admitsRead_congr rfl rfl _)]
  simp only [andThen_next]
  rw [memRead_alone (by simpa using ho) (by simpa using hr) (by rw [← h2]; exact admitsRead_congr rfl rfl _)]
  simp [recordReads, pixelAt, emit]

/-- Writing channels of a pixel alone (R84): the state changes in memory, TRACE and the noted bytes only. -/
theorem layoutWrites_alone {a i : Nat} {w : List Byte} {p : Pixel} {chs : List Channel} {s : State} (ho : s.others = [])
    (hw : ∀ ch ∈ chs, w.getD (order s.cfg ch) 0 = channelValue p ch)
    (ha : ∀ ch ∈ chs, admitsWrite s (wireAddr s.cfg a i ch) = true) :
    ∃ held, layoutWrites a i w chs s = .next { s with
      mem := pixelWrites s.cfg a i p chs s.mem
      trace := s.trace ++ chs.map fun ch => .memW (wireAddr s.cfg a i ch) (channelValue p ch)
      race := { s.race with held := held } } := by
  induction chs generalizing s with
  | nil => exact ⟨s.race.held, by simp [layoutWrites, pixelWrites]⟩
  | cons ch rest ih =>
    have hc := hw ch (by simp)
    simp only [layoutWrites]
    rw [memWrite_alone ho (ha ch (by simp)), andThen_next, hc]
    obtain ⟨held, hh⟩ := ih (s := emit (.memW (wireAddr s.cfg a i ch) (channelValue p ch))
        (storeNoted s (wireAddr s.cfg a i ch) (channelValue p ch))) (by simpa using ho)
      (fun d hd => hw d (by simp [hd])) (fun d hd => by rw [← ha d (by simp [hd])]; exact admitsWrite_congr rfl rfl _)
    refine ⟨held, ?_⟩
    rw [hh]
    simp [pixelWrites, emit, storeNoted]

/-- One pixel of the layout alone (R84). -/
theorem layoutPixel_alone {a i : Nat} {s : State} (hwf : cfgWf s.cfg = true) (ho : s.others = [])
    (hr : s.race.raced = []) (ha : ∀ k, k < 3 → admitsRead s (recordAddr s.cfg a i k) = true)
    (hb : ∀ k, k < stride s.cfg → admitsWrite s (a + stride s.cfg * i + k) = true) :
    ∃ held, layoutPixel a i s = .next { s with
      mem := pixelWrites s.cfg a i (pixelAt s.cfg s.mem a i) (channels s.cfg) s.mem
      trace := s.trace ++ (recordReads s.cfg s.mem a i ++ recordWrites s.cfg s.mem a i)
      race := { s.race with held := held } } := by
  unfold layoutPixel
  rw [readPixel_alone ho hr ha, andThen_next]
  obtain ⟨held, hh⟩ := layoutWrites_alone (a := a) (i := i) (p := pixelAt s.cfg s.mem a i)
    (w := wireOf s.cfg (pixelAt s.cfg s.mem a i)) (chs := channels s.cfg)
    (s := { s with trace := s.trace ++ recordReads s.cfg s.mem a i }) ho
    (fun ch hc => wireOf_getD hwf _ hc)
    (fun ch hc => by
      rw [← hb (order s.cfg ch) (order_lt hwf hc)]
      exact admitsWrite_congr rfl rfl _)
  exact ⟨held, by rw [hh]; simp [recordWrites]⟩

/-- A run of pixels of the layout alone (R84). -/
theorem layoutFrom_alone {a k : Nat} : ∀ {i : Nat} {s : State}, cfgWf s.cfg = true → s.others = [] → s.race.raced = [] →
    (∀ j, i ≤ j → j < i + k → ∀ b, b < 3 → admitsRead s (recordAddr s.cfg a j b) = true) →
    (∀ j, i ≤ j → j < i + k → ∀ b, b < stride s.cfg → admitsWrite s (a + stride s.cfg * j + b) = true) →
    ∃ held, layoutFrom a i k s = .next { s with
      mem := layoutMem s.cfg a i k s.mem
      trace := s.trace ++ layoutEventsFrom s.cfg a i k s.mem
      race := { s.race with held := held } } := by
  induction k with
  | zero => intro i s _ _ _ _ _; exact ⟨s.race.held, by simp [layoutFrom, layoutMem, layoutEventsFrom]⟩
  | succ k ih =>
    intro i s hwf ho hr ha hb
    obtain ⟨held, h1⟩ := layoutPixel_alone hwf ho hr (ha i (by omega) (by omega)) (hb i (by omega) (by omega))
    simp only [layoutFrom]
    rw [h1, andThen_next]
    obtain ⟨held', h2⟩ := ih (i := i + 1) (s := { s with
        mem := pixelWrites s.cfg a i (pixelAt s.cfg s.mem a i) (channels s.cfg) s.mem
        trace := s.trace ++ (recordReads s.cfg s.mem a i ++ recordWrites s.cfg s.mem a i)
        race := { s.race with held := held } }) hwf ho hr
      (fun j h h' b hb' => by rw [← ha j (by omega) (by omega) b hb']; exact admitsRead_congr rfl rfl _)
      (fun j h h' b hb' => by rw [← hb j (by omega) (by omega) b hb']; exact admitsWrite_congr rfl rfl _)
    refine ⟨held', ?_⟩
    rw [h2]
    simp [layoutMem, layoutEventsFrom]

/-! ### The memory a layout leaves -/

theorem pixelWrites_other (c : Cfg) (a i : Nat) (p : Pixel) (chs : List Channel) (m : List Host.Cell) (x : Nat)
    (h : ∀ ch ∈ chs, x ≠ wireAddr c a i ch) : memGet (pixelWrites c a i p chs m) x = memGet m x := by
  induction chs generalizing m with
  | nil => rfl
  | cons ch rest ih =>
    simp only [pixelWrites, List.foldl_cons]
    rw [← pixelWrites, ih _ (fun d hd => h d (by simp [hd])), memGet_memPut_ne _ _ (h ch (by simp))]

theorem memWf_pixelWrites (c : Cfg) (a i : Nat) (p : Pixel) (chs : List Channel) {m : List Host.Cell} (hm : memWf m = true)
    (h : ∀ ch ∈ chs, wireAddr c a i ch < addressSpace) : memWf (pixelWrites c a i p chs m) = true := by
  induction chs generalizing m with
  | nil => exact hm
  | cons ch rest ih =>
    simp only [pixelWrites, List.foldl_cons]
    exact ih (memWf_memPut hm (h ch (by simp))) (fun d hd => h d (by simp [hd]))

theorem pixelWrites_get (c : Cfg) (a i : Nat) (p : Pixel) (chs : List Channel) {m : List Host.Cell} (hm : memWf m = true)
    (h : ∀ ch ∈ chs, wireAddr c a i ch < addressSpace) (hn : (chs.map (order c)).Nodup) {ch : Channel} (hc : ch ∈ chs) :
    memGet (pixelWrites c a i p chs m) (wireAddr c a i ch) = channelValue p ch := by
  induction chs generalizing m with
  | nil => cases hc
  | cons d rest ih =>
    simp only [List.map_cons, List.nodup_cons] at hn
    simp only [pixelWrites, List.foldl_cons]
    rw [← pixelWrites]
    rcases List.mem_cons.mp hc with rfl | hc
    · rw [pixelWrites_other, memGet_memPut hm]
      · simp
      · intro e he heq
        apply hn.1
        rw [List.mem_map]
        exact ⟨e, he, by simp only [wireAddr] at heq; omega⟩
    · exact ih (memWf_memPut hm (h d (by simp))) (fun e he => h e (by simp [he])) hn.2 hc

/-- What pixel `i`'s writes leave: its wire record at STRIDE·i, every other byte as it was. -/
theorem pixelWrites_all {c : Cfg} (hwf : cfgWf c = true) (a i : Nat) (p : Pixel) {m : List Host.Cell} (hm : memWf m = true)
    (hlt : a + stride c * (i + 1) ≤ addressSpace) (x : Nat) :
    memGet (pixelWrites c a i p (channels c) m) x =
      if a + stride c * i ≤ x ∧ x < a + stride c * (i + 1) then (wireOf c p).getD (x - (a + stride c * i)) 0
      else memGet m x := by
  have hin : ∀ ch ∈ channels c, wireAddr c a i ch < addressSpace := by
    intro ch hc
    have := order_lt hwf hc
    simp only [wireAddr]
    rw [Nat.mul_succ] at hlt
    omega
  split
  · next hx =>
    rw [Nat.mul_succ] at hx
    obtain ⟨ch, hc, ho⟩ := order_surjective hwf (p := x - (a + stride c * i)) (by omega)
    have hxa : x = wireAddr c a i ch := by simp only [wireAddr]; omega
    rw [← ho, wireOf_getD hwf p hc, hxa]
    exact pixelWrites_get c a i p _ hm hin (order_nodup hwf) hc
  · next hx =>
    apply pixelWrites_other
    intro ch hc heq
    apply hx
    have := order_lt hwf hc
    simp only [wireAddr] at heq
    rw [Nat.mul_succ]
    omega

/-- A later record is untouched by the writes of pixel `i` (R85). -/
theorem pixelAt_after_pixel {c : Cfg} (hwf : cfgWf c = true) (hg : c.transport = .gpio) (a i j : Nat) (p : Pixel)
    (m : List Host.Cell) (hij : i < j) :
    pixelAt c (pixelWrites c a i p (channels c) m) a j = pixelAt c m a j := by
  have hs := stride_le_record hwf hg
  have key : ∀ k, memGet (pixelWrites c a i p (channels c) m) (recordAddr c a j k) = memGet m (recordAddr c a j k) := by
    intro k
    apply pixelWrites_other
    intro ch hc heq
    have ho := order_lt hwf hc
    simp only [recordAddr, wireAddr] at heq
    have h1 : stride c * (i + 1) ≤ stride c * j := Nat.mul_le_mul_left _ hij
    have h2 : stride c * j ≤ c.recordBytes * j := Nat.mul_le_mul_right _ hs
    rw [Nat.mul_succ] at h1
    omega
  simp [pixelAt, key]

theorem layoutMem_congr_pixel {c : Cfg} (hwf : cfgWf c = true) (hg : c.transport = .gpio) (a : Nat) :
    ∀ (k i : Nat) (m : List Host.Cell), layoutEventsFrom c a i k m =
      (List.range k).flatMap fun d => recordReads c m a (i + d) ++ recordWrites c m a (i + d) := by
  intro k
  induction k with
  | zero => intro i m; rfl
  | succ k ih =>
    intro i m
    have hp : ∀ d, pixelAt c (pixelWrites c a i (pixelAt c m a i) (channels c) m) a (i + 1 + d) = pixelAt c m a (i + (d + 1)) := by
      intro d
      rw [pixelAt_after_pixel hwf hg a i (i + 1 + d) _ m (by omega)]
      congr 1
      omega
    simp only [layoutEventsFrom, ih, List.range_succ_eq_map, List.flatMap_cons, List.flatMap_map, Nat.add_zero]
    congr 1
    congr 1
    funext d
    have he : i + 1 + d = i + (d + 1) := by omega
    simp only [recordReads, recordWrites, Nat.succ_eq_add_one]
    rw [hp d, he]

/-- In-place layout makes the reads and writes of R84 on the memory as it stood before (R85). -/
theorem layoutEventsFrom_eq {c : Cfg} (hwf : cfgWf c = true) (hg : c.transport = .gpio) (a n : Nat) (m : List Host.Cell) :
    layoutEventsFrom c a 0 n m = layoutEvents c m a n := by
  rw [layoutMem_congr_pixel hwf hg]
  simp [layoutEvents]

/-- What a run of pixels leaves: their wire records, every other byte as it was, in canonical form (R85). -/
theorem layoutMem_get {c : Cfg} (hwf : cfgWf c = true) (hg : c.transport = .gpio) (a : Nat) :
    ∀ (k i : Nat) (m : List Host.Cell), memWf m = true → a + stride c * (i + k) ≤ addressSpace →
      memWf (layoutMem c a i k m) = true ∧ ∀ x, memGet (layoutMem c a i k m) x =
        if a + stride c * i ≤ x ∧ x < a + stride c * (i + k) then
          (wireOf c (pixelAt c m a ((x - a) / stride c))).getD ((x - a) % stride c) 0
        else memGet m x := by
  intro k
  induction k with
  | zero =>
    intro i m hm _
    refine ⟨hm, fun x => ?_⟩
    simp only [layoutMem, Nat.add_zero]
    split
    · omega
    · rfl
  | succ k ih =>
    intro i m hm hlt
    have hS := stride_pos c
    have hstep : a + stride c * (i + 1) ≤ addressSpace := by
      have := Nat.mul_le_mul_left (stride c) (show i + 1 ≤ i + (k + 1) by omega)
      omega
    have hin : ∀ ch ∈ channels c, wireAddr c a i ch < addressSpace := by
      intro ch hc
      have := order_lt hwf hc
      simp only [wireAddr]
      rw [Nat.mul_succ] at hstep
      omega
    obtain ⟨hw, hx⟩ := ih (i + 1) (pixelWrites c a i (pixelAt c m a i) (channels c) m)
      (memWf_pixelWrites c a i _ _ hm hin) (by rw [show i + 1 + k = i + (k + 1) by omega]; exact hlt)
    refine ⟨hw, fun x => ?_⟩
    simp only [layoutMem]
    rw [hx x, show i + 1 + k = i + (k + 1) by omega]
    have hmul1 : stride c * (i + 1) = stride c * i + stride c := Nat.mul_succ _ _
    have hmono : stride c * (i + 1) ≤ stride c * (i + (k + 1)) := Nat.mul_le_mul_left _ (by omega)
    by_cases h1 : a + stride c * (i + 1) ≤ x ∧ x < a + stride c * (i + (k + 1))
    · rw [if_pos h1, if_pos (by omega)]
      have hj : i < (x - a) / stride c := by
        rw [Nat.lt_iff_add_one_le, Nat.le_div_iff_mul_le hS, Nat.mul_comm]
        omega
      rw [pixelAt_after_pixel hwf hg a i _ _ m hj]
    · rw [if_neg h1, pixelWrites_all hwf a i _ hm hstep]
      by_cases h2 : a + stride c * i ≤ x ∧ x < a + stride c * (i + 1)
      · rw [if_pos h2, if_pos (by omega)]
        have hd : (x - a) / stride c = i := by
          apply Nat.div_eq_of_lt_le
          · rw [Nat.mul_comm]; omega
          · rw [Nat.mul_comm]; omega
        have hmod : (x - a) % stride c = x - (a + stride c * i) := by
          have := Nat.div_add_mod (x - a) (stride c)
          rw [hd] at this
          omega
        rw [hd, hmod]
      · rw [if_neg h2, if_neg (by omega)]

/-- A byte of the wire stream is the byte of its pixel's wire record. -/
theorem wireStream_getD (c : Cfg) (m : List Host.Cell) (a n y : Nat) (h : y < stride c * n) :
    (wireStream c m a n).getD y 0 = (wireOf c (pixelAt c m a (y / stride c))).getD (y % stride c) 0 := by
  have hS := stride_pos c
  have hi : y / stride c < n := by rw [Nat.div_lt_iff_lt_mul hS, Nat.mul_comm]; exact h
  have := wireStream_get c m a n (y / stride c) (y % stride c) hi (Nat.mod_lt _ hS)
  rw [Nat.div_add_mod] at this
  simp only [List.getD_eq_getElem?_getD, this]

end Sys2Proof.Machine
end

