-- ==== Sys2Proof/Laws/Burst.lean ====
section
/-! SUPPORT. The burst alone: cycles within a slot, the step from slot to slot, and the closed form of the pin. -/

namespace Sys2Proof.Machine

/-! ### Slot arithmetic -/

/-- A slot ends where the next one starts (R95, R96). -/
theorem slotStart_succ (c : Cfg) {nb k : Nat} (hk : k + 1 < 8 * nb) :
    slotStart c (k + 1) = slotStart c k + slotLen c nb (k / 8) (7 - k % 8) := by
  unfold slotStart slotLen
  by_cases h : k % 8 = 7
  · have h1 : (k + 1) / 8 = k / 8 + 1 := by omega
    rw [if_pos ⟨by omega, by omega⟩, h1, Nat.succ_mul, Nat.succ_mul]
    omega
  · have h1 : (k + 1) / 8 = k / 8 := by omega
    rw [if_neg (by omega), h1, Nat.succ_mul]
    omega

/-- The last slot ends with the burst (R97). -/
theorem burstLength_last (c : Cfg) {nb : Nat} (hn : 0 < nb) :
    burstLength c nb = slotStart c (8 * nb - 1) + slotLen c nb ((8 * nb - 1) / 8) (7 - (8 * nb - 1) % 8) := by
  have h1 : (8 * nb - 1) / 8 = nb - 1 := by omega
  have h2 : (8 * nb - 1) % 8 = 7 := by omega
  unfold burstLength slotStart slotLen
  rw [h1, h2, if_neg (by omega), if_neg (by omega)]
  obtain ⟨m, rfl⟩ : ∃ m, nb = m + 1 := ⟨nb - 1, by omega⟩
  have : 8 * (m + 1) = (8 * (m + 1) - 1) + 1 := by omega
  rw [this, Nat.succ_mul]
  simp
  omega

theorem slotLen_ge (c : Cfg) (nb j i : Nat) : c.tper.toNat ≤ slotLen c nb j i := by unfold slotLen; omega

theorem slotStart_mono (c : Cfg) {k l : Nat} (h : k ≤ l) : slotStart c k ≤ slotStart c l := by
  unfold slotStart
  exact Nat.add_le_add (Nat.mul_le_mul_right _ h) (Nat.mul_le_mul_right _ (Nat.div_le_div_right h))

theorem slotStart_add_tper (c : Cfg) {k l : Nat} (h : k < l) : slotStart c k + c.tper.toNat ≤ slotStart c l := by
  have h1 : slotStart c (k + 1) ≤ slotStart c l := slotStart_mono c h
  have h2 : slotStart c k + c.tper.toNat ≤ slotStart c (k + 1) := by
    unfold slotStart
    have := Nat.mul_le_mul_right c.gap.toNat (Nat.div_le_div_right (c := 8) (show k ≤ k + 1 by omega))
    rw [Nat.succ_mul]
    omega
  omega

theorem highTime_le {c : Cfg} (hwf : cfgWf c = true) (hg : c.transport = .gpio) (b : Bool) :
    1 ≤ highTime c b ∧ highTime c b < c.tper.toNat := by
  have := timing_wf hwf hg
  unfold highTime
  cases b <;> simp <;> omega

/-- In slot `k`, `x` cycles after its start, the closed form is high exactly for the high time of its bit (R100, R103). -/
theorem pinAt_slot {c : Cfg} (hwf : cfgWf c = true) (hg : c.transport = .gpio) (ws : List Byte) {k x : Nat}
    (hk : k < 8 * ws.length) (hx : k + 1 < 8 * ws.length → slotStart c k + x < slotStart c (k + 1)) :
    pinAt c ws (slotStart c k + x) = if x < highTime c (slotBit ws k) then .high else .low := by
  unfold pinAt pinHighAt
  congr 1
  simp only [List.any_eq_true, List.mem_range, Bool.and_eq_true, decide_eq_true_eq, eq_iff_iff]
  constructor
  · rintro ⟨l, hl, h1, h2⟩
    have hlt := (highTime_le hwf hg (slotBit ws l)).2
    rcases Nat.lt_trichotomy l k with h | h | h
    · have := slotStart_add_tper c h
      omega
    · subst h; omega
    · have := slotStart_mono c (show k + 1 ≤ l by omega)
      have := hx (by omega)
      omega
  · intro h
    exact ⟨k, hk, by omega, by omega⟩

/-! ### Cycles -/

theorem burstRun_add (a m n : Nat) (s : State) : burstRun a (m + n) s = andThen (burstRun a m s) (burstRun a n) := by
  have hstop : ∀ (n : Nat) (t : State), t.g.phase ≠ .burst → burstRun a n t = .next t := by
    intro n t ht
    cases n with
    | zero => rfl
    | succ n => simp [burstRun, ht]
  induction m generalizing s with
  | zero => simp [burstRun]
  | succ m ih =>
    rw [show m + 1 + n = (m + n) + 1 by omega]
    simp only [burstRun]
    split
    · rw [andThen_assoc]
      congr 1
      funext t
      exact ih t
    · next hp => rw [andThen_next, hstop n s hp]

theorem burstCycle_alone {a : Nat} {s : State} (ho : s.others = []) : burstCycle a s = burstAdvance a (burstLevel s) := by
  simp only [burstCycle, tick_alone ho, andThen_next]

/-- The state `x` cycles into a slot that started in state `s`. -/
def inSlot (s : State) (x : Nat) : State :=
  if x = 0 then s else
    { s with
      pin := if x - 1 < highTime s.cfg (s.g.b.getLsbD s.g.i) then .high else .low
      cycle := s.cycle + x
      g := { s.g with h := highTime s.cfg (s.g.b.getLsbD s.g.i), c := x } }

/-- The level part of the cycle that follows `x` cycles of a slot. -/
theorem burstLevel_inSlot {s : State} (hc : s.g.c = 0) (x : Nat) : burstLevel (inSlot s x) = inSlot s (x + 1) := by
  unfold inSlot burstLevel
  rcases Nat.eq_zero_or_pos x with hx | hx
  · subst hx; simp [hc]
  · have : x ≠ 0 := by omega
    simp [this, Nat.add_assoc]

/-- Cycles inside a slot, before its last one, alone (R99). -/
theorem burstRun_inSlot {a : Nat} {s : State} (hc : s.g.c = 0) (hp : s.g.phase = .burst) (ho : s.others = []) :
    ∀ x, x < slotLen s.cfg s.g.nb s.g.j s.g.i → burstRun a x s = .next (inSlot s x) := by
  intro x
  induction x with
  | zero => intro _; rfl
  | succ x ih =>
    intro hx
    rw [burstRun_add, ih (by omega), andThen_next]
    have hph : (inSlot s x).g.phase = .burst := by unfold inSlot; split <;> simp [hp]
    have hot : (inSlot s x).others = [] := by unfold inSlot; split <;> simp [ho]
    simp only [burstRun, hph, if_true]
    rw [burstCycle_alone hot, burstLevel_inSlot hc]
    unfold burstAdvance
    rw [if_neg]
    · rfl
    · simp [inSlot]
      omega

/-- A whole slot alone, up to its last cycle's end-of-slot part (R99). -/
theorem burstRun_slot {a : Nat} {s : State} (hc : s.g.c = 0) (hp : s.g.phase = .burst) (ho : s.others = [])
    (hl : 0 < slotLen s.cfg s.g.nb s.g.j s.g.i) :
    burstRun a (slotLen s.cfg s.g.nb s.g.j s.g.i) s =
      burstAdvance a (inSlot s (slotLen s.cfg s.g.nb s.g.j s.g.i)) := by
  obtain ⟨x, hx⟩ : ∃ x, slotLen s.cfg s.g.nb s.g.j s.g.i = x + 1 := ⟨_, (Nat.succ_pred_eq_of_pos hl).symm⟩
  rw [hx, burstRun_add, burstRun_inSlot hc hp ho x (by omega), andThen_next]
  have hph : (inSlot s x).g.phase = .burst := by unfold inSlot; split <;> simp [hp]
  have hot : (inSlot s x).others = [] := by unfold inSlot; split <;> simp [ho]
  simp only [burstRun, hph, if_true]
  rw [burstCycle_alone hot, burstLevel_inSlot hc]
  unfold burstAdvance
  rw [if_pos (by simp [inSlot]; omega)]
  split
  · simp
  · split
    · cases hm : memRead (a + ((inSlot s (x + 1)).g.j + 1)) { inSlot s (x + 1) with
          g := { (inSlot s (x + 1)).g with c := 0, j := (inSlot s (x + 1)).g.j + 1, i := 7 } } <;> simp
    · simp

/-- The state at the start of slot `k` of a burst of wire stream `ws` at `a` that started in state `s` (R96, R101): `k = 0` is the
state after burst entry. -/
structure AtSlot (s : State) (a : Nat) (ws : List Byte) (k : Nat) (t : State) : Prop where
  same : t = { s with pin := t.pin, cycle := s.cycle + slotStart s.cfg k, g := t.g,
                      trace := s.trace ++ (List.range (k / 8)).map fun j => .memR (a + (j + 1)) (ws.getD (j + 1) 0) }
  nb : t.g.nb = ws.length
  j : t.g.j = k / 8
  i : t.g.i = 7 - k % 8
  c : t.g.c = 0
  b : t.g.b = ws.getD (k / 8) 0
  phase : t.g.phase = .burst
  start : t.g.start = s.g.start
  sent : t.g.sent = ws.take (k / 8 + 1)
  pinLow : 0 < k → t.pin = .low

theorem AtSlot.bit {s t : State} {a k : Nat} {ws : List Byte} (h : AtSlot s a ws k t) :
    t.g.b.getLsbD t.g.i = slotBit ws k := by rw [h.b, h.i]; rfl

theorem AtSlot.cfg {s t : State} {a k : Nat} {ws : List Byte} (h : AtSlot s a ws k t) : t.cfg = s.cfg := by rw [h.same]

/-- From the start of slot `k` to the start of slot `k + 1`, alone (R99, R101, R102). -/
theorem burstRun_nextSlot {s t : State} {a k : Nat} {ws : List Byte} (hwf : cfgWf s.cfg = true)
    (hg : s.cfg.transport = .gpio) (ho : s.others = []) (hr : s.race.raced = [])
    (hm : ∀ j, j < ws.length → admitsRead s (a + j) = true ∧ memGet s.mem (a + j) = ws.getD j 0)
    (hk : k + 1 < 8 * ws.length) (ht : AtSlot s a ws k t) :
    ∃ u, burstRun a (slotLen s.cfg ws.length (k / 8) (7 - k % 8)) t = .next u ∧ AtSlot s a ws (k + 1) u := by
  have hhi := highTime_le hwf hg (t.g.b.getLsbD t.g.i)
  have hlen : slotLen t.cfg t.g.nb t.g.j t.g.i = slotLen s.cfg ws.length (k / 8) (7 - k % 8) := by
    rw [ht.cfg, ht.nb, ht.j, ht.i]
  have hge := slotLen_ge s.cfg ws.length (k / 8) (7 - k % 8)
  have hot : t.others = [] := by rw [ht.same]; exact ho
  have hrun := burstRun_slot (a := a) ht.c ht.phase hot (by rw [hlen]; omega)
  have hcyc : s.cycle + slotStart s.cfg k + slotLen s.cfg ws.length (k / 8) (7 - k % 8) =
      s.cycle + slotStart s.cfg (k + 1) := by rw [slotStart_succ s.cfg hk]; omega
  rw [hlen] at hrun
  generalize hL : slotLen s.cfg ws.length (k / 8) (7 - k % 8) = L at *
  have hL0 : L ≠ 0 := by omega
  have hlow : ¬ (L - 1 < highTime t.cfg (t.g.b.getLsbD t.g.i)) := by rw [ht.cfg]; omega
  rw [hrun]
  unfold burstAdvance
  have hcnt : (inSlot t L).g.c = slotLen (inSlot t L).cfg (inSlot t L).g.nb (inSlot t L).g.j (inSlot t L).g.i := by
    simp [inSlot, hL0, hlen]
  rw [if_pos hcnt]
  by_cases hi : 0 < t.g.i
  · have hgi : (inSlot t L).g.i > 0 := by simpa [inSlot, hL0] using hi
    rw [if_pos hgi]
    have hki := ht.i
    have hk8 : (k + 1) / 8 = k / 8 := by omega
    refine ⟨_, rfl, ?_, ?_, ?_, ?_, ?_, ?_, ?_, ?_, ?_, ?_⟩
    · simp only [inSlot, hL0, if_false, hlow]
      rw [ht.same]
      simp only [hk8, hcyc]
    · simp [inSlot, hL0, ht.nb]
    · simp [inSlot, hL0, ht.j, hk8]
    · simp [inSlot, hL0, ht.i]; omega
    · rfl
    · simp [inSlot, hL0, ht.b, hk8]
    · simp [inSlot, hL0, ht.phase]
    · simp [inSlot, hL0, ht.start]
    · simp [inSlot, hL0, ht.sent, hk8]
    · intro _; simp [inSlot, hL0, hlow]
  · have hgi : ¬ (inSlot t L).g.i > 0 := by simpa [inSlot, hL0] using hi
    have hki := ht.i
    have hk7 : k % 8 = 7 := by omega
    have hk8 : (k + 1) / 8 = k / 8 + 1 := by omega
    have hgj : (inSlot t L).g.j + 1 < (inSlot t L).g.nb := by simp [inSlot, hL0, ht.j, ht.nb]; omega
    rw [if_neg hgi, if_pos hgj]
    have hadm := hm (k / 8 + 1) (by omega)
    have hjk : (inSlot t L).g.j = k / 8 := by simp [inSlot, hL0, ht.j]
    rw [hjk]
    rw [memRead_alone (by simpa [inSlot, hL0] using hot)
      (by simp only [inSlot, hL0, if_false]; rw [ht.same]; exact hr)
      (by rw [← hadm.1]; exact admitsRead_congr (by simp only [inSlot, hL0, if_false]; rw [ht.same])
            (by simp only [inSlot, hL0, if_false]; rw [ht.same]) _)]
    simp only [andThen_next]
    have hmem : (inSlot t L).mem = s.mem := by simp only [inSlot, hL0, if_false]; rw [ht.same]
    refine ⟨_, rfl, ?_, ?_, ?_, ?_, ?_, ?_, ?_, ?_, ?_, ?_⟩
    · simp only [emit, inSlot, hL0, if_false, hlow]
      rw [ht.same]
      simp only [hadm.2, hk8, hcyc, List.range_succ, List.map_append, List.map_cons, List.map_nil, List.append_assoc]
    · simp [inSlot, hL0, ht.nb]
    · simp [hk8]
    · simp; omega
    · rfl
    · simp only [hmem, hadm.2, hk8]
    · simp [inSlot, hL0, ht.phase]
    · simp [inSlot, hL0, ht.start]
    · simp only [emit_g, hmem, hadm.2, hk8]
      have : (inSlot t L).g.sent = ws.take (k / 8 + 1) := by simp [inSlot, hL0, ht.sent]
      rw [this]
      have hlt : k / 8 + 1 < ws.length := by omega
      rw [List.take_add_one (i := k / 8 + 1)]
      simp [List.getElem?_eq_getElem hlt, List.getD_eq_getElem?_getD]
    · intro _; simp [inSlot, hL0, hlow]

/-- From burst entry to the start of slot `k`, alone. -/
theorem burstRun_toSlot {s : State} {a : Nat} {ws : List Byte} (hwf : cfgWf s.cfg = true)
    (hg : s.cfg.transport = .gpio) (ho : s.others = []) (hr : s.race.raced = [])
    (hm : ∀ j, j < ws.length → admitsRead s (a + j) = true ∧ memGet s.mem (a + j) = ws.getD j 0)
    (h0 : AtSlot s a ws 0 s) :
    ∀ k, k < 8 * ws.length → ∃ t, burstRun a (slotStart s.cfg k) s = .next t ∧ AtSlot s a ws k t := by
  intro k
  induction k with
  | zero => intro _; exact ⟨s, by simp [slotStart, burstRun], h0⟩
  | succ k ih =>
    intro hk
    obtain ⟨t, ht, hat⟩ := ih (by omega)
    obtain ⟨u, hu, hau⟩ := burstRun_nextSlot hwf hg ho hr hm hk hat
    exact ⟨u, by rw [slotStart_succ s.cfg hk, burstRun_add, ht, andThen_next, hu], hau⟩

/-- The whole burst from its first cycle, alone (R97, R99, R101): it ends after exactly D(NB) cycles with the pin low, all wire bytes
read in order, each once, and the Burst event written. -/
theorem burstRun_whole {s : State} {a : Nat} {ws : List Byte} (hwf : cfgWf s.cfg = true)
    (hg : s.cfg.transport = .gpio) (ho : s.others = []) (hr : s.race.raced = []) (hne : ws ≠ [])
    (hm : ∀ j, j < ws.length → admitsRead s (a + j) = true ∧ memGet s.mem (a + j) = ws.getD j 0)
    (h0 : AtSlot s a ws 0 s) :
    ∃ g, g.phase = .clkRel ∧ burstRun a (burstLength s.cfg ws.length) s = .next { s with
      pin := .low, cycle := s.cycle + burstLength s.cfg ws.length, g := g
      trace := s.trace ++ (List.range (ws.length - 1)).map (fun j => .memR (a + (j + 1)) (ws.getD (j + 1) 0)) ++
        [.burst s.g.start ws] } := by
  have hn : 0 < ws.length := List.length_pos_of_ne_nil hne
  obtain ⟨t, ht, hat⟩ := burstRun_toSlot hwf hg ho hr hm h0 (8 * ws.length - 1) (by omega)
  have h1 : (8 * ws.length - 1) / 8 = ws.length - 1 := by omega
  have h2 : (8 * ws.length - 1) % 8 = 7 := by omega
  have hj := hat.j
  have hi := hat.i
  rw [h1] at hj
  rw [h2] at hi
  have hhi := highTime_le hwf hg (t.g.b.getLsbD t.g.i)
  have hlen : slotLen t.cfg t.g.nb t.g.j t.g.i =
      slotLen s.cfg ws.length ((8 * ws.length - 1) / 8) (7 - (8 * ws.length - 1) % 8) := by
    rw [hat.cfg, hat.nb, hat.j, hat.i]
  have hge := slotLen_ge s.cfg ws.length ((8 * ws.length - 1) / 8) (7 - (8 * ws.length - 1) % 8)
  have hot : t.others = [] := by rw [hat.same]; exact ho
  have hrun := burstRun_slot (a := a) hat.c hat.phase hot (by rw [hlen]; omega)
  have hcyc : s.cycle + slotStart s.cfg (8 * ws.length - 1) +
      slotLen s.cfg ws.length ((8 * ws.length - 1) / 8) (7 - (8 * ws.length - 1) % 8) =
      s.cycle + burstLength s.cfg ws.length := by rw [burstLength_last s.cfg hn]; omega
  rw [burstLength_last s.cfg hn, burstRun_add, ht, andThen_next]
  rw [hlen] at hrun
  rw [← burstLength_last s.cfg hn]
  generalize hL : slotLen s.cfg ws.length ((8 * ws.length - 1) / 8) (7 - (8 * ws.length - 1) % 8) = L at *
  have hL0 : L ≠ 0 := by omega
  have hlow : ¬ (L - 1 < highTime t.cfg (t.g.b.getLsbD t.g.i)) := by rw [hat.cfg]; omega
  rw [hrun]
  unfold burstAdvance
  have hcnt : (inSlot t L).g.c = slotLen (inSlot t L).cfg (inSlot t L).g.nb (inSlot t L).g.j (inSlot t L).g.i := by
    simp [inSlot, hL0, hlen]
  have hgi : ¬ (inSlot t L).g.i > 0 := by simp [inSlot, hL0, hi]
  have hgj : ¬ (inSlot t L).g.j + 1 < (inSlot t L).g.nb := by simp [inSlot, hL0, hj, hat.nb]; omega
  rw [if_pos hcnt, if_neg hgi, if_neg hgj]
  refine ⟨(leaveBurst { inSlot t L with g := { (inSlot t L).g with c := 0 } }).g, by simp, ?_⟩
  congr 1
  have hsent : t.g.sent = ws := by
    rw [hat.sent, h1, Nat.sub_add_cancel hn, List.take_length]
  simp only [leaveBurst, setPhase, emit, inSlot, hL0, if_false, hlow, burstEvent, hsent, hat.start]
  rw [hat.same]
  simp only [hcyc, h1]

end Sys2Proof.Machine
end

