-- ==== Sys2Proof/Laws/Frames.lean ====
section
/-! SUPPORT. What a command keeps, whatever the other agents do: one relation for the GPIO transport and one for the SPI
transport, kept by every micro-step and so by every command, in the state it answers and in the state a fault leaves. -/

namespace Sys2Proof.Machine

/-- A property of an outcome: `Q` of what it yields, `F` of the fault; a refusal has any. -/
def Sat {σ : Type} (o : Out σ) (Q : σ → Prop) (F : Fault → Prop) : Prop :=
  match o with
  | .next x => Q x
  | .fault f => F f
  | .refused _ => True

@[simp] theorem sat_next {σ : Type} (x : σ) (Q : σ → Prop) (F : Fault → Prop) : Sat (.next x) Q F ↔ Q x := Iff.rfl
@[simp] theorem sat_fault {σ : Type} (f : Fault) (Q : σ → Prop) (F : Fault → Prop) :
    Sat (.fault f : Out σ) Q F ↔ F f := Iff.rfl
@[simp] theorem sat_refused {σ : Type} (r : Refusal) (Q : σ → Prop) (F : Fault → Prop) :
    Sat (.refused r : Out σ) Q F ↔ True := Iff.rfl

theorem Sat.bind {σ τ : Type} {o : Out σ} {f : σ → Out τ} {Q' : σ → Prop} {Q : τ → Prop} {F : Fault → Prop}
    (h : Sat o Q' F) (hf : ∀ x, Q' x → Sat (f x) Q F) : Sat (andThen o f) Q F := by
  cases o with
  | next x => exact hf x h
  | fault r => exact h
  | refused r => trivial

theorem Sat.mono {σ : Type} {o : Out σ} {Q Q' : σ → Prop} {F F' : Fault → Prop} (h : Sat o Q F) (hq : ∀ x, Q x → Q' x)
    (hf : ∀ f, F f → F' f) : Sat o Q' F' := by
  cases o with
  | next x => exact hq _ h
  | fault r => exact hf _ h
  | refused r => trivial

theorem Sat.of_next {σ : Type} {o : Out σ} {Q : σ → Prop} {F : Fault → Prop} {t : σ} (h : Sat o Q F) (ho : o = .next t) :
    Q t := by rw [ho] at h; exact h

theorem Sat.of_fault {σ : Type} {o : Out σ} {Q : σ → Prop} {F : Fault → Prop} {f : Fault} (h : Sat o Q F)
    (ho : o = .fault f) : F f := by rw [ho] at h; exact h

/-- TRACE only grew from `s` to `t`, by events that satisfy `P`. -/
def Grows (P : Event → Prop) (s t : State) : Prop := ∃ new, t.trace = s.trace ++ new ∧ ∀ e ∈ new, P e

theorem Grows.refl (P : Event → Prop) (s : State) : Grows P s s := ⟨[], by simp⟩

theorem Grows.of_eq {P : Event → Prop} {s t : State} (h : t.trace = s.trace) : Grows P s t := ⟨[], by simp [h]⟩

theorem Grows.one {P : Event → Prop} {s t : State} {e : Event} (h : t.trace = s.trace ++ [e]) (he : P e) : Grows P s t :=
  ⟨[e], h, by simpa using he⟩

theorem Grows.trans {P : Event → Prop} {s t u : State} (h : Grows P s t) (h' : Grows P t u) : Grows P s u := by
  obtain ⟨n1, e1, p1⟩ := h
  obtain ⟨n2, e2, p2⟩ := h'
  refine ⟨n1 ++ n2, by rw [e2, e1, List.append_assoc], fun e he => ?_⟩
  rcases List.mem_append.mp he with h | h
  · exact p1 e h
  · exact p2 e h

theorem Grows.mono {P Q : Event → Prop} {s t : State} (h : Grows P s t) (hq : ∀ e, P e → Q e) : Grows Q s t := by
  obtain ⟨new, e, p⟩ := h
  exact ⟨new, e, fun x hx => hq x (p x hx)⟩

/-- No other agent has anything to do, and none has raced with the running command. -/
def Quiet (s : State) : Prop := s.others = [] ∧ s.race.raced = []

/-- What every command keeps: CFG, READY, whether init has run, the other instances and the program; host memory keeps its canonical
form; and in quiet, ADDR, COUNT, the loads of both kinds and the admission stay. -/
structure Keeps (s t : State) : Prop where
  cfg : t.cfg = s.cfg
  ready : t.status.ready = s.status.ready
  boot : t.boot = s.boot
  peers : t.peers = s.peers
  program : t.program = s.program
  wf : MemOk s → MemOk t
  alone : Quiet s → Quiet t ∧ t.addr = s.addr ∧ t.count = s.count ∧ t.loads = s.loads ∧ t.hostReads = s.hostReads ∧
    t.regions = s.regions

theorem Keeps.refl (s : State) : Keeps s s :=
  ⟨rfl, rfl, rfl, rfl, rfl, id, fun h => ⟨h, rfl, rfl, rfl, rfl, rfl⟩⟩

theorem Keeps.trans {s t u : State} (h : Keeps s t) (h' : Keeps t u) : Keeps s u := by
  refine ⟨h'.cfg.trans h.cfg, h'.ready.trans h.ready, h'.boot.trans h.boot, h'.peers.trans h.peers,
    h'.program.trans h.program, fun hm => h'.wf (h.wf hm), fun ho => ?_⟩
  obtain ⟨a1, a2, a3, a4, a5, a6⟩ := h.alone ho
  obtain ⟨b1, b2, b3, b4, b5, b6⟩ := h'.alone a1
  exact ⟨b1, b2.trans a2, b3.trans a3, b4.trans a4, b5.trans a5, b6.trans a6⟩

/-- A change of the state outside what `Keeps` speaks of. -/
theorem Keeps.of_same {s t : State} (hc : t.cfg = s.cfg) (hr : t.status.ready = s.status.ready) (hb : t.boot = s.boot)
    (hp : t.peers = s.peers) (hg : t.program = s.program) (hm : t.mem = s.mem) (ho : t.others = s.others)
    (ha : t.addr = s.addr) (hn : t.count = s.count) (hl : t.loads = s.loads) (hh : t.hostReads = s.hostReads)
    (hrg : t.regions = s.regions) (hrc : t.race.raced = s.race.raced) : Keeps s t :=
  ⟨hc, hr, hb, hp, hg, fun h => h.congr hm hrc, fun h => ⟨⟨ho.trans h.1, hrc.trans h.2⟩, ha, hn, hl, hh, hrg⟩⟩

/-- What the GPIO commands keep besides: STAGE, CHBUF, the SPI engine, and (alone) every byte outside [lo, hi). -/
structure GpioKeeps (lo hi : Nat) (s t : State) : Prop extends Keeps s t where
  stage : t.stage = s.stage
  chbuf : t.chbuf = s.chbuf
  sI : t.sI = s.sI
  sJ : t.sJ = s.sJ
  mem : Quiet s → ∀ x, ¬ (lo ≤ x ∧ x < hi) → memGet t.mem x = memGet s.mem x

theorem GpioKeeps.refl (lo hi : Nat) (s : State) : GpioKeeps lo hi s s :=
  ⟨Keeps.refl s, rfl, rfl, rfl, rfl, fun _ _ _ => rfl⟩

theorem GpioKeeps.trans {lo hi : Nat} {s t u : State} (h : GpioKeeps lo hi s t) (h' : GpioKeeps lo hi t u) :
    GpioKeeps lo hi s u :=
  ⟨h.toKeeps.trans h'.toKeeps, h'.stage.trans h.stage, h'.chbuf.trans h.chbuf, h'.sI.trans h.sI, h'.sJ.trans h.sJ,
    fun ho x hx => (h'.mem (h.alone ho).1 x hx).trans (h.mem ho x hx)⟩

/-- What the SPI commands keep besides: the pin, IRQ_MASK, CLK_REQ, the GPIO engine, and (alone) host memory. -/
structure SpiKeeps (s t : State) : Prop extends Keeps s t where
  pin : t.pin = s.pin
  irqMask : t.irqMask = s.irqMask
  clkReq : t.clkReq = s.clkReq
  g : t.g = s.g
  mem : Quiet s → t.mem = s.mem

theorem SpiKeeps.refl (s : State) : SpiKeeps s s := ⟨Keeps.refl s, rfl, rfl, rfl, rfl, fun _ => rfl⟩

theorem SpiKeeps.trans {s t u : State} (h : SpiKeeps s t) (h' : SpiKeeps t u) : SpiKeeps s u :=
  ⟨h.toKeeps.trans h'.toKeeps, h'.pin.trans h.pin, h'.irqMask.trans h.irqMask, h'.clkReq.trans h.clkReq, h'.g.trans h.g,
    fun ho => (h'.mem (h.alone ho).1).trans (h.mem ho)⟩

/-- What the accesses to host memory keep: everything of the instance but TRACE, which grows by reads and writes; and, alone, every byte
outside [lo, hi), or all of memory where that range is empty. -/
structure MemStep (lo hi : Nat) (s t : State) : Prop extends Keeps s t where
  status : t.status = s.status
  stage : t.stage = s.stage
  chbuf : t.chbuf = s.chbuf
  g : t.g = s.g
  sI : t.sI = s.sI
  sJ : t.sJ = s.sJ
  pin : t.pin = s.pin
  irqMask : t.irqMask = s.irqMask
  clkReq : t.clkReq = s.clkReq
  replies : t.replies = s.replies
  asked : t.asked = s.asked
  trace : Grows (fun e => isMem e = true) s t
  mem : Quiet s → ∀ x, ¬ (lo ≤ x ∧ x < hi) → memGet t.mem x = memGet s.mem x
  memSame : Quiet s → hi ≤ lo → t.mem = s.mem

theorem MemStep.refl (lo hi : Nat) (s : State) : MemStep lo hi s s :=
  ⟨Keeps.refl s, rfl, rfl, rfl, rfl, rfl, rfl, rfl, rfl, rfl, rfl, rfl, Grows.refl _ s, fun _ _ _ => rfl, fun _ _ => rfl⟩

theorem MemStep.trans {lo hi : Nat} {s t u : State} (h : MemStep lo hi s t) (h' : MemStep lo hi t u) :
    MemStep lo hi s u :=
  ⟨h.toKeeps.trans h'.toKeeps, h'.status.trans h.status, h'.stage.trans h.stage, h'.chbuf.trans h.chbuf, h'.g.trans h.g,
    h'.sI.trans h.sI, h'.sJ.trans h.sJ, h'.pin.trans h.pin, h'.irqMask.trans h.irqMask, h'.clkReq.trans h.clkReq,
    h'.replies.trans h.replies, h'.asked.trans h.asked, h.trace.trans h'.trace,
    fun ho x hx => (h'.mem (h.alone ho).1 x hx).trans (h.mem ho x hx),
    fun ho hl => (h'.memSame (h.alone ho).1 hl).trans (h.memSame ho hl)⟩

theorem MemStep.toGpio {lo hi : Nat} {s t : State} (h : MemStep lo hi s t) : GpioKeeps lo hi s t :=
  ⟨h.toKeeps, h.stage, h.chbuf, h.sI, h.sJ, h.mem⟩

theorem MemStep.toSpi {lo : Nat} {s t : State} (h : MemStep lo lo s t) : SpiKeeps s t :=
  ⟨h.toKeeps, h.pin, h.irqMask, h.clkReq, h.g, fun ho => h.memSame ho (Nat.le_refl _)⟩

theorem MemStep.reply {lo hi : Nat} {s t : State} (h : MemStep lo hi s t) (k : Nat) : replyAt t k = replyAt s k :=
  replyAt_congr h.replies h.asked k

/-! ### Micro-steps -/

theorem tick_memStep {lo hi : Nat} {s t : State} (h : tick s = .next t) : MemStep lo hi s t := by
  obtain ⟨ha, hw⟩ := tick_next h
  have hf := ha.fields
  have hq : Quiet s → t = s := fun ho => by
    rw [tick_alone ho.1] at h
    cases h
    rfl
  constructor
  case toKeeps => exact ⟨hf.1, by rw [hf.2.1], by simp only [hf], by simp only [hf], by simp only [hf], hw,
    fun ho => by rw [hq ho]; exact ⟨ho, rfl, rfl, rfl, rfl, rfl⟩⟩
  case trace => exact Grows.of_eq (by simp only [hf])
  case mem => exact fun ho x _ => by rw [hq ho]
  case memSame => exact fun ho _ => hq ho ▸ rfl
  all_goals simp only [hf]

/-- What the other agents do at a micro-step, or between two. -/
theorem tick_sat {lo hi : Nat} {F : Fault → Prop} (s : State) :
    Sat (tick s) (fun t => MemStep lo hi s t ∧ t.trace = s.trace) F := by
  cases h : tick s with
  | next t =>
    have hf := (tick_next h).1.fields
    exact ⟨tick_memStep h, by simp only [hf]⟩
  | fault f => exact absurd h tick_not_fault
  | refused r => trivial

theorem enterState_sat {lo hi : Nat} {F : Fault → Prop} (st : EngineState) (s : State) :
    Sat (enterState st s) (fun t => ∃ u, MemStep lo hi s u ∧ u.trace = s.trace ∧ t = setState st u) F :=
  (tick_sat s).bind fun u hu => ⟨u, hu.1, hu.2, rfl⟩

theorem complete_sat {lo hi : Nat} {F : Fault → Prop} (r : ResultCode) (d : Word) (s : State) :
    Sat (complete r d s) (fun t => ∃ u, MemStep lo hi s u ∧ u.trace = s.trace ∧ t = finish r d u) F :=
  (tick_sat s).bind fun u hu => ⟨u, hu.1, hu.2, rfl⟩

/-- `finish` in quiet leaves host memory alone. -/
theorem finish_mem_quiet {r : ResultCode} {d : Word} {s : State} (h : Quiet s) : (finish r d s).mem = s.mem := by
  rw [finish_of_not_raced h.2]

theorem finish_keeps (r : ResultCode) (d : Word) (s : State) : Keeps s (finish r d s) :=
  ⟨rfl, rfl, rfl, rfl, rfl, fun h => h.settle, fun h => ⟨⟨h.1, rfl⟩, rfl, rfl, rfl, rfl, rfl⟩⟩

theorem finish_gpioKeeps (lo hi : Nat) (r : ResultCode) (d : Word) (s : State) : GpioKeeps lo hi s (finish r d s) :=
  ⟨finish_keeps r d s, rfl, rfl, rfl, rfl, fun h x _ => by rw [finish_mem_quiet h]⟩

theorem finish_spiKeeps (r : ResultCode) (d : Word) (s : State) : SpiKeeps s (finish r d s) :=
  ⟨finish_keeps r d s, rfl, rfl, rfl, rfl, finish_mem_quiet⟩

/-- Settling the races is outside the instance, and in quiet it leaves host memory alone. -/
theorem settle_memStep (lo hi : Nat) (s : State) : MemStep lo hi s (settle s) := by
  have hq : Quiet s → (settle s).mem = s.mem := fun h => by rw [settle_of_not_raced h.2]
  constructor
  case toKeeps => exact ⟨rfl, rfl, rfl, rfl, rfl, fun h => h.settle, fun h => ⟨⟨h.1, rfl⟩, rfl, rfl, rfl, rfl, rfl⟩⟩
  case trace => exact Grows.refl _ s
  case mem => exact fun h x _ => by rw [hq h]
  case memSame => exact fun h _ => hq h
  all_goals rfl

theorem memRead_sat {lo hi a : Nat} (s : State) :
    Sat (memRead a s) (fun x => MemStep lo hi s x.2) (fun f => MemStep lo hi s f.left) := by
  cases h : memRead a s with
  | next x =>
    obtain ⟨s1, h1, _, rfl⟩ := memRead_next h
    refine (tick_memStep h1).trans ?_
    constructor
    case toKeeps => apply Keeps.of_same <;> simp
    case trace => exact Grows.one (afterRead_trace s1 a _) rfl
    all_goals simp
  | fault f => obtain ⟨s1, h1, _, rfl⟩ := memRead_fault h; exact (tick_memStep h1).trans (settle_memStep lo hi s1)
  | refused r => trivial

theorem memWrite_sat {lo hi a : Nat} {v : Byte} (s : State) (hl : lo ≤ a) (hh : a < hi) :
    Sat (memWrite a v s) (fun t => MemStep lo hi s t) (fun f => MemStep lo hi s f.left) := by
  cases h : memWrite a v s with
  | next t =>
    obtain ⟨s1, h1, ha, rfl⟩ := memWrite_next h
    exact (tick_memStep h1).trans ⟨⟨rfl, rfl, rfl, rfl, rfl, fun hm => ⟨memWf_memPut hm.1 (admitsWrite_lt ha), hm.2⟩,
      fun ho => ⟨ho, rfl, rfl, rfl, rfl, rfl⟩⟩, rfl, rfl, rfl, rfl, rfl, rfl, rfl, rfl, rfl, rfl, rfl, Grows.one rfl rfl,
      fun _ x hx => memGet_memPut_ne _ _ (by omega), fun _ hle => by omega⟩
  | fault f => obtain ⟨s1, h1, _, rfl⟩ := memWrite_fault h; exact (tick_memStep h1).trans (settle_memStep lo hi s1)
  | refused r => trivial

/-- What an oracle call answers and leaves: the next reply, one event, and nothing else of the instance. -/
structure Asked (s : State) (e : Event) (t : State) : Prop extends Keeps s t where
  status : t.status = s.status
  stage : t.stage = s.stage
  chbuf : t.chbuf = s.chbuf
  g : t.g = s.g
  sI : t.sI = s.sI
  sJ : t.sJ = s.sJ
  pin : t.pin = s.pin
  irqMask : t.irqMask = s.irqMask
  clkReq : t.clkReq = s.clkReq
  trace : t.trace = s.trace ++ [e]
  mem : Quiet s → t.mem = s.mem
  reply : ∀ k, replyAt t k = replyAt s (k + 1)

theorem Asked.toGpio {s t : State} {e : Event} (lo hi : Nat) (h : Asked s e t) : GpioKeeps lo hi s t :=
  ⟨h.toKeeps, h.stage, h.chbuf, h.sI, h.sJ, fun ho x _ => by rw [h.mem ho]⟩

theorem Asked.toSpi {s t : State} {e : Event} (h : Asked s e t) : SpiKeeps s t :=
  ⟨h.toKeeps, h.pin, h.irqMask, h.clkReq, h.g, h.mem⟩

theorem asked_of_tick {s s1 : State} {e : Event} (h1 : tick s = .next s1) : Asked s e (emit e (tookReply s1)) := by
  have ht : MemStep 0 0 s s1 := tick_memStep h1
  have hf := (tick_next h1).1.fields
  refine ⟨ht.toKeeps.trans (Keeps.of_same rfl rfl rfl rfl rfl rfl rfl rfl rfl rfl rfl rfl rfl), ht.status, ht.stage, ht.chbuf, ht.g,
    ht.sI, ht.sJ, ht.pin, ht.irqMask, ht.clkReq, ?_, fun ho => ht.memSame ho (Nat.le_refl _), fun k => ?_⟩
  · simp [hf]
  · rw [replyAt_congr (s := tookReply s1) (by simp) (by simp), replyAt_tookReply, ht.reply]

theorem busWrite_sat {kind : BusKind} {bytes : List Byte} {F : Fault → Prop} (s : State) :
    Sat (busWrite kind bytes s) (fun x => x.1 = answerOfWord (replyAt s 0).error ∧
      Asked s (busEvent kind bytes (replyAt s 0)) x.2) F := by
  cases h : busWrite kind bytes s with
  | next x => obtain ⟨s1, h1, rfl⟩ := busWrite_next h; exact ⟨rfl, asked_of_tick h1⟩
  | fault f => exact absurd h busWrite_not_fault
  | refused r => trivial

theorem clockRequest_sat {F : Fault → Prop} (s : State) :
    Sat (clockRequest s) (fun x => x.1 = answerOfWord (replyAt s 0).error ∧
      Asked s (.clkReq (answerOfWord (replyAt s 0).error)) x.2) F := by
  cases h : clockRequest s with
  | next x => obtain ⟨s1, h1, rfl⟩ := clockRequest_next h; exact ⟨rfl, asked_of_tick h1⟩
  | fault f => exact absurd h clockRequest_not_fault
  | refused r => trivial

theorem clockRelease_sat {F : Fault → Prop} (s : State) :
    Sat (clockRelease s) (fun x => x.1 = answerOfWord (replyAt s 0).error ∧
      Asked s (.clkRel (answerOfWord (replyAt s 0).error)) x.2) F := by
  cases h : clockRelease s with
  | next x => obtain ⟨s1, h1, rfl⟩ := clockRelease_next h; exact ⟨rfl, asked_of_tick h1⟩
  | fault f => exact absurd h clockRelease_not_fault
  | refused r => trivial

theorem readPixel_sat {lo hi a i : Nat} (s : State) :
    Sat (readPixel a i s) (fun x => MemStep lo hi s x.2) (fun f => MemStep lo hi s f.left) := by
  unfold readPixel
  refine (memRead_sat s).bind fun x hx => ?_
  refine ((memRead_sat x.2).mono (fun y hy => hx.trans hy) (fun f hf => hx.trans hf)).bind fun y hy => ?_
  exact ((memRead_sat y.2).mono (fun z hz => hy.trans hz) (fun f hf => hy.trans hf)).bind fun z hz => hz

/-! ### The GPIO transport -/

theorem layoutWrites_sat {lo hi a i : Nat} {w : List Byte} {chs : List Channel} (s : State)
    (hr : ∀ ch ∈ chs, lo ≤ wireAddr s.cfg a i ch ∧ wireAddr s.cfg a i ch < hi) :
    Sat (layoutWrites a i w chs s) (fun t => MemStep lo hi s t) (fun f => MemStep lo hi s f.left) := by
  induction chs generalizing s with
  | nil => exact MemStep.refl lo hi s
  | cons ch rest ih =>
    have hc := hr ch (by simp)
    simp only [layoutWrites]
    refine (memWrite_sat s hc.1 hc.2).bind fun t ht => ?_
    refine (ih t (fun d hd => ?_)).mono (fun u hu => ht.trans hu) (fun f hf => ht.trans hf)
    rw [ht.cfg]
    exact hr d (by simp [hd])

theorem layoutPixel_sat {lo hi a i : Nat} (s : State) (hwf : cfgWf s.cfg = true) (hl : lo ≤ a + stride s.cfg * i)
    (hh : a + stride s.cfg * (i + 1) ≤ hi) :
    Sat (layoutPixel a i s) (fun t => MemStep lo hi s t) (fun f => MemStep lo hi s f.left) := by
  unfold layoutPixel
  refine (readPixel_sat s).bind fun p hp => ?_
  refine (layoutWrites_sat p.2 (fun ch hc => ?_)).mono (fun u hu => hp.trans hu) (fun f hf => hp.trans hf)
  rw [hp.cfg] at hc ⊢
  have := order_lt hwf hc
  rw [Nat.mul_succ] at hh
  simp only [wireAddr]
  omega

theorem layoutFrom_sat {lo hi a k : Nat} : ∀ {i : Nat} (s : State), cfgWf s.cfg = true → lo ≤ a + stride s.cfg * i →
    a + stride s.cfg * (i + k) ≤ hi →
    Sat (layoutFrom a i k s) (fun t => MemStep lo hi s t) (fun f => MemStep lo hi s f.left) := by
  induction k with
  | zero => intro i s _ _ _; exact MemStep.refl lo hi s
  | succ k ih =>
    intro i s hwf hl hh
    simp only [layoutFrom]
    have h1 : stride s.cfg * (i + 1) ≤ stride s.cfg * (i + (k + 1)) := Nat.mul_le_mul_left _ (by omega)
    refine (layoutPixel_sat s hwf hl (by omega)).bind fun t ht => ?_
    refine (ih (i := i + 1) t (by rw [ht.cfg]; exact hwf) ?_ ?_).mono (fun u hu => ht.trans hu) (fun f hf => ht.trans hf)
    · rw [ht.cfg, Nat.mul_succ]; omega
    · rw [ht.cfg, show i + 1 + k = i + (k + 1) by omega]; exact hh

/-- What the burst keeps: STATUS, IRQ_MASK, CLK_REQ and the oracles' answers too; its events are reads and the Burst event. -/
structure BurstKeeps (lo hi : Nat) (s t : State) : Prop extends GpioKeeps lo hi s t where
  status : t.status = s.status
  irqMask : t.irqMask = s.irqMask
  clkReq : t.clkReq = s.clkReq
  replies : t.replies = s.replies
  asked : t.asked = s.asked
  trace : Grows (fun e => isMem e = true ∨ ∃ t0 ws, e = .burst t0 ws) s t

theorem BurstKeeps.refl (lo hi : Nat) (s : State) : BurstKeeps lo hi s s :=
  ⟨GpioKeeps.refl lo hi s, rfl, rfl, rfl, rfl, rfl, Grows.refl _ s⟩

theorem BurstKeeps.trans {lo hi : Nat} {s t u : State} (h : BurstKeeps lo hi s t) (h' : BurstKeeps lo hi t u) :
    BurstKeeps lo hi s u :=
  ⟨h.toGpioKeeps.trans h'.toGpioKeeps, h'.status.trans h.status, h'.irqMask.trans h.irqMask, h'.clkReq.trans h.clkReq,
    h'.replies.trans h.replies, h'.asked.trans h.asked, h.trace.trans h'.trace⟩

theorem MemStep.toBurst {lo hi : Nat} {s t : State} (h : MemStep lo hi s t) : BurstKeeps lo hi s t :=
  ⟨h.toGpio, h.status, h.irqMask, h.clkReq, h.replies, h.asked, h.trace.mono fun _ he => .inl he⟩

/-- A change of the engine, the pin, the cycle count or the draws only. -/
theorem BurstKeeps.of_engine (lo hi : Nat) (s : State) (g : GpioEngine) (pin : PinLevel) (cycle draws : Nat) :
    BurstKeeps lo hi s { s with g := g, pin := pin, cycle := cycle, draws := draws } :=
  ⟨⟨Keeps.of_same rfl rfl rfl rfl rfl rfl rfl rfl rfl rfl rfl rfl rfl, rfl, rfl, rfl, rfl, fun _ _ _ => rfl⟩, rfl, rfl, rfl, rfl, rfl,
    Grows.of_eq rfl⟩

theorem burstEnter_sat {lo hi a nb : Nat} (s : State) :
    Sat (burstEnter a nb s) (fun t => BurstKeeps lo hi s t) (fun f => BurstKeeps lo hi s f.left) := by
  unfold burstEnter
  split
  · exact BurstKeeps.of_engine lo hi s _ s.pin s.cycle s.draws
  · have h0 := BurstKeeps.of_engine lo hi s { s.g with nb := nb, j := 0, i := 7, c := 0, phase := .burst } s.pin s.cycle s.draws
    refine ((memRead_sat (lo := lo) (hi := hi) _).mono (fun x hx => h0.trans hx.toBurst) (fun f hf => h0.trans hf.toBurst)).bind
      fun x hx => ?_
    exact hx.trans (BurstKeeps.of_engine lo hi x.2 _ x.2.pin _ _)

theorem burstAdvance_sat {lo hi a : Nat} (s : State) :
    Sat (burstAdvance a s) (fun t => BurstKeeps lo hi s t) (fun f => BurstKeeps lo hi s f.left) := by
  unfold burstAdvance
  split
  · split
    · exact BurstKeeps.of_engine lo hi s _ s.pin s.cycle s.draws
    · split
      · have h0 := BurstKeeps.of_engine lo hi s { s.g with c := 0, j := s.g.j + 1, i := 7 } s.pin s.cycle s.draws
        refine ((memRead_sat (lo := lo) (hi := hi) _).mono (fun x hx => h0.trans hx.toBurst) (fun f hf => h0.trans hf.toBurst)).bind
          fun x hx => ?_
        exact hx.trans (BurstKeeps.of_engine lo hi x.2 _ x.2.pin x.2.cycle x.2.draws)
      · exact ⟨⟨Keeps.of_same rfl rfl rfl rfl rfl rfl rfl rfl rfl rfl rfl rfl rfl, rfl, rfl, rfl, rfl, fun _ _ _ => rfl⟩, rfl, rfl, rfl, rfl,
          rfl, Grows.one (e := burstEvent { s.g with c := 0 }) rfl (.inr ⟨_, _, rfl⟩)⟩
  · exact BurstKeeps.refl lo hi s

theorem burstCycle_sat {lo hi a : Nat} (s : State) :
    Sat (burstCycle a s) (fun t => BurstKeeps lo hi s t) (fun f => BurstKeeps lo hi s f.left) := by
  unfold burstCycle
  cases h : tick s with
  | next s1 =>
    have h1 := (tick_memStep (lo := lo) (hi := hi) h).toBurst
    have h2 : BurstKeeps lo hi s1 (burstLevel s1) := BurstKeeps.of_engine lo hi s1 _ _ _ s1.draws
    exact (burstAdvance_sat (burstLevel s1)).mono (fun t ht => (h1.trans h2).trans ht) (fun f hf => (h1.trans h2).trans hf)
  | fault f => exact absurd h tick_not_fault
  | refused r => trivial

theorem burstRun_sat {lo hi a : Nat} : ∀ (fuel : Nat) (s : State),
    Sat (burstRun a fuel s) (fun t => BurstKeeps lo hi s t) (fun f => BurstKeeps lo hi s f.left) := by
  intro fuel
  induction fuel with
  | zero => intro s; exact BurstKeeps.refl lo hi s
  | succ fuel ih =>
    intro s
    simp only [burstRun]
    split
    · refine (burstCycle_sat s).bind fun t ht => ?_
      exact (ih t).mono (fun u hu => ht.trans hu) (fun f hf => ht.trans hf)
    · exact BurstKeeps.refl lo hi s

theorem burst_sat {lo hi a nb : Nat} (s : State) :
    Sat (burst a nb s) (fun t => BurstKeeps lo hi s t) (fun f => BurstKeeps lo hi s f.left) := by
  unfold burst
  refine (burstEnter_sat s).bind fun t ht => ?_
  exact (burstRun_sat _ t).mono (fun u hu => ht.trans hu) (fun f hf => ht.trans hf)

/-- The release: the result, STATE back to IDLE, two events (R106). -/
theorem gpioRelease_sat {lo hi : Nat} {F : Fault → Prop} (s : State) :
    Sat (gpioRelease s) (fun t => GpioKeeps lo hi s t ∧ t.pin = s.pin ∧ t.irqMask = s.irqMask ∧ t.status.state = .idle ∧
      t.race = .empty ∧
      (t.status.result = .ok ∧ t.status.detail = 0 ∨ t.status.result = .clockControlFailure) ∧
      ∃ ans r d, t.trace = s.trace ++ [.clkRel ans, .done r d]) F := by
  unfold gpioRelease
  refine (clockRelease_sat s).bind fun x hx => ?_
  obtain ⟨_, ha⟩ := hx
  have hdone : ∀ (r : ResultCode) (d : Word) (draws : Nat) (clk : Bool),
      Sat (complete r d (setPhase .done { x.2 with draws := draws, clkReq := clk })) (fun t => GpioKeeps lo hi s t ∧
        t.pin = s.pin ∧ t.irqMask = s.irqMask ∧ t.status.state = .idle ∧ t.race = .empty ∧
        t.status.result = r ∧ t.status.detail = d.truncate 16 ∧
        ∃ ans r d, t.trace = s.trace ++ [.clkRel ans, .done r d]) F := by
    intro r d draws clk
    refine (complete_sat (lo := lo) (hi := hi) r d _).mono (fun t ht => ?_) (fun _ h => h)
    obtain ⟨u, hu, htr, rfl⟩ := ht
    have h0 : GpioKeeps lo hi x.2 (setPhase .done { x.2 with draws := draws, clkReq := clk }) :=
      ⟨Keeps.of_same rfl rfl rfl rfl rfl rfl rfl rfl rfl rfl rfl rfl rfl, rfl, rfl, rfl, rfl, fun _ _ _ => rfl⟩
    refine ⟨(((ha.toGpio lo hi).trans h0).trans hu.toGpio).trans (finish_gpioKeeps lo hi r d u), hu.pin.trans ha.pin,
      hu.irqMask.trans ha.irqMask, rfl, rfl, rfl, rfl, answerOfWord (replyAt s 0).error, r, d.truncate 16, ?_⟩
    rw [finish_trace, htr, setPhase_trace]
    show x.2.trace ++ _ = _
    rw [ha.trace, List.append_assoc]
    rfl
  cases hans : x.1 with
  | ok =>
    refine (hdone .ok 0 x.2.draws false).mono (fun t ht => ?_) (fun _ h => h)
    obtain ⟨h1, h2, h3, h4, h5, h6, h7, h8⟩ := ht
    exact ⟨h1, h2, h3, h4, h5, .inl ⟨h6, h7⟩, h8⟩
  | fail e =>
    refine (hdone .clockControlFailure e (x.2.draws + 1) (Config.freeBit x.2.draws)).mono (fun t ht => ?_) (fun _ h => h)
    obtain ⟨h1, h2, h3, h4, h5, h6, -, h8⟩ := ht
    exact ⟨h1, h2, h3, h4, h5, .inr h6, h8⟩

/-! ### The SPI transport -/

/-- A change of STATUS.STATE, the SPI engine or the SPI buffers only. -/
theorem SpiKeeps.of_engine (s : State) (st : EngineState) (stage chbuf : List Byte) (i j : Nat) :
    SpiKeeps s { s with status := { s.status with state := st }, stage := stage, chbuf := chbuf, sI := i, sJ := j } :=
  ⟨Keeps.of_same rfl rfl rfl rfl rfl rfl rfl rfl rfl rfl rfl rfl rfl, rfl, rfl, rfl, rfl, fun _ => rfl⟩

theorem overwrite_length {buf bs : List Byte} {pos : Nat} (h : pos + bs.length ≤ buf.length) :
    (overwrite buf pos bs).length = buf.length := by
  simp only [overwrite, List.length_append, List.length_take, List.length_drop]
  omega

theorem overwrite_take {buf bs : List Byte} {pos : Nat} (h : pos ≤ buf.length) :
    (overwrite buf pos bs).take (pos + bs.length) = buf.take pos ++ bs := by
  have : (buf.take pos).length = pos := by simp [h]
  rw [overwrite, List.take_append_of_le_length (by simp [this])]
  rw [List.take_of_length_le (by simp [this])]

/-- What ENCODE_STAGE keeps (R119): everything but STAGE, S_I and TRACE, which grows by reads. -/
structure EncodeKeeps (s t : State) : Prop extends SpiKeeps s t where
  status : t.status = s.status
  chbuf : t.chbuf = s.chbuf
  sJ : t.sJ = s.sJ
  trace : Grows (fun e => isMem e = true) s t
  reply : ∀ k, replyAt t k = replyAt s k

theorem EncodeKeeps.trans {s t u : State} (h : EncodeKeeps s t) (h' : EncodeKeeps t u) : EncodeKeeps s u :=
  ⟨h.toSpiKeeps.trans h'.toSpiKeeps, h'.status.trans h.status, h'.chbuf.trans h.chbuf, h'.sJ.trans h.sJ, h.trace.trans h'.trace,
    fun k => (h'.reply k).trans (h.reply k)⟩

theorem EncodeKeeps.of_engine (s : State) (stage : List Byte) (i : Nat) : EncodeKeeps s { s with stage := stage, sI := i } :=
  ⟨⟨Keeps.of_same rfl rfl rfl rfl rfl rfl rfl rfl rfl rfl rfl rfl rfl, rfl, rfl, rfl, rfl, fun _ => rfl⟩, rfl, rfl, rfl, Grows.of_eq rfl,
    fun _ => rfl⟩

theorem MemStep.toEncode {lo : Nat} {s t : State} (h : MemStep lo lo s t) : EncodeKeeps s t :=
  ⟨h.toSpi, h.status, h.chbuf, h.sJ, h.trace, h.reply⟩

/-- One pixel of ENCODE_STAGE (R119): its frames land at 8·STRIDE·i, the rest of STAGE stays. -/
theorem encodePixel_sat {a i : Nat} (s : State) :
    Sat (encodePixel a i s) (fun t => EncodeKeeps s t ∧
        ∃ p : Pixel, t.stage = overwrite s.stage (8 * (stride s.cfg * i)) (serAll s.cfg (wireOf s.cfg p)))
      (fun f => EncodeKeeps s f.left) := by
  unfold encodePixel
  have h0 := EncodeKeeps.of_engine s s.stage i
  refine ((readPixel_sat (lo := 0) (hi := 0) { s with sI := i }).mono (Q' := fun x => MemStep 0 0 { s with sI := i } x.2)
    (fun x hx => hx) (fun f hf => h0.trans hf.toEncode)).bind fun p hp => ?_
  refine ⟨(h0.trans hp.toEncode).trans (EncodeKeeps.of_engine p.2 _ p.2.sI), { r := p.1.1, g := p.1.2.1, b := p.1.2.2 }, ?_⟩
  simp only [hp.stage, hp.cfg]

theorem encodeFrom_sat {a k : Nat} : ∀ {i : Nat} (s : State),
    Sat (encodeFrom a i k s) (fun t => EncodeKeeps s t ∧
        (8 * (stride s.cfg * (i + k)) ≤ s.stage.length → t.stage.length = s.stage.length))
      (fun f => EncodeKeeps s f.left) := by
  induction k with
  | zero => intro i s; exact ⟨EncodeKeeps.of_engine s s.stage s.sI, fun _ => rfl⟩
  | succ k ih =>
    intro i s
    simp only [encodeFrom]
    refine (encodePixel_sat s).bind fun t ht => ?_
    obtain ⟨hk, p, hp⟩ := ht
    refine (ih (i := i + 1) t).mono (fun u hu => ⟨hk.trans hu.1, fun hl => ?_⟩) (fun f hf => hk.trans hf)
    have h1 : stride s.cfg * (i + 1) ≤ stride s.cfg * (i + (k + 1)) := Nat.mul_le_mul_left _ (by omega)
    have h2 : t.stage.length = s.stage.length := by
      rw [hp]
      apply overwrite_length
      simp only [serAll_length, wireOf_length]
      rw [Nat.mul_succ] at h1
      omega
    rw [hu.2 (by rw [hk.cfg, h2, show i + 1 + k = i + (k + 1) by omega]; exact hl), h2]

/-- A DATA write and its reset write (R122, R132): two events, the two next answers, and nothing else of the instance but STATE. -/
theorem dataThenLatch_sat {bytes : List Byte} {F : Fault → Prop} (s : State) :
    Sat (dataThenLatch bytes s) (fun x => SpiKeeps s x.2 ∧
      x.1 = (answerOfWord (replyAt s 0).error, answerOfWord (replyAt s 1).error) ∧
      x.2.trace = s.trace ++ [busEvent .data bytes (replyAt s 0), busEvent .reset (resetBytes s.cfg) (replyAt s 1)] ∧
      x.2.status = { s.status with state := .latching } ∧ x.2.stage = s.stage ∧ x.2.chbuf = s.chbuf ∧ x.2.sI = s.sI ∧
      x.2.sJ = s.sJ ∧ ∀ k, replyAt x.2 k = replyAt s (k + 2)) F := by
  unfold dataThenLatch latch
  refine (enterState_sat (lo := 0) (hi := 0) _ s).bind fun s' hs' => ?_
  obtain ⟨u, hu, hut, rfl⟩ := hs'
  refine (busWrite_sat _).bind fun x hx => ?_
  obtain ⟨hx1, hx⟩ := hx
  rw [andThen_assoc]
  refine (enterState_sat (lo := 0) (hi := 0) _ x.2).bind fun x' hx' => ?_
  obtain ⟨v, hv, hvt, rfl⟩ := hx'
  refine (busWrite_sat _).bind fun y hy => ?_
  obtain ⟨hy1, hy⟩ := hy
  have e0 : ∀ k, replyAt (setState .transmitting u) k = replyAt s k := fun k => hu.reply k
  have e1 : ∀ k, replyAt (setState .latching v) k = replyAt s (k + 1) := fun k => (hv.reply k).trans ((hx.reply k).trans (e0 _))
  have s1 := hu.toSpi.trans (SpiKeeps.of_engine u .transmitting u.stage u.chbuf u.sI u.sJ)
  have s2 := hv.toSpi.trans (SpiKeeps.of_engine v .latching v.stage v.chbuf v.sI v.sJ)
  have hk := (s1.trans hx.toSpi).trans s2
  refine ⟨hk.trans hy.toSpi, ?_, ?_, ?_, ?_, ?_, ?_, ?_, fun k => ?_⟩
  · rw [hx1, hy1, e0, e1]
  · rw [hy.trace, setState_trace, hvt, hx.trace, setState_trace, hut, e0, e1, List.append_assoc,
      show x.2.cfg = s.cfg from hx.cfg.trans hu.cfg]
    rfl
  · rw [hy.status, setState_status, hv.status, hx.status, setState_status, hu.status]
  · rw [hy.stage, setState_stage, hv.stage, hx.stage, setState_stage, hu.stage]
  · rw [hy.chbuf, setState_chbuf, hv.chbuf, hx.chbuf, setState_chbuf, hu.chbuf]
  · rw [hy.sI, setState_sI, hv.sI, hx.sI, setState_sI, hu.sI]
  · rw [hy.sJ, setState_sJ, hv.sJ, hx.sJ, setState_sJ, hu.sJ]
  · rw [hy.reply, e1]

end Sys2Proof.Machine
end

