-- ==== Sys2Proof/Laws/Commands.lean ====
section
/-! SUPPORT. What the whole commands do, whatever the other agents do: the burst ends after its D(NB) cycles with the pin low, and one
lemma for each command's run says what it leaves, in the state it answers and in the state a fault leaves. -/

namespace Sys2Proof.Machine

/-! ### The burst ends -/

/-- The burst cycle the engine is in: the start of its slot plus G_C (R96). -/
def burstPos (s : State) : Nat := slotStart s.cfg (8 * s.g.j + (7 - s.g.i)) + s.g.c

/-- The engine is in BURST, in some cycle of some slot, and the high time it holds is below TPER_CYC. -/
structure InBurst (s : State) : Prop where
  phase : s.g.phase = .burst
  bit : s.g.i ≤ 7
  byte : s.g.j < s.g.nb
  count : s.g.c < slotLen s.cfg s.g.nb s.g.j s.g.i
  high : s.g.c ≠ 0 → s.g.h < s.cfg.tper.toNat

theorem slotLen_slot {c : Cfg} {nb j i : Nat} (hi : i ≤ 7) :
    slotLen c nb ((8 * j + (7 - i)) / 8) (7 - (8 * j + (7 - i)) % 8) = slotLen c nb j i := by
  congr 1 <;> omega

/-- The end-of-slot part (R99), from a state `u` one cycle on in the slot: the next cycle of the burst, or its end. -/
theorem burstAdvance_pos {a : Nat} {u : State} (hp : u.g.phase = .burst) (hi : u.g.i ≤ 7)
    (hj : u.g.j < u.g.nb) (hc0 : u.g.c ≤ slotLen u.cfg u.g.nb u.g.j u.g.i) (hh : u.g.h < u.cfg.tper.toNat)
    (hpin : u.cfg.tper.toNat ≤ u.g.c → u.pin = .low) :
    Sat (burstAdvance a u) (fun t => t.cfg = u.cfg ∧ t.g.nb = u.g.nb ∧
      ((InBurst t ∧ burstPos t = burstPos u ∧ Grows (fun e => isMem e = true) u t) ∨
       (t.g.phase = .clkRel ∧ t.pin = .low ∧ burstPos u = burstLength u.cfg u.g.nb ∧
         t.trace = u.trace ++ [burstEvent u.g]))) (fun _ => True) := by
  have hge := slotLen_ge u.cfg u.g.nb
  have hsl := slotLen_slot (c := u.cfg) (nb := u.g.nb) (j := u.g.j) hi
  unfold burstAdvance
  split
  · next hend =>
    have hlast : 8 * u.g.j + (7 - u.g.i) + 1 < 8 * u.g.nb →
        slotStart u.cfg (8 * u.g.j + (7 - u.g.i)) + u.g.c = slotStart u.cfg (8 * u.g.j + (7 - u.g.i) + 1) := by
      intro hlt
      rw [slotStart_succ u.cfg hlt, hsl]
      omega
    split
    · refine ⟨rfl, rfl, .inl ⟨⟨hp, ?_, hj, ?_, ?_⟩, ?_, Grows.of_eq rfl⟩⟩
      · show u.g.i - 1 ≤ 7; omega
      · have := hge u.g.j (u.g.i - 1)
        show 0 < slotLen u.cfg u.g.nb u.g.j (u.g.i - 1)
        omega
      · exact fun h => absurd rfl h
      · show slotStart u.cfg (8 * u.g.j + (7 - (u.g.i - 1))) + 0 = burstPos u
        rw [show 8 * u.g.j + (7 - (u.g.i - 1)) = 8 * u.g.j + (7 - u.g.i) + 1 by omega, ← hlast (by omega)]
        rfl
    · split
      · refine ((memRead_sat (lo := 0) (hi := 0) _).mono (fun x hx => hx) (fun _ _ => trivial)).bind fun x hx => ?_
        refine ⟨hx.cfg, by simp only [hx.g], .inl ⟨⟨?_, ?_, ?_, ?_, ?_⟩, ?_, hx.trace⟩⟩
        · simp only [hx.g, hp]
        · simp only [hx.g]; omega
        · simp only [hx.g]; omega
        · simp only [hx.g, hx.cfg]
          have := hge (u.g.j + 1) 7
          omega
        · simp [hx.g]
        · simp only [burstPos, hx.g, hx.cfg]
          rw [show 8 * (u.g.j + 1) + (7 - 7) = 8 * u.g.j + (7 - u.g.i) + 1 by omega, ← hlast (by omega)]
          rfl
      · refine ⟨rfl, rfl, .inr ⟨rfl, hpin (by have := hge u.g.j u.g.i; omega), ?_, rfl⟩⟩
        rw [burstLength_last u.cfg (by omega), burstPos, hend]
        rw [show 8 * u.g.nb - 1 = 8 * u.g.j + (7 - u.g.i) by omega, hsl]
  · exact ⟨rfl, rfl, .inl ⟨⟨hp, hi, hj, by omega, fun _ => hh⟩, rfl, Grows.of_eq rfl⟩⟩

/-- One burst cycle, whatever the other agents do (R99): the next cycle of the burst, or, after cycle D(NB) − 1, its end with the pin
low. -/
theorem burstCycle_pos {a : Nat} {s : State} (hwf : cfgWf s.cfg = true) (hg : s.cfg.transport = .gpio) (h : InBurst s) :
    Sat (burstCycle a s) (fun t => t.cfg = s.cfg ∧ t.g.nb = s.g.nb ∧
      ((InBurst t ∧ burstPos t = burstPos s + 1 ∧ Grows (fun e => isMem e = true) s t) ∨
       (t.g.phase = .clkRel ∧ t.pin = .low ∧ burstPos s + 1 = burstLength s.cfg s.g.nb ∧
         ∃ t0 ws, t.trace = s.trace ++ [.burst t0 ws]))) (fun _ => True) := by
  obtain ⟨hp, hi, hj, hc, hh⟩ := h
  unfold burstCycle
  cases htk : tick s with
  | fault f => exact absurd htk tick_not_fault
  | refused r => trivial
  | next s1 =>
    rw [andThen_next]
    have hk : MemStep 0 0 s s1 := tick_memStep htk
    have hht := highTime_le hwf hg (s.g.b.getLsbD s.g.i)
    have htr : s1.trace = s.trace := by
      have := (tick_next htk).1.fields
      simp only [this]
    have e : (burstLevel s1).g = { s.g with
        h := if s.g.c = 0 then highTime s.cfg (s.g.b.getLsbD s.g.i) else s.g.h, c := s.g.c + 1 } := by
      simp only [burstLevel, hk.g, hk.cfg]
    have ec : (burstLevel s1).cfg = s.cfg := hk.cfg
    have et : (burstLevel s1).trace = s.trace := htr
    have eh : (if s.g.c = 0 then highTime s.cfg (s.g.b.getLsbD s.g.i) else s.g.h) < s.cfg.tper.toNat := by
      split
      · exact hht.2
      · next hne => exact hh hne
    have epos : burstPos (burstLevel s1) = burstPos s + 1 := by simp only [burstPos, e, ec]; omega
    refine (burstAdvance_pos (a := a) (u := burstLevel s1) ?_ ?_ ?_ ?_ ?_ ?_).mono (fun t ht => ?_) (fun _ _ => trivial)
    · rw [e]; exact hp
    · rw [e]; exact hi
    · rw [e]; exact hj
    · rw [e, ec]; exact hc
    · rw [e, ec]; exact eh
    · rw [e, ec]
      intro hle
      simp only [burstLevel, hk.g, hk.cfg]
      rw [if_neg]
      simp only at hle
      omega
    · obtain ⟨h1, h2, h3⟩ := ht
      refine ⟨h1.trans ec, by rw [h2, e], ?_⟩
      rcases h3 with ⟨h3, h4, h5⟩ | ⟨h3, h4, h5, h6⟩
      · refine .inl ⟨h3, h4.trans epos, ?_⟩
        obtain ⟨new, hn, hpn⟩ := h5
        exact ⟨new, by rw [← et]; exact hn, hpn⟩
      · exact .inr ⟨h3, h4, by rw [← epos, h5, ec, e], _, _, by rw [h6, et]; rfl⟩

/-- The rest of a burst: it ends with cycle D(NB) − 1, the pin low and the Burst event last (R97, R99). -/
theorem burstRun_ends {a : Nat} : ∀ (fuel : Nat) {s : State}, cfgWf s.cfg = true → s.cfg.transport = .gpio → InBurst s →
    burstPos s + fuel = burstLength s.cfg s.g.nb →
    Sat (burstRun a fuel s) (fun t => t.g.phase = .clkRel ∧ t.pin = .low ∧
      ∃ new t0 ws, t.trace = s.trace ++ new ++ [.burst t0 ws] ∧ ∀ e ∈ new, isMem e = true) (fun _ => True) := by
  intro fuel
  induction fuel with
  | zero =>
    intro s hwf hg h hf
    exfalso
    obtain ⟨hp, hi, hj, hc, hh⟩ := h
    have hsl := slotLen_slot (c := s.cfg) (nb := s.g.nb) (j := s.g.j) hi
    have hlt : burstPos s < burstLength s.cfg s.g.nb := by
      by_cases hk : 8 * s.g.j + (7 - s.g.i) + 1 < 8 * s.g.nb
      · have h1 := slotStart_succ s.cfg hk
        have h2 := slotStart_mono s.cfg (show 8 * s.g.j + (7 - s.g.i) + 1 ≤ 8 * s.g.nb - 1 by omega)
        have h3 := burstLength_last s.cfg (nb := s.g.nb) (by omega)
        have h4 := slotLen_ge s.cfg s.g.nb ((8 * s.g.nb - 1) / 8) (7 - (8 * s.g.nb - 1) % 8)
        have h5 := timing_wf hwf hg
        rw [hsl] at h1
        simp only [burstPos]
        omega
      · have h3 := burstLength_last s.cfg (nb := s.g.nb) (by omega)
        rw [show 8 * s.g.nb - 1 = 8 * s.g.j + (7 - s.g.i) by omega, hsl] at h3
        simp only [burstPos]
        omega
    omega
  | succ fuel ih =>
    intro s hwf hg h hf
    simp only [burstRun, h.phase, if_true]
    refine (burstCycle_pos hwf hg h).bind fun t ht => ?_
    obtain ⟨hc, hn, ⟨h1, h2, new, h3, h3'⟩ | ⟨h1, h2, h3, t0, ws, h4⟩⟩ := ht
    · refine (ih (by rw [hc]; exact hwf) (by rw [hc]; exact hg) h1 (by rw [hc, hn]; omega)).mono
        (fun u hu => ?_) (fun _ _ => trivial)
      obtain ⟨u1, u2, new', t0, ws, u3, u4⟩ := hu
      refine ⟨u1, u2, new ++ new', t0, ws, by rw [u3, h3, List.append_assoc s.trace], fun e he => ?_⟩
      rcases List.mem_append.mp he with h | h
      · exact h3' e h
      · exact u4 e h
    · have : fuel = 0 := by omega
      subst this
      exact ⟨h1, h2, [], t0, ws, by simpa using h4, by simp⟩

theorem Sat.and {σ : Type} {o : Out σ} {Q Q' : σ → Prop} {F F' : Fault → Prop} (h : Sat o Q F) (h' : Sat o Q' F') :
    Sat o (fun x => Q x ∧ Q' x) (fun f => F f ∧ F' f) := by
  cases o with
  | next x => exact ⟨h, h'⟩
  | fault f => exact ⟨h, h'⟩
  | refused r => trivial

/-- After BURST the engine is in CLKREL, and the pin is low or as it was (R94, R105). -/
theorem burst_ends {a nb : Nat} {s : State} (hwf : cfgWf s.cfg = true) (hg : s.cfg.transport = .gpio) :
    Sat (burst a nb s) (fun t => t.g.phase = .clkRel ∧ (t.pin = s.pin ∨ t.pin = .low)) (fun _ => True) := by
  unfold burst burstEnter
  by_cases hnb : nb = 0
  · simp only [hnb, if_true, andThen_next, burstLength, burstRun, sat_next]
    exact ⟨rfl, .inl rfl⟩
  · simp only [hnb, if_false]
    rw [andThen_assoc]
    refine ((memRead_sat (lo := 0) (hi := 0) _).mono (fun x hx => hx) (fun _ _ => trivial)).bind fun x hx => ?_
    rw [andThen_next]
    have ht := timing_wf hwf hg
    have hge := slotLen_ge s.cfg nb 0 7
    refine (burstRun_ends _ (by simp only [drew_cfg, hx.cfg]; exact hwf) (by simp only [drew_cfg, hx.cfg]; exact hg) ⟨?_, ?_, ?_, ?_, ?_⟩
      ?_).mono (fun t h => ⟨h.1, .inr h.2.1⟩) (fun _ _ => trivial)
    · simp only [hx.g]
    · simp only [hx.g]; omega
    · simp only [hx.g]; omega
    · simp only [hx.g, drew_cfg, hx.cfg]; omega
    · simp [hx.g]
    · simp [burstPos, hx.g, hx.cfg, slotStart]

/-! ### Acceptance -/

/-- A property of an accepted command's run is one of the command (R144): what is not accepted is refused. -/
theorem accept_sat {t : Transport} {len : Nat → Nat} {s : State} {run : Nat → Nat → State → Out State} {Q : State → Prop}
    {F : Fault → Prop}
    (h : s.cfg.transport = t → s.status.ready = true → s.status.state = .idle →
      operandA s + len (operandN s) ≤ addressSpace → 
        Sat (run (operandA s) (operandN s) { s with race := .over (operandA s) (len (operandN s)) }) Q F) :
    Sat (accept t len s run) Q F := by
  unfold accept
  split
  · trivial
  · split
    · trivial
    · split
      · trivial
      · split
        · trivial
        · next h1 h2 h3 h4 => exact h (by simpa using h1) (by simpa using h2) (by simpa using h3) (by omega)

/-- Acceptance changes the race record only, and leaves it without a race (R59). -/
theorem keeps_race (s : State) (a n : Nat) : Keeps s { s with race := .over a n } :=
  ⟨rfl, rfl, rfl, rfl, rfl, fun h => ⟨h.1, by simp [Race.over]⟩, fun h => ⟨⟨h.1, rfl⟩, rfl, rfl, rfl, rfl, rfl⟩⟩

theorem gpioKeeps_race (lo hi : Nat) (s : State) (a n : Nat) : GpioKeeps lo hi s { s with race := .over a n } :=
  ⟨keeps_race s a n, rfl, rfl, rfl, rfl, fun _ _ _ => rfl⟩

theorem spiKeeps_race (s : State) (a n : Nat) : SpiKeeps s { s with race := .over a n } :=
  ⟨keeps_race s a n, rfl, rfl, rfl, rfl, fun _ => rfl⟩

/-- An accepted command that is alone runs in quiet. -/
theorem quiet_accepted {s : State} (h : Alone s) (a n : Nat) : Quiet { s with race := .over a n } := ⟨h, rfl⟩

/-! ### UPDATE_RGB.GPIO -/

/-- What an UPDATE_RGB.GPIO leaves (R106, R112, R113, R157): `masks` are the IRQ_MASK changes among its events. -/
structure GpioDone (lo hi : Nat) (s t : State) : Prop extends GpioKeeps lo hi s t where
  idle : t.status.state = .idle
  race : t.race = .empty
  irqMask : t.irqMask = if (replyAt s 0).error = 0 then false else s.irqMask
  pin : t.pin = s.pin ∨ t.pin = .low
  result : t.status.result = .ok ∧ t.status.detail = 0 ∨ t.status.result = .clockControlFailure
  trace : ∃ new, t.trace = s.trace ++ new ∧ new.filter (fun e => isMask true e || isMask false e) =
    if (replyAt s 0).error = 0 then [.mask true, .mask false] else []

theorem filter_mask_of_isMem {l : List Event} (h : ∀ e ∈ l, isMem e = true) :
    l.filter (fun e => isMask true e || isMask false e) = [] := by
  rw [List.filter_eq_nil_iff]
  intro e he
  have := h e he
  cases e <;> simp_all [isMem, isMask]

theorem filter_mask_of_burst {l : List Event} (h : ∀ e ∈ l, isMem e = true ∨ ∃ t0 ws, e = .burst t0 ws) :
    l.filter (fun e => isMask true e || isMask false e) = [] := by
  rw [List.filter_eq_nil_iff]
  intro e he
  rcases h e he with h | ⟨t0, ws, rfl⟩
  · cases e <;> simp_all [isMem, isMask]
  · simp [isMask]

/-- Steps 3 to 6 of UPDATE_RGB.GPIO (R106). -/
theorem gpioTransmit_sat {a n : Nat} {s : State} (hwf : cfgWf s.cfg = true) (hg : s.cfg.transport = .gpio) :
    Sat (gpioTransmit a n s) (fun t => GpioKeeps a (a + stride s.cfg * n) s t ∧ t.status.state = .idle ∧ t.race = .empty ∧
      t.irqMask = false ∧ (t.pin = s.pin ∨ t.pin = .low) ∧
      (t.status.result = .ok ∧ t.status.detail = 0 ∨ t.status.result = .clockControlFailure) ∧
      ∃ new, t.trace = s.trace ++ new ∧
        new.filter (fun e => isMask true e || isMask false e) = [.mask true, .mask false]) (fun _ => True) := by
  unfold gpioTransmit
  have h0 : GpioKeeps a (a + stride s.cfg * n) s (setMask true { s with clkReq := true }) :=
    ⟨Keeps.of_same rfl rfl rfl rfl rfl rfl rfl rfl rfl rfl rfl rfl rfl, rfl, rfl, rfl, rfl, fun _ _ _ => rfl⟩
  refine (((burst_sat (lo := a) (hi := a + stride s.cfg * n) _).and
    (burst_ends (s := setMask true { s with clkReq := true }) hwf hg)).mono (fun x hx => hx) (fun _ _ => trivial)).bind fun u hu => ?_
  obtain ⟨hk, -, hpin⟩ := hu
  have h1 : GpioKeeps a (a + stride s.cfg * n) u (setMask false u) :=
    ⟨Keeps.of_same rfl rfl rfl rfl rfl rfl rfl rfl rfl rfl rfl rfl rfl, rfl, rfl, rfl, rfl, fun _ _ _ => rfl⟩
  refine (gpioRelease_sat (lo := a) (hi := a + stride s.cfg * n) (setMask false u)).mono (fun t ht => ?_) (fun _ h => h)
  obtain ⟨k1, k2, k3, k4, k5, k6, ans, r, d, k7⟩ := ht
  refine ⟨((h0.trans hk.toGpioKeeps).trans h1).trans k1, k4, k5, k3.trans rfl, by rw [k2]; exact hpin, k6, ?_⟩
  obtain ⟨new, hn, hp⟩ := hk.trace
  refine ⟨[.mask true] ++ new ++ [.mask false] ++ [.clkRel ans, .done r d], ?_, ?_⟩
  · rw [k7]
    simp only [setMask, emit_trace] at hn ⊢
    rw [hn]
    simp
  · rw [List.filter_append, List.filter_append, List.filter_append, filter_mask_of_burst hp]
    rfl

/-- UPDATE_RGB.GPIO on latched operands, all of it (R106). -/
theorem gpioRgb_sat {a n : Nat} {s : State} (hwf : cfgWf s.cfg = true) (hg : s.cfg.transport = .gpio) :
    Sat (gpioRgb a n s) (fun t => GpioDone a (a + stride s.cfg * n) s t) (fun _ => True) := by
  unfold gpioRgb layoutInplace
  have h0 : GpioKeeps a (a + stride s.cfg * n) s (setPhase .layout (setState .transmitting s)) :=
    ⟨Keeps.of_same rfl rfl rfl rfl rfl rfl rfl rfl rfl rfl rfl rfl rfl, rfl, rfl, rfl, rfl, fun _ _ _ => rfl⟩
  refine ((layoutFrom_sat (lo := a) (hi := a + stride s.cfg * n) (a := a) (i := 0) (k := n)
    (setPhase .layout (setState .transmitting s)) hwf (by simp) (by simp)).mono (fun x hx => hx) (fun _ _ => trivial)).bind
      fun u hu => ?_
  have h1 : GpioKeeps a (a + stride s.cfg * n) u (setPhase .clkReq u) :=
    ⟨Keeps.of_same rfl rfl rfl rfl rfl rfl rfl rfl rfl rfl rfl rfl rfl, rfl, rfl, rfl, rfl, fun _ _ _ => rfl⟩
  refine (clockRequest_sat (setPhase .clkReq u)).bind fun x hx => ?_
  obtain ⟨hans, hask⟩ := hx
  have hrep : (replyAt (setPhase .clkReq u) 0).error = (replyAt s 0).error := by
    rw [show replyAt (setPhase .clkReq u) 0 = replyAt u 0 from rfl, hu.reply]
    rfl
  have h2 := ((h0.trans hu.toGpio).trans h1).trans (hask.toGpio a (a + stride s.cfg * n))
  obtain ⟨new, hn, hp⟩ := hu.trace
  have htr : x.2.trace = s.trace ++ (new ++ [.clkReq (answerOfWord (replyAt s 0).error)]) := by
    rw [hask.trace, hrep]
    simp only [setPhase] at hn ⊢
    rw [hn]
    simp
  have hpin : x.2.pin = s.pin := hask.pin.trans hu.pin
  have hmask : x.2.irqMask = s.irqMask := hask.irqMask.trans hu.irqMask
  rw [hrep] at hans
  by_cases he : (replyAt s 0).error = 0
  · have hx1 : x.1 = .ok := by rw [hans]; exact answerOfWord_eq_ok.mpr he
    simp only [hx1]
    have hst : stride x.2.cfg = stride s.cfg := by rw [h2.cfg]
    refine (gpioTransmit_sat (by rw [h2.cfg]; exact hwf) (by rw [h2.cfg]; exact hg)).mono (fun t ht => ?_) (fun _ h => h)
    obtain ⟨k1, k2, k3, k4, k5, k6, new', k7, k8⟩ := ht
    rw [hst] at k1
    refine ⟨h2.trans k1, k2, k3, by rw [if_pos he, k4], by rw [← hpin]; exact k5, k6,
      _, by rw [k7, htr, List.append_assoc], ?_⟩
    rw [List.filter_append, List.filter_append, filter_mask_of_isMem hp, k8, if_pos he]
    rfl
  · have hx1 : x.1 = .fail (replyAt s 0).error := by rw [hans, answerOfWord, if_neg he]
    simp only [hx1]
    refine (complete_sat (lo := a) (hi := a + stride s.cfg * n) _ _ x.2).mono (fun t ht => ?_) (fun _ h => h)
    obtain ⟨v, hv, hvt, rfl⟩ := ht
    refine ⟨(h2.trans hv.toGpio).trans (finish_gpioKeeps _ _ _ _ v), rfl, rfl,
      by rw [if_neg he]; exact hv.irqMask.trans hmask, .inl (hv.pin.trans hpin), .inr rfl, _,
      by simp only [finish_trace, hvt, htr, List.append_assoc]; rfl, ?_⟩
    rw [List.filter_append, List.filter_append, filter_mask_of_isMem hp, if_neg he]
    rfl

/-! ### The SPI commands -/

/-- A bus write event as R127 and R131 have it: what was sent is a first part of the bytes, all of them if the answer is ok, no error
is 0, and a reset write is the RESET_FRAMES zero bytes. -/
def WriteOk (c : Cfg) (e : Event) : Prop :=
  ∀ kind bytes ans sent, e = .bus kind bytes ans sent →
    (sent <+: bytes ∧ (ans = .ok → sent = bytes) ∧ ans ≠ .fail 0) ∧ (kind = .reset → bytes = resetBytes c)

theorem writeOk_busEvent {c : Cfg} {kind : BusKind} {bytes : List Byte} (r : Reply) (hr : kind = .reset → bytes = resetBytes c) :
    WriteOk c (busEvent kind bytes r) := by
  intro k b ans sent he
  simp only [busEvent, Event.bus.injEq] at he
  obtain ⟨rfl, rfl, rfl, rfl⟩ := he
  refine ⟨⟨sentPart_isFirstPart _ _, fun h => ?_, answerOfWord_ne_fail_zero _⟩, hr⟩
  rw [answerOfWord_eq_ok] at h
  simp [sentPart, h]

theorem writeOk_of_isMem {c : Cfg} {e : Event} (h : isMem e = true) : WriteOk c e := by
  intro k b ans sent he
  subst he
  cases h

theorem writeOk_done (c : Cfg) (r : ResultCode) (d : BitVec 16) : WriteOk c (.done r d) := by
  intro k b ans sent he
  cases he

theorem busLabels_of_isMem {l : List Event} (h : ∀ e ∈ l, isMem e = true) : l.filterMap busLabel = [] := by
  rw [List.filterMap_eq_nil_iff]
  intro e he
  have := h e he
  cases e <;> simp_all [isMem, busLabel]

/-- The events of an SPI command: `k` pairs of a DATA and a reset write, each as R127 and R131 have it. -/
def Pairs (k : Nat) (s t : State) : Prop :=
  t.cfg = s.cfg ∧ ∃ new, t.trace = s.trace ++ new ∧ new.filterMap busLabel = (List.replicate k [BusKind.data, BusKind.reset]).flatten ∧
    ∀ e ∈ new, WriteOk s.cfg e

theorem Pairs.trans {k l : Nat} {s t u : State} (h : Pairs k s t) (h' : Pairs l t u) : Pairs (k + l) s u := by
  obtain ⟨c1, n1, e1, f1, p1⟩ := h
  obtain ⟨c2, n2, e2, f2, p2⟩ := h'
  rw [c1] at p2
  refine ⟨c2.trans c1, n1 ++ n2, by rw [e2, e1, List.append_assoc], ?_, fun e he => ?_⟩
  · rw [List.filterMap_append, f1, f2, List.replicate_add, List.flatten_append]
  · rcases List.mem_append.mp he with h | h
    · exact p1 e h
    · exact p2 e h

theorem Pairs.of_mem {s t : State} (hc : t.cfg = s.cfg) (h : Grows (fun e => isMem e = true) s t) : Pairs 0 s t := by
  obtain ⟨new, hn, hp⟩ := h
  exact ⟨hc, new, hn, by rw [busLabels_of_isMem hp]; rfl, fun e he => writeOk_of_isMem (hp e he)⟩

theorem Pairs.of_finish (r : ResultCode) (d : Word) (s : State) : Pairs 0 s (finish r d s) :=
  ⟨rfl, [.done r (d.truncate 16)], rfl, rfl, fun e he => by rw [List.mem_singleton.mp he]; exact writeOk_done _ _ _⟩

theorem Pairs.of_pair {s t : State} {bytes : List Byte} {r r' : Reply} (hc : t.cfg = s.cfg)
    (h : t.trace = s.trace ++ [busEvent .data bytes r, busEvent .reset (resetBytes s.cfg) r']) : Pairs 1 s t := by
  refine ⟨hc, _, h, rfl, fun e he => ?_⟩
  simp only [List.mem_cons, List.not_mem_nil, or_false] at he
  rcases he with rfl | rfl
  · exact writeOk_busEvent _ (fun h => by cases h)
  · exact writeOk_busEvent _ (fun _ => rfl)

/-- UPDATE_RGB.SPI on latched operands, all of it (R118). -/
theorem spiRgb_sat {a n : Nat} {s : State} (hs : s.cfg.transport = .spi) :
    Sat (spiRgb a n s) (fun t => SpiKeeps s t ∧ t.status.state = .idle ∧ t.race = .empty ∧ t.chbuf = s.chbuf ∧ t.sJ = s.sJ ∧
        (s.stage.length = stageBytes s.cfg → t.stage.length = stageBytes s.cfg) ∧
        ((t.status.result = .ok ∨ t.status.result = .capacityExceeded) ∧ t.status.detail = 0 ∨ t.status.result = .busFailure) ∧
        ∃ k, k ≤ 1 ∧ Pairs k s t)
      (fun f => f.left.status.state = .encoding ∧ Pairs 0 s f.left) := by
  unfold spiRgb
  split
  · exact ⟨finish_spiKeeps _ _ s, rfl, rfl, rfl, rfl, id, .inl ⟨.inr rfl, rfl⟩, 0, by omega, Pairs.of_finish _ _ s⟩
  · next hcap =>
    unfold encodeStage
    have h0 : SpiKeeps s { setState .encoding s with sI := 0 } := SpiKeeps.of_engine s .encoding s.stage s.chbuf 0 s.sJ
    refine ((encodeFrom_sat (a := a) (k := n) (i := 0) { setState .encoding s with sI := 0 }).mono (fun u hu => hu)
      (fun f hf => ⟨by rw [hf.status]; rfl, Pairs.of_mem hf.cfg hf.trace⟩)).bind fun u hu => ?_
    obtain ⟨hu, hlen⟩ := hu
    have hpu : Pairs 0 s u := Pairs.of_mem hu.cfg hu.trace
    refine (dataThenLatch_sat u).bind fun x hx => ?_
    obtain ⟨hk, hans, htr, hst, hsg, hcb, hsi, hsj, hrep⟩ := hx
    refine (complete_sat (lo := 0) (hi := 0) _ _ x.2).mono (fun t ht => ?_) (fun _ h => h)
    obtain ⟨v, hv, hvt, rfl⟩ := ht
    have hpv : Pairs 0 x.2 v := Pairs.of_mem hv.cfg hv.trace
    refine ⟨((h0.trans hu.toSpiKeeps).trans hk).trans (hv.toSpi.trans (finish_spiKeeps _ _ v)), rfl, rfl, ?_, ?_, fun hl => ?_, ?_, 1,
      by omega, ?_⟩
    · simp only [finish_chbuf, hv.chbuf, hcb, hu.chbuf]; rfl
    · simp only [finish_sJ, hv.sJ, hsj, hu.sJ]; rfl
    · simp only [finish_stage, hv.stage, hsg]
      rw [hlen ?_]
      · exact hl
      · show 8 * (stride s.cfg * (0 + n)) ≤ s.stage.length
        rw [hl, stageBytes, hs]
        have : stride s.cfg * n ≤ stride s.cfg * s.cfg.maxPixels.toNat := Nat.mul_le_mul_left _ (by omega)
        simp only [Nat.zero_add]
        rw [Nat.mul_assoc]
        omega
    · simp only [finish_status, rgbSpiResult]
      cases x.1.1 with
      | fail e => exact .inr rfl
      | ok =>
        cases x.1.2 with
        | fail e => exact .inr rfl
        | ok => exact .inl ⟨.inl rfl, rfl⟩
    · exact (hpu.trans (Pairs.of_pair hk.cfg htr)).trans (hpv.trans (Pairs.of_finish _ _ v))

/-- The start of a channel (R40, R124): STATE is ENCODING after it. -/
theorem channelStart_sat {j : Nat} {F : Fault → Prop} (s : State) :
    Sat (channelStart j s) (fun t => SpiKeeps s t ∧ t.status.state = .encoding ∧ t.stage = s.stage ∧ t.sI = s.sI ∧ Pairs 0 s t) F := by
  have hset : ∀ u : State, SpiKeeps u (setState .encoding u) := fun u => SpiKeeps.of_engine u .encoding u.stage u.chbuf u.sI u.sJ
  unfold channelStart
  split
  · exact ⟨hset s, rfl, rfl, rfl, Pairs.of_mem rfl (Grows.of_eq rfl)⟩
  · refine (enterState_sat (lo := 0) (hi := 0) _ s).mono (fun t ht => ?_) (fun _ h => h)
    obtain ⟨u, hu, hut, rfl⟩ := ht
    exact ⟨hu.toSpi.trans (hset u), rfl, hu.stage, hu.sI, Pairs.of_mem hu.cfg (Grows.of_eq hut)⟩

/-- The end of a command on the SPI transport that has left IDLE (R146). -/
theorem complete_spi_sat {F : Fault → Prop} (r : ResultCode) (d : Word) (s : State) :
    Sat (complete r d s) (fun t => SpiKeeps s t ∧ t.status.state = .idle ∧ t.race = .empty ∧ t.stage = s.stage ∧ t.sI = s.sI ∧
      t.chbuf = s.chbuf ∧ t.status.result = r ∧ t.status.detail = d.truncate 16 ∧ Pairs 0 s t) F := by
  refine (complete_sat (lo := 0) (hi := 0) r d s).mono (fun t ht => ?_) (fun _ h => h)
  obtain ⟨u, hu, hut, rfl⟩ := ht
  have hp : Pairs 0 s u := Pairs.of_mem hu.cfg hu.trace
  exact ⟨hu.toSpi.trans (finish_spiKeeps _ _ u), rfl, rfl, hu.stage, hu.sI, hu.chbuf, rfl, rfl,
    by simpa using hp.trans (Pairs.of_finish r d u)⟩

/-- The end of UPDATE_CHANNELS.SPI (R124). -/
theorem channelsDone_sat {j : Nat} {F : Fault → Prop} (s : State) :
    Sat (channelsDone j s) (fun t => SpiKeeps s t ∧ t.status.state = .idle ∧ t.race = .empty ∧ t.stage = s.stage ∧ t.sI = s.sI ∧
      t.chbuf = s.chbuf ∧ t.status.result = .ok ∧ t.status.detail = 0 ∧ Pairs 0 s t) F := by
  unfold channelsDone
  split
  · exact ⟨finish_spiKeeps _ _ s, rfl, rfl, rfl, rfl, rfl, rfl, rfl, Pairs.of_finish _ _ s⟩
  · exact complete_spi_sat .ok 0 s

/-- One channel of UPDATE_CHANNELS.SPI up to its two answers (R124). -/
theorem channelSend_sat {a j : Nat} (s : State) :
    Sat (channelSend a j s) (fun x => SpiKeeps s x.2 ∧ x.2.stage = s.stage ∧ x.2.sI = s.sI ∧ x.2.chbuf.length = 8 ∧ Pairs 1 s x.2)
      (fun f => f.left.status.state = .encoding ∧ Pairs 0 s f.left) := by
  unfold channelSend
  refine ((channelStart_sat (j := j) (F := fun f => f.left.status.state = .encoding ∧ Pairs 0 s f.left) { s with sJ := j })).bind
    fun w hw => ?_
  obtain ⟨h0', hws, hwstage, hwsI, hwp⟩ := hw
  have h0 : SpiKeeps s w := (SpiKeeps.of_engine s s.status.state s.stage s.chbuf s.sI j).trans h0'
  have hwp' : Pairs 0 s w := hwp
  refine ((memRead_sat (lo := 0) (hi := 0) w).mono (fun x hx => hx)
    (fun f hf => ⟨by rw [hf.status]; exact hws, by simpa using hwp'.trans (Pairs.of_mem hf.cfg hf.trace)⟩)).bind fun x hx => ?_
  have hp : Pairs 0 s x.2 := by simpa using hwp'.trans (Pairs.of_mem hx.cfg hx.trace)
  refine (dataThenLatch_sat _).mono (fun y hy => ?_) (fun _ h => h)
  obtain ⟨hk, hans, htr, hst, hsg, hcb, hsi, hsj, hrep⟩ := hy
  have h1 : SpiKeeps x.2 { x.2 with chbuf := ser x.2.cfg x.1 } :=
    ⟨Keeps.of_same rfl rfl rfl rfl rfl rfl rfl rfl rfl rfl rfl rfl rfl, rfl, rfl, rfl, rfl, fun _ => rfl⟩
  refine ⟨((h0.trans hx.toSpi).trans h1).trans hk, by rw [hsg]; exact hx.stage.trans hwstage, by rw [hsi]; exact hx.sI.trans hwsI,
    by rw [hcb]; simp, ?_⟩
  have h2 : Pairs 1 x.2 y.2 := Pairs.of_pair hk.cfg htr
  simpa using hp.trans h2

/-- The channels of an UPDATE_CHANNELS.SPI, all of it (R124). -/
theorem channelsFrom_sat {a k : Nat} : ∀ {j : Nat} (s : State),
    Sat (channelsFrom a j k s) (fun t => SpiKeeps s t ∧ t.status.state = .idle ∧ t.race = .empty ∧ t.stage = s.stage ∧ t.sI = s.sI ∧
        (s.chbuf.length = 8 → t.chbuf.length = 8) ∧
        (t.status.result = .ok ∧ t.status.detail = 0 ∨ t.status.result = .busFailure) ∧ ∃ p, Pairs p s t)
      (fun f => f.left.status.state = .encoding ∧ ∃ p, Pairs p s f.left) := by
  induction k with
  | zero =>
    intro j s
    refine (channelsDone_sat s).mono (fun t ht => ?_) (fun _ h => h)
    obtain ⟨k1, k2, k3, k4, k5, k6, k7, k8, k9⟩ := ht
    exact ⟨k1, k2, k3, k4, k5, fun h => by rw [k6]; exact h, .inl ⟨k7, k8⟩, 0, k9⟩
  | succ k ih =>
    intro j s
    simp only [channelsFrom]
    refine ((channelSend_sat s).mono (fun x hx => hx) (fun f hf => ⟨hf.1, 0, hf.2⟩)).bind fun x hx => ?_
    obtain ⟨hk, hs, hi, hc, hp⟩ := hx
    have hfail : ∀ (e : Word) (F : Fault → Prop), Sat (complete .busFailure e x.2) (fun t => SpiKeeps s t ∧ t.status.state = .idle ∧
        t.race = .empty ∧ t.stage = s.stage ∧ t.sI = s.sI ∧ (s.chbuf.length = 8 → t.chbuf.length = 8) ∧
        (t.status.result = .ok ∧ t.status.detail = 0 ∨ t.status.result = .busFailure) ∧ ∃ p, Pairs p s t) F := by
      intro e F
      refine (complete_spi_sat .busFailure e x.2).mono (fun t ht => ?_) (fun _ h => h)
      obtain ⟨k1, k2, k3, k4, k5, k6, k7, -, k9⟩ := ht
      exact ⟨hk.trans k1, k2, k3, k4.trans hs, k5.trans hi, fun _ => by rw [k6]; exact hc, .inr k7, _, hp.trans k9⟩
    split
    · exact hfail _ _
    · exact hfail _ _
    · refine (ih (j := j + 1) x.2).mono (fun t ht => ?_) (fun f hf => ?_)
      · obtain ⟨k1, k2, k3, k4, k5, k6, k7, p, k8⟩ := ht
        exact ⟨hk.trans k1, k2, k3, k4.trans hs, k5.trans hi, fun _ => k6 hc, k7, _, hp.trans k8⟩
      · obtain ⟨f1, p, f2⟩ := hf
        exact ⟨f1, _, hp.trans f2⟩

end Sys2Proof.Machine
end

