-- ==== Sys2Proof/Laws/Course.lean ====
section
/-! SUPPORT. The course of a command, whatever the other agents do: micro-steps at which they act, changes of the block's own state, and
its writes of host memory, and nothing else. 20_memory.md rule R59; 44_interface.md rules R140, R145. -/

namespace Sys2Proof.Machine

/-- From `s` to `t` the block changed its own state only: not ADDR, COUNT, host memory, its admission, the agents' side, the race record or
the last result; and TRACE only grew. -/
def BlockOnly (s t : State) : Prop :=
  t = { s with
        status := { s.status with state := t.status.state }
        stage := t.stage, chbuf := t.chbuf, g := t.g, sI := t.sI, sJ := t.sJ, pin := t.pin, irqMask := t.irqMask,
        clkReq := t.clkReq, trace := t.trace, replies := t.replies, asked := t.asked, draws := t.draws, cycle := t.cycle } ∧
  s.trace <+: t.trace

/-- What a running command can come to from `s`, other agents acting only where STATE satisfies `P`. -/
inductive Course (P : EngineState → Prop) (s : State) : State → Prop where
  | refl : Course P s s
  | tick {t u : State} : Course P s t → P t.status.state → Machine.tick t = .next u → Course P s u
  | block {t u : State} : Course P s t → BlockOnly t u → Course P s u
  | write {t : State} {a : Nat} (v : Byte) : Course P s t → admitsWrite t a = true → Course P s (emit (.memW a v) (storeNoted t a v))

variable {P : EngineState → Prop}

theorem Course.trans {s t u : State} (h : Course P s t) (h' : Course P t u) : Course P s u := by
  induction h' with
  | refl => exact h
  | tick _ hp ht ih => exact ih.tick hp ht
  | block _ hb ih => exact ih.block hb
  | write v _ ha ih => exact ih.write v ha

/-- `o` comes from `s` by the course of a command, and leaves STATE as it is. -/
def Goes {τ : Type} (P : EngineState → Prop) (s : State) (o : Out τ) (st : τ → State) : Prop :=
  Sat o (fun x => Course P s (st x) ∧ (st x).status.state = s.status.state) fun _ => True

/-- The course of a command, STATE changing. -/
def Ends (P : EngineState → Prop) (s : State) (o : Out State) : Prop :=
  Sat o (fun t => ∃ u r d, Course P s u ∧ t = finish r d u) fun _ => True

theorem Goes.bind {σ τ : Type} {s : State} {o : Out σ} {f : σ → Out τ} {p : σ → State} {q : τ → State} (h : Goes P s o p)
    (hf : ∀ x, (p x).status.state = s.status.state → Goes P (p x) (f x) q) : Goes P s (andThen o f) q :=
  Sat.bind h fun x hx => (hf x hx.2).mono (fun _ hy => ⟨hx.1.trans hy.1, hy.2.trans hx.2⟩) fun _ => id

/-- Changes of the block's own state around it. -/
theorem Goes.near {τ : Type} {s s' : State} {o : Out τ} {p : τ → State} (hb : BlockOnly s s') (hs : s'.status.state = s.status.state)
    (h : Goes P s' o p) : Goes P s o p :=
  h.mono (fun _ hx => ⟨(Course.refl.block hb).trans hx.1, hx.2.trans hs⟩) fun _ => id

theorem tick_goes {s : State} (hp : P s.status.state) : Goes P s (tick s) id := by
  cases h : tick s with
  | next t => exact ⟨Course.refl.tick hp h, by rw [id, (tick_next h).1.fields.2.1]⟩
  | fault f => trivial
  | refused r => trivial

theorem goes_next {τ : Type} {s : State} {x : τ} {p : τ → State} (hb : BlockOnly s (p x))
    (hs : (p x).status.state = s.status.state) : Goes P s (.next x) p := ⟨Course.refl.block hb, hs⟩

/-- A change of the block's own state that leaves TRACE as it is. -/
theorem BlockOnly.quiet {s t : State} (h : t = { s with
        status := { s.status with state := t.status.state }
        stage := t.stage, chbuf := t.chbuf, g := t.g, sI := t.sI, sJ := t.sJ, pin := t.pin, irqMask := t.irqMask,
        clkReq := t.clkReq, trace := t.trace, replies := t.replies, asked := t.asked, draws := t.draws, cycle := t.cycle } := by rfl)
    (ht : t.trace = s.trace := by rfl) : BlockOnly s t := ⟨h, by rw [ht]⟩

/-- A change of the block's own state with one event. -/
theorem BlockOnly.event {s t : State} (e : Event) (ht : t.trace = s.trace ++ [e] := by rfl) (h : t = { s with
        status := { s.status with state := t.status.state }
        stage := t.stage, chbuf := t.chbuf, g := t.g, sI := t.sI, sJ := t.sJ, pin := t.pin, irqMask := t.irqMask,
        clkReq := t.clkReq, trace := t.trace, replies := t.replies, asked := t.asked, draws := t.draws, cycle := t.cycle } := by rfl) :
    BlockOnly s t := ⟨h, by rw [ht]; exact List.prefix_append ..⟩

theorem memRead_goes {a : Nat} {s : State} (hp : P s.status.state) : Goes P s (memRead a s) Prod.snd := by
  refine (tick_goes hp).bind fun u _ => ?_
  unfold id
  split
  · refine goes_next (.event (.memR a (readValue u a)) (afterRead_trace ..) ?_) (by simp)
    unfold afterRead drew emit
    split <;> rfl
  · trivial

theorem memWrite_goes {a : Nat} {v : Byte} {s : State} (hp : P s.status.state) : Goes P s (memWrite a v s) id := by
  refine (tick_goes hp).bind fun u _ => ?_
  unfold id
  split
  · next ha => exact ⟨Course.refl.write v ha, rfl⟩
  · trivial

theorem clockRequest_goes {s : State} (hp : P s.status.state) : Goes P s (clockRequest s) Prod.snd :=
  (tick_goes hp).bind fun _ _ => goes_next (.event _) rfl

theorem clockRelease_goes {s : State} (hp : P s.status.state) : Goes P s (clockRelease s) Prod.snd :=
  (tick_goes hp).bind fun _ _ => goes_next (.event _) rfl

theorem busWrite_goes {k : BusKind} {bytes : List Byte} {s : State} (hp : P s.status.state) : Goes P s (busWrite k bytes s) Prod.snd :=
  (tick_goes hp).bind fun _ _ => goes_next (.event _) rfl

theorem readPixel_goes {a i : Nat} {s : State} (hp : P s.status.state) : Goes P s (readPixel a i s) Prod.snd :=
  (memRead_goes hp).bind fun _ h1 => (memRead_goes (h1 ▸ hp)).bind fun _ h2 =>
    (memRead_goes (by rw [h2, h1]; exact hp)).bind fun _ _ => goes_next .quiet rfl

theorem complete_ends {r : ResultCode} {d : Word} {s : State} (hp : P s.status.state) : Ends P s (complete r d s) :=
  Sat.bind (tick_goes hp) fun u hu => ⟨u, r, d, hu.1, rfl⟩

theorem Goes.ends {σ : Type} {s : State} {o : Out σ} {f : σ → Out State} {p : σ → State} (h : Goes P s o p)
    (hf : ∀ x, (p x).status.state = s.status.state → Ends P (p x) (f x)) : Ends P s (andThen o f) :=
  Sat.bind h fun x hx => (hf x hx.2).mono (fun _ ⟨u, r, d, hu, e⟩ => ⟨u, r, d, hx.1.trans hu, e⟩) fun _ => id

theorem Ends.near {s s' : State} {o : Out State} (hb : BlockOnly s s') (h : Ends P s' o) : Ends P s o :=
  h.mono (fun _ ⟨u, r, d, hu, e⟩ => ⟨u, r, d, (Course.refl.block hb).trans hu, e⟩) fun _ => id

theorem Course.ends {s t : State} {o : Out State} (hc : Course P s t) (h : Ends P t o) : Ends P s o :=
  h.mono (fun _ ⟨u, r, d, hu, e⟩ => ⟨u, r, d, hc.trans hu, e⟩) fun _ => id

/-! ### The GPIO transport -/

theorem layoutWrites_goes {a i : Nat} {w : List Byte} : ∀ {chs : List Channel} {s : State}, P s.status.state →
    Goes P s (layoutWrites a i w chs s) id := by
  intro chs
  induction chs with
  | nil => exact fun _ => ⟨.refl, rfl⟩
  | cons ch rest ih => exact fun hp => (memWrite_goes hp).bind fun _ h => ih (by rw [h]; exact hp)

theorem layoutFrom_goes {a : Nat} : ∀ {k i : Nat} {s : State}, P s.status.state → Goes P s (layoutFrom a i k s) id := by
  intro k
  induction k with
  | zero => exact fun _ => ⟨.refl, rfl⟩
  | succ k ih =>
    intro i s hp
    refine Goes.bind (p := id) ((readPixel_goes hp).bind fun _ h => layoutWrites_goes (by rw [h]; exact hp)) fun _ h => ?_
    exact ih (by rw [h]; exact hp)

theorem burstAdvance_goes {a : Nat} {s : State} (hp : P s.status.state) : Goes P s (burstAdvance a s) id := by
  unfold burstAdvance
  split
  · split
    · exact goes_next .quiet rfl
    · split
      · exact Goes.near (s' := { s with g := { s.g with c := 0, j := s.g.j + 1, i := 7 } }) .quiet rfl
          ((memRead_goes (by exact hp)).bind fun _ _ => goes_next .quiet rfl)
      · exact goes_next (.event _) rfl
  · exact ⟨.refl, rfl⟩

theorem burstRun_goes {a : Nat} : ∀ {fuel : Nat} {s : State}, P s.status.state → Goes P s (burstRun a fuel s) id := by
  intro fuel
  induction fuel with
  | zero => exact fun _ => ⟨.refl, rfl⟩
  | succ fuel ih =>
    intro s hp
    unfold burstRun
    split
    · refine Goes.bind (p := id) ((tick_goes hp).bind fun u h => ?_) fun _ h => ih (by rw [h]; exact hp)
      exact Goes.near (s' := burstLevel u) .quiet rfl (burstAdvance_goes (by rw [show (burstLevel u).status = u.status from rfl]; exact h ▸ hp))
    · exact ⟨.refl, rfl⟩

theorem burst_goes {a nb : Nat} {s : State} (hp : P s.status.state) : Goes P s (burst a nb s) id := by
  refine Goes.bind (p := id) ?_ fun _ h => burstRun_goes (by rw [h]; exact hp)
  unfold burstEnter
  split
  · exact goes_next .quiet rfl
  · exact Goes.near (s' := { s with g := { s.g with nb := nb, j := 0, i := 7, c := 0, phase := .burst } }) .quiet rfl
      ((memRead_goes (by exact hp)).bind fun _ _ => goes_next .quiet rfl)

theorem gpioTransmit_course {a n : Nat} {s : State} (hp : P s.status.state) : Ends P s (gpioTransmit a n s) := by
  refine Ends.near (s' := setMask true { s with clkReq := true }) (.event (.mask true)) ?_
  refine (burst_goes (by exact hp)).ends fun u hu => Ends.near (s' := setMask false u) (.event (.mask false)) ?_
  have hp' : P u.status.state := by rw [show u.status.state = s.status.state from hu]; exact hp
  refine (clockRelease_goes (by exact hp')).ends fun x hx => ?_
  have hx' : P x.2.status.state := by rw [hx]; exact hp'
  split
  · exact Ends.near (s' := setPhase .done { x.2 with clkReq := false }) .quiet (complete_ends hx')
  · exact Ends.near (s' := setPhase .done { drew x.2 with clkReq := Config.freeBit x.2.draws }) .quiet (complete_ends hx')

/-- The course of an UPDATE_RGB.GPIO: other agents act in TRANSMITTING only. -/
theorem gpioRgb_course {a n : Nat} {s : State} (hp : P .transmitting) : Ends P s (gpioRgb a n s) := by
  refine Ends.near (s' := setPhase .layout (setState .transmitting s)) .quiet ?_
  refine (layoutFrom_goes (by exact hp)).ends fun u hu => Ends.near (s' := setPhase .clkReq u) .quiet ?_
  have hp' : P u.status.state := by rw [show u.status.state = .transmitting from hu]; exact hp
  refine (clockRequest_goes (by exact hp')).ends fun x hx => ?_
  have hx' : P x.2.status.state := by rw [hx]; exact hp'
  split
  · exact complete_ends hx'
  · exact gpioTransmit_course hx'

/-! ### The SPI transport -/

theorem encodeFrom_goes {a : Nat} : ∀ {k i : Nat} {s : State}, P s.status.state → Goes P s (encodeFrom a i k s) id := by
  intro k
  induction k with
  | zero => exact fun _ => ⟨.refl, rfl⟩
  | succ k ih =>
    intro i s hp
    refine Goes.bind (p := id) ?_ fun _ h => ih (by rw [h]; exact hp)
    exact Goes.near (s' := { s with sI := i }) .quiet rfl ((readPixel_goes (by exact hp)).bind fun _ _ => goes_next .quiet rfl)

/-- The change of STATE as a micro-step. -/
theorem enterState_course {st : EngineState} {s : State} (hp : P s.status.state) :
    Sat (enterState st s) (fun t => Course P s t ∧ t.status.state = st) fun _ => True :=
  Sat.bind (tick_goes hp) fun _ hu => ⟨hu.1.block .quiet, rfl⟩

theorem dataThenLatch_course {bytes : List Byte} {s : State} (hp : P s.status.state) (ht : P .transmitting) (hl : P .latching) :
    Sat (dataThenLatch bytes s) (fun x => Course P s x.2 ∧ x.2.status.state = .latching) fun _ => True := by
  refine Sat.bind (enterState_course (st := .transmitting) hp) fun u hu => ?_
  refine Sat.bind (busWrite_goes (P := P) (by rw [hu.2]; exact ht)) fun x hx => ?_
  refine Sat.bind (Q' := fun y => Course P s y.2 ∧ y.2.status.state = .latching) ?_ fun y hy => by exact hy
  refine Sat.bind (enterState_course (P := P) (by rw [hx.2, hu.2]; exact ht)) fun v hv => ?_
  exact (busWrite_goes (P := P) (by rw [hv.2]; exact hl)).mono
    (fun _ hy => ⟨((hu.1.trans hx.1).trans hv.1).trans hy.1, hy.2.trans hv.2⟩) fun _ => id

/-- The course of an UPDATE_RGB.SPI: other agents act in ENCODING, TRANSMITTING and LATCHING only. -/
theorem spiRgb_course {a n : Nat} {s : State} (he : P .encoding) (ht : P .transmitting) (hl : P .latching) :
    Ends P s (spiRgb a n s) := by
  unfold spiRgb
  split
  · exact ⟨s, _, _, .refl, rfl⟩
  · refine Ends.near (s' := { setState .encoding s with sI := 0 }) .quiet ?_
    refine (encodeFrom_goes (by exact he)).ends fun u hu => ?_
    have hu' : P u.status.state := by rw [show u.status.state = .encoding from hu]; exact he
    exact Sat.bind (dataThenLatch_course hu' ht hl) fun x hx => hx.1.ends (complete_ends (by rw [hx.2]; exact hl))

/-- The course of an UPDATE_CHANNELS.SPI from channel `j` on. -/
theorem channelsFrom_course {a : Nat} (he : P .encoding) (ht : P .transmitting) (hl : P .latching) :
    ∀ {k j : Nat} {s : State}, (j ≠ 0 → s.status.state = .latching) → Ends P s (channelsFrom a j k s) := by
  intro k
  induction k with
  | zero =>
    intro j s hj
    unfold channelsFrom channelsDone
    split
    · exact ⟨s, _, _, .refl, rfl⟩
    · next h => exact complete_ends (by rw [hj h]; exact hl)
  | succ k ih =>
    intro j s hj
    refine Ends.near (s' := { s with sJ := j }) .quiet ?_
    have h1 : Sat (channelStart j { s with sJ := j }) (fun t => Course P { s with sJ := j } t ∧ t.status.state = .encoding)
        fun _ => True := by
      unfold channelStart
      split
      · exact ⟨Course.refl.block .quiet, rfl⟩
      · next h => exact enterState_course (by rw [show ({ s with sJ := j } : State).status.state = .latching from hj h]; exact hl)
    have h2 : Sat (channelSend a j s) (fun x => Course P { s with sJ := j } x.2 ∧ x.2.status.state = .latching) fun _ => True := by
      refine Sat.bind h1 fun u hu => Sat.bind (memRead_goes (P := P) (by rw [hu.2]; exact he)) fun x hx => ?_
      exact (dataThenLatch_course (s := { x.2 with chbuf := ser x.2.cfg x.1 }) (by rw [hx.2, hu.2]; exact he) ht hl).mono
        (fun _ hy => ⟨((hu.1.trans hx.1).block .quiet).trans hy.1, hy.2⟩) fun _ => id
    refine Sat.bind h2 fun x hx => hx.1.ends ?_
    have hp : P x.2.status.state := by rw [hx.2]; exact hl
    split
    · exact complete_ends hp
    · exact complete_ends hp
    · exact ih fun _ => hx.2

/-- The course of an UPDATE_CHANNELS.SPI. -/
theorem spiChannels_course {a n : Nat} {s : State} (he : P .encoding) (ht : P .transmitting) (hl : P .latching) :
    Ends P s (spiChannels a n s) :=
  Ends.near (s' := { s with sJ := 0 }) .quiet (channelsFrom_course he ht hl fun h => absurd rfl h)

/-! ### The commands -/

/-- An accepted command ran on its latched operands (R144). -/
theorem accept_next {t : Transport} {len : Nat → Nat} {s u : State} {run : Nat → Nat → State → Out State}
    (h : accept t len s run = .next u) :
    run (operandA s) (operandN s) { s with race := .over (operandA s) (len (operandN s)) } = .next u :=
  (accept_accepted fun r hr => by rw [hr] at h; cases h).2.2.2.2 ▸ h

/-- All a completed command did: from its acceptance a course in which other agents acted only while STATE was not IDLE, and was
TRANSMITTING in an UPDATE_RGB.GPIO; then `finish`. -/
theorem exec_course {i : Instr} {s t : State} (hi : IsCommand i) (h : exec i s = .next t) :
    ∃ a n u r d, Course (fun st => st ≠ .idle ∧ (i = .updateRgbGpio → st = .transmitting)) { s with race := .over a n } u ∧
      t = finish r d u := by
  rcases hi with rfl | rfl | rfl | rfl
  · exact ⟨_, _, (gpioRgb_course (by simp)).of_next (accept_next h)⟩
  · change execUpdateChannelsGpio s = _ at h
    cases accept_next h
    exact ⟨_, _, _, _, _, .refl, rfl⟩
  · exact ⟨_, _, (spiRgb_course (by simp) (by simp) (by simp)).of_next (accept_next h)⟩
  · exact ⟨_, _, (spiChannels_course (by simp) (by simp) (by simp)).of_next (accept_next h)⟩

end Sys2Proof.Machine
end

