-- ==== Sys2Proof/Laws/Admission.lean ====
section
/-! SUPPORT. What becomes of the memory's admission while a command runs: the other agents' operations leave it as it is unless a remap is
among them, a layout that went through says what it was, and a burst is stuck only where it refuses a byte. 20_memory.md rule R50;
60_exceptions.md rule R153. -/

namespace Sys2Proof.Machine

/-! ### The other agents and the admission -/

/-- The other agents' operations carried out on the way from `s` to `t` leave the admission as it is, unless a remap is among them. -/
def Acted (s t : State) : Prop :=
  t.cfg = s.cfg ∧ ∃ done, s.others.map Timed.op = done ++ t.others.map Timed.op ∧
    ((∃ rs, AgentOp.remap rs ∈ done) ∨ t.regions = s.regions)

/-- No operation of another agent, and the admission as it was. -/
theorem Acted.of_eq {s t : State} (hc : t.cfg = s.cfg) (ho : t.others = s.others) (hr : t.regions = s.regions) : Acted s t :=
  ⟨hc, [], by rw [ho]; rfl, .inr hr⟩

theorem Acted.trans {s t u : State} (h : Acted s t) (h' : Acted t u) : Acted s u := by
  obtain ⟨hc, l, hl, hr⟩ := h
  obtain ⟨hc', l', hl', hr'⟩ := h'
  refine ⟨hc'.trans hc, l ++ l', by rw [hl, hl', List.append_assoc], ?_⟩
  rcases hr with ⟨rs, hr⟩ | hr
  · exact .inl ⟨rs, List.mem_append_left _ hr⟩
  · rcases hr' with ⟨rs, hr'⟩ | hr'
    · exact .inl ⟨rs, List.mem_append_right _ hr'⟩
    · exact .inr (hr'.trans hr)

/-- A remap carried out first stays carried out. -/
theorem Remapped.trans {s t u : State} (h : Remapped s t) (h' : Acted t u) : Remapped s u := by
  obtain ⟨l, rs, hl, hr⟩ := h
  obtain ⟨-, l', hl', -⟩ := h'
  exact ⟨l ++ l', rs, by rw [hl, hl', List.append_assoc], List.mem_append_left _ hr⟩

/-- And one carried out later is carried out. -/
theorem Acted.remapped {s t u : State} (h : Acted s t) (h' : Remapped t u) : Remapped s u := by
  obtain ⟨-, l, hl, -⟩ := h
  obtain ⟨l', rs, hl', hr⟩ := h'
  exact ⟨l ++ l', rs, by rw [hl, hl', List.append_assoc], List.mem_append_right _ hr⟩

/-- Without a remap every address is admitted as before. -/
theorem Acted.admits {s t : State} (h : Acted s t) :
    Remapped s t ∨ ∀ a, admitsRead t a = admitsRead s a ∧ admitsWrite t a = admitsWrite s a := by
  obtain ⟨hc, l, hl, ⟨rs, hr⟩ | hr⟩ := h
  · exact .inl ⟨l, rs, hl, hr⟩
  · exact .inr fun a => ⟨admitsRead_congr hc hr a, admitsWrite_congr hc hr a⟩

/-- Of the other agents' operations only a remap changes the admission. -/
theorem duringOp_regions {op : AgentOp} {s t : State} (h : duringOp op s = .next t) :
    (∃ rs, op = .remap rs) ∨ t.regions = s.regions := by
  cases op with
  | present code =>
    refine .inr ?_
    simp only [duringOp] at h
    split at h
    · next i _ =>
      cases i <;> simp only [duringInstr, execRd, execWrAddr, execWrCount, execWrRo] at h <;> try split at h
      all_goals cases h
      all_goals rfl
    · cases h
  | memLoad a =>
    refine .inr ?_
    simp only [duringOp] at h
    split at h
    · cases h; unfold agentLoaded; split <;> rfl
    · cases h
  | memStore a v =>
    refine .inr ?_
    simp only [duringOp] at h
    split at h
    · cases h; unfold agentStored; split <;> rfl
    · cases h
  | remap rs => exact .inl ⟨rs, rfl⟩

theorem runDue_acted : ∀ {ops : List Timed} {s t : State}, runDue ops s = .next t →
    ∃ done, ops.map Timed.op = done ++ t.others.map Timed.op ∧ ((∃ rs, AgentOp.remap rs ∈ done) ∨ t.regions = s.regions)
  | [], s, t, h => by cases h; exact ⟨[], rfl, .inr rfl⟩
  | ⟨0, op⟩ :: rest, s, t, h => by
    obtain ⟨u, h1, h2⟩ := andThen_eq_next h
    obtain ⟨l, hl, hr⟩ := runDue_acted h2
    refine ⟨op :: l, by simp [hl], ?_⟩
    rcases duringOp_regions h1 with ⟨rs, rfl⟩ | h1
    · exact .inl ⟨rs, by simp⟩
    · rcases hr with ⟨rs, hr⟩ | hr
      · exact .inl ⟨rs, by simp [hr]⟩
      · exact .inr (hr.trans h1)
  | ⟨d + 1, op⟩ :: rest, s, t, h => by cases h; exact ⟨[], rfl, .inr rfl⟩

/-- What the other agents do before a micro-step. -/
theorem tick_acted {s t : State} (h : tick s = .next t) : Acted s t :=
  ⟨(tick_next h).1.fields.1, runDue_acted h⟩

/-- And along the course of a command. -/
theorem Course.acted {P : EngineState → Prop} {s t : State} (h : Course P s t) : Acted s t := by
  induction h with
  | refl => exact .of_eq rfl rfl rfl
  | tick _ _ ht ih => exact ih.trans (tick_acted ht)
  | block _ hb ih => exact ih.trans (by rw [hb.1]; exact .of_eq rfl rfl rfl)
  | write v _ _ ih => exact ih.trans (.of_eq rfl rfl rfl)

/-! ### What a layout that went through says of the admission -/

/-- What could be read can be read, unless a remap came. -/
theorem Acted.read {s t : State} (h : Acted s t) {a : Nat} (ha : admitsRead s a = true) : Remapped s t ∨ admitsRead t a = true :=
  h.admits.imp_right fun h => (h a).1.trans ha

/-- After a pixel's writes each byte written can be read, unless a remap came. -/
theorem layoutWrites_admits {a i : Nat} {w : List Byte} : ∀ {chs : List Channel} {s t : State}, layoutWrites a i w chs s = .next t →
    Acted s t ∧ (Remapped s t ∨ ∀ ch ∈ chs, admitsRead t (wireAddr s.cfg a i ch) = true) := by
  intro chs
  induction chs with
  | nil => intro s t h; cases h; exact ⟨.of_eq rfl rfl rfl, .inr (by simp)⟩
  | cons ch rest ih =>
    intro s t h
    obtain ⟨u, h1, h2⟩ := andThen_eq_next h
    obtain ⟨v, h3, h4, rfl⟩ := memWrite_next h1
    have hv := tick_acted h3
    have hu : Acted s (emit (.memW (wireAddr s.cfg a i ch) (w.getD (order s.cfg ch) 0))
        (storeNoted v (wireAddr s.cfg a i ch) (w.getD (order s.cfg ch) 0))) :=
      hv.trans (.of_eq rfl rfl rfl)
    obtain ⟨ht, hr⟩ := ih h2
    refine ⟨hu.trans ht, ?_⟩
    rcases ht.read (a := wireAddr s.cfg a i ch) (admitsRead_of_admitsWrite h4) with h5 | h5
    · exact .inl (hu.remapped h5)
    · rcases hr with hr | hr
      · exact .inl (hu.remapped hr)
      · refine .inr fun d hd => ?_
        rcases List.mem_cons.mp hd with rfl | hd
        · exact h5
        · have := hr d hd; rwa [hu.1] at this

/-- After a run of pixels every byte of their wire records can be read, unless a remap came. -/
theorem layoutFrom_admits {a : Nat} : ∀ {k i : Nat} {s t : State}, cfgWf s.cfg = true → layoutFrom a i k s = .next t →
    Acted s t ∧ (Remapped s t ∨ ∀ j, stride s.cfg * i ≤ j → j < stride s.cfg * (i + k) → admitsRead t (a + j) = true) := by
  intro k
  induction k with
  | zero => intro i s t _ h; cases h; exact ⟨.of_eq rfl rfl rfl, .inr fun j h1 h2 => by simp at h2; omega⟩
  | succ k ih =>
    intro i s t hwf h
    obtain ⟨u, h1, h2⟩ := andThen_eq_next h
    obtain ⟨p, h3, h4⟩ := andThen_eq_next h1
    have hp : Acted s p.2 := ((readPixel_goes (P := fun _ => True) trivial).of_next h3).1.acted
    obtain ⟨hu, hr⟩ := layoutWrites_admits h4
    obtain ⟨ht, hr'⟩ := ih (by rw [(hp.trans hu).1]; exact hwf) h2
    refine ⟨(hp.trans hu).trans ht, ?_⟩
    rcases hr with hr | hr
    · exact .inl ((hp.remapped hr).trans ht)
    rcases hr' with hr' | hr'
    · exact .inl ((hp.trans hu).remapped hr')
    rcases ht.admits with h5 | h5
    · exact .inl ((hp.trans hu).remapped h5)
    refine .inr fun j h6 h7 => ?_
    rw [(hp.trans hu).1] at hr'
    by_cases hj : j < stride s.cfg * (i + 1)
    · rw [Nat.mul_succ] at hj
      obtain ⟨ch, hc, ho⟩ := order_surjective hwf (p := j - stride s.cfg * i) (by omega)
      have := hr ch (by rw [hp.1]; exact hc)
      rw [hp.1] at this
      rw [(h5 _).1, show a + j = wireAddr s.cfg a i ch by simp only [wireAddr]; omega]
      exact this
    · exact hr' j (by omega) (by rw [show i + 1 + k = i + (k + 1) by omega]; exact h7)

/-- Where a burst is stuck: at a byte of its range that memory does not admit. -/
def BurstStuck (a nb : Nat) (s : State) (f : Fault) : Prop :=
  ∃ u j, Acted s u ∧ j < nb ∧ admitsRead u (a + j) = false ∧ f.left = settle u

theorem memRead_stuck {a nb j : Nat} {s : State} (hj : j < nb) :
    Sat (memRead (a + j) s) (fun x => Acted s x.2) (BurstStuck a nb s) := by
  cases h : memRead (a + j) s with
  | next x => exact ((memRead_goes (P := fun _ => True) trivial).of_next h).1.acted
  | fault f =>
    obtain ⟨u, h1, h2, rfl⟩ := memRead_fault h
    exact ⟨u, j, tick_acted h1, hj, h2, rfl⟩
  | refused r => trivial

theorem BurstStuck.near {a nb : Nat} {s t : State} {f : Fault} (h : Acted s t) (h' : BurstStuck a nb t f) : BurstStuck a nb s f := by
  obtain ⟨u, j, h1, h2⟩ := h'
  exact ⟨u, j, h.trans h1, h2⟩

theorem burstAdvance_stuck {a nb : Nat} {s : State} (hn : s.g.nb = nb) :
    Sat (burstAdvance a s) (fun t => Acted s t ∧ t.g.nb = nb) (BurstStuck a nb s) := by
  unfold burstAdvance
  split
  · split
    · exact ⟨.of_eq rfl rfl rfl, hn⟩
    · split
      · next hj =>
        refine Sat.bind (((memRead_stuck (by omega)).and (memRead_sat (lo := 0) (hi := 0) _)).mono (fun _ h => h) fun f h =>
          BurstStuck.near (.of_eq rfl rfl rfl) h.1) fun x hx => ?_
        refine ⟨Acted.trans (.of_eq rfl rfl rfl) (hx.1.trans (.of_eq rfl rfl rfl)), ?_⟩
        have := hx.2.g
        simp only [this, hn]
      · exact ⟨.of_eq rfl rfl rfl, hn⟩
  · exact ⟨.of_eq rfl rfl rfl, hn⟩

theorem burstRun_stuck {a nb : Nat} : ∀ {fuel : Nat} {s : State}, s.g.nb = nb →
    Sat (burstRun a fuel s) (fun _ => True) (BurstStuck a nb s) := by
  intro fuel
  induction fuel with
  | zero => exact fun _ => trivial
  | succ fuel ih =>
    intro s hn
    unfold burstRun
    split
    · refine Sat.bind (Q' := fun t => Acted s t ∧ t.g.nb = nb) ?_ fun t ht => (ih ht.2).mono (fun _ h => h) fun f h => h.near ht.1
      cases h : tick s with
      | next u =>
        unfold burstCycle
        rw [h, andThen_next]
        have hu := tick_acted h
        have hu' : Acted s (burstLevel u) := hu.trans (.of_eq rfl rfl rfl)
        exact (burstAdvance_stuck (by rw [show (burstLevel u).g.nb = u.g.nb from rfl, (tick_next h).1.fields.2.2.2.2.1, hn])).mono
          (fun t ht => ⟨hu'.trans ht.1, ht.2⟩) fun f hf => hf.near hu'
      | fault f => exact absurd h tick_not_fault
      | refused r => unfold burstCycle; rw [h]; trivial
    · trivial

/-- Where a burst can be stuck (R98, R99). -/
theorem burst_stuck {a nb : Nat} {s : State} : Sat (burst a nb s) (fun _ => True) (BurstStuck a nb s) := by
  unfold burst burstEnter
  split
  · next h => subst h; simp [burstLength, burstRun, Sat, andThen]
  · rw [andThen_assoc]
    refine Sat.bind (((memRead_stuck (by omega)).and (memRead_sat (lo := 0) (hi := 0) _)).mono (fun _ h => h) fun f h =>
          BurstStuck.near (.of_eq rfl rfl rfl) h.1) fun x hx => ?_
    rw [andThen_next]
    refine (burstRun_stuck (by have := hx.2.g; simp [this])).mono (fun _ h => h) fun f h => h.near ?_
    exact Acted.trans (.of_eq rfl rfl rfl) (hx.1.trans (.of_eq rfl rfl rfl))

end Sys2Proof.Machine
end

