-- ==== Sys2Proof/Laws/Alone.lean ====
section
/-! SUPPORT. The parts of the commands alone on their memory: what each answers, as an equation, when the memory admits its
accesses. -/

namespace Sys2Proof.Machine

/-! ### The GPIO transport -/

/-- The start of the first slot, after burst entry alone. -/
theorem burstEnter_alone {a : Nat} {ws : List Byte} {s : State} (ho : s.others = [])
    (hr : s.race.raced = []) (hne : ws ≠ [])
    (hm : ∀ j, j < ws.length → admitsRead s (a + j) = true ∧ memGet s.mem (a + j) = ws.getD j 0) :
    burstEnter a ws.length s = .next { s with
      draws := s.draws + 1
      cycle := s.cycle + Config.freeNat s.draws
      trace := s.trace ++ [.memR a (ws.getD 0 0)]
      g := { s.g with nb := ws.length, j := 0, i := 7, c := 0, phase := .burst, b := ws.getD 0 0,
                      start := s.cycle + Config.freeNat s.draws, sent := [ws.getD 0 0] } } := by
  have hn : ws.length ≠ 0 := by simpa using hne
  have h0 := hm 0 (by omega)
  rw [Nat.add_zero] at h0
  simp only [burstEnter, hn, if_false, Nat.add_zero]
  rw [memRead_alone (s := { s with g := { s.g with nb := ws.length, j := 0, i := 7, c := 0, phase := .burst } }) ho hr
    (by rw [← h0.1]; exact admitsRead_congr rfl rfl _)]
  simp only [andThen_next, h0.2]
  rfl

/-- The state burst entry leaves is at the start of slot 0. -/
theorem atSlot_zero {a : Nat} {ws : List Byte} {s : State} (hb : s.g.b = ws.getD 0 0) (hn : s.g.nb = ws.length)
    (hj : s.g.j = 0) (hi : s.g.i = 7) (hc : s.g.c = 0) (hp : s.g.phase = .burst) (hs : s.g.sent = [ws.getD 0 0])
    (hne : ws ≠ []) : AtSlot s a ws 0 s := by
  refine ⟨by simp [slotStart], hn, hj, hi, hc, hb, hp, rfl, ?_, fun h => by omega⟩
  rw [hs]
  cases ws with
  | nil => exact absurd rfl hne
  | cons w ws => simp

/-- BURST alone (R97 to R99, R102): the pin low at its end, every wire byte read once in order, then the Burst event. -/
theorem burst_alone {a : Nat} {ws : List Byte} {s : State} (hwf : cfgWf s.cfg = true) (hg : s.cfg.transport = .gpio)
    (ho : s.others = []) (hr : s.race.raced = [])
    (hm : ∀ j, j < ws.length → admitsRead s (a + j) = true ∧ memGet s.mem (a + j) = ws.getD j 0) :
    ∃ g t0 draws, s.cycle ≤ t0 ∧ g.phase = .clkRel ∧ burst a ws.length s = .next { s with
      pin := if ws = [] then s.pin else .low
      cycle := if ws = [] then s.cycle else t0 + burstLength s.cfg ws.length
      draws := draws
      g := g
      trace := s.trace ++ burstEvents ws a t0 } := by
  by_cases hne : ws = []
  · subst hne
    exact ⟨_, s.cycle, s.draws, Nat.le_refl _, rfl, by simp [burst, burstEnter, burstLength, burstRun, setPhase, burstEvents]; rfl⟩
  · have he := burstEnter_alone ho hr hne hm
    obtain ⟨g, hgp, hrun⟩ := burstRun_whole (a := a) (ws := ws) (s := { s with
      draws := s.draws + 1
      cycle := s.cycle + Config.freeNat s.draws
      trace := s.trace ++ [.memR a (ws.getD 0 0)]
      g := { s.g with nb := ws.length, j := 0, i := 7, c := 0, phase := .burst, b := ws.getD 0 0,
                      start := s.cycle + Config.freeNat s.draws, sent := [ws.getD 0 0] } }) hwf hg ho hr hne
      (fun j hj => ⟨by rw [← (hm j hj).1]; exact admitsRead_congr rfl rfl _, (hm j hj).2⟩)
      (atSlot_zero rfl rfl rfl rfl rfl rfl rfl hne)
    refine ⟨g, s.cycle + Config.freeNat s.draws, s.draws + 1, Nat.le_add_right _ _, hgp, ?_⟩
    simp only [burst]
    rw [he, andThen_next, hrun]
    have hl : ws.length = (ws.length - 1) + 1 := by have := List.length_pos_of_ne_nil hne; omega
    have hrange : (List.range ws.length).map (fun j => Event.memR (a + j) (ws.getD j 0)) =
        .memR a (ws.getD 0 0) :: (List.range (ws.length - 1)).map (fun j => .memR (a + (j + 1)) (ws.getD (j + 1) 0)) := by
      conv => lhs; rw [hl, List.range_succ_eq_map]
      simp
    simp only [hne, if_false, burstEvents, hrange, List.append_assoc]
    rfl

/-! ### The SPI transport -/

/-- One pixel of ENCODE_STAGE alone (R119). -/
theorem encodePixel_alone {a i : Nat} {s : State} (ho : s.others = []) (hr : s.race.raced = [])
    (ha : ∀ k, k < 3 → admitsRead s (recordAddr s.cfg a i k) = true) :
    encodePixel a i s = .next { s with
      sI := i
      trace := s.trace ++ recordReads s.cfg s.mem a i
      stage := overwrite s.stage (8 * (stride s.cfg * i)) (serAll s.cfg (wireOf s.cfg (pixelAt s.cfg s.mem a i))) } := by
  unfold encodePixel
  rw [readPixel_alone (s := { s with sI := i }) ho hr (fun k hk => by rw [← ha k hk]; exact admitsRead_congr rfl rfl _)]
  rfl

/-- ENCODE_STAGE alone, from pixel `i` on (R119): STAGE holds the frames of the pixels so far and keeps its rest. -/
theorem encodeFrom_alone {a n : Nat} : ∀ {k i : Nat} {s : State}, i + k = n → s.others = [] → s.race.raced = [] →
    RecordsReadable s a n → ∀ rest : List Byte, s.stage = serAll s.cfg (wireStream s.cfg s.mem a i) ++ rest →
    8 * (stride s.cfg * k) ≤ rest.length →
    ∃ sI, encodeFrom a i k s = .next { s with
      sI := sI
      trace := s.trace ++ (List.range' i k).flatMap (recordReads s.cfg s.mem a)
      stage := serAll s.cfg (wireStream s.cfg s.mem a n) ++ rest.drop (8 * (stride s.cfg * k)) } := by
  intro k
  induction k with
  | zero =>
    intro i s hn ho hr ha rest hs hl
    refine ⟨s.sI, ?_⟩
    rw [← hn]
    simp [encodeFrom, ← hs]
  | succ k ih =>
    intro i s hn ho hr ha rest hs hl
    simp only [encodeFrom]
    rw [encodePixel_alone ho hr (ha i (by omega)), andThen_next]
    have hL : 8 * (stride s.cfg * i) = (serAll s.cfg (wireStream s.cfg s.mem a i)).length := by simp
    have hw : (serAll s.cfg (wireOf s.cfg (pixelAt s.cfg s.mem a i))).length = 8 * stride s.cfg := by simp
    rw [Nat.mul_succ] at hl
    obtain ⟨sI, h⟩ := ih (i := i + 1) (s := { s with
      sI := i
      trace := s.trace ++ recordReads s.cfg s.mem a i
      stage := overwrite s.stage (8 * (stride s.cfg * i)) (serAll s.cfg (wireOf s.cfg (pixelAt s.cfg s.mem a i))) })
      (by omega) ho hr (fun j hj b hb => by rw [← ha j hj b hb]; exact admitsRead_congr rfl rfl _)
      (rest.drop (8 * stride s.cfg)) (by
        simp only [overwrite, hs, hL, hw, wireStream_succ, serAll_append]
        rw [List.take_left, List.drop_append]
        simp [List.drop_eq_nil_of_le])
      (by simp only [List.length_drop]; omega)
    refine ⟨sI, ?_⟩
    rw [h]
    simp only [List.range'_succ, List.flatMap_cons, List.append_assoc, List.drop_drop, Nat.mul_succ]
    congr 3
    congr 1
    omega

/-- A DATA write and its reset write, alone (R122, R132). -/
theorem dataThenLatch_alone {bytes : List Byte} {s : State} (ho : s.others = []) :
    dataThenLatch bytes s = .next ((answerOfWord (replyAt s 0).error, answerOfWord (replyAt s 1).error), { s with
      status := { s.status with state := .latching }
      trace := s.trace ++ [busEvent .data bytes (replyAt s 0), busEvent .reset (resetBytes s.cfg) (replyAt s 1)]
      replies := s.replies.drop 2
      asked := s.asked + 2 }) := by
  simp only [dataThenLatch, latch, andThen_assoc]
  rw [enterState_alone ho, andThen_next, busWrite_alone (by exact ho), andThen_next, enterState_alone (by exact ho), andThen_next,
    busWrite_alone (by exact ho), andThen_next]
  have e1 : replyAt (setState .latching (emit (.bus .data bytes (answerOfWord (replyAt (setState .transmitting s) 0).error)
      (sentPart bytes (replyAt (setState .transmitting s) 0))) (tookReply (setState .transmitting s)))) 0 = replyAt s 1 :=
    replyAt_tookReply s 0
  rw [e1]
  simp [emit, tookReply, setState, busEvent, resetBytes, replyAt]

/-- The state one channel of UPDATE_CHANNELS.SPI leaves before its answers are looked at, alone (R124). -/
def channelLeft (a j : Nat) (s : State) : State :=
  { s with
    status := { s.status with state := .latching }
    sJ := j
    chbuf := ser s.cfg (memGet s.mem (a + j))
    trace := s.trace ++ [.memR (a + j) (memGet s.mem (a + j)),
      busEvent .data (ser s.cfg (memGet s.mem (a + j))) (replyAt s 0), busEvent .reset (resetBytes s.cfg) (replyAt s 1)]
    replies := s.replies.drop 2
    asked := s.asked + 2 }

theorem replyAt_channelLeft (a j : Nat) (s : State) (k : Nat) : replyAt (channelLeft a j s) k = replyAt s (2 + k) := by
  simp only [channelLeft, replyAt, List.getElem?_drop, Nat.add_assoc]

/-- The start of a channel alone (R40). -/
theorem channelStart_alone {j : Nat} {s : State} (ho : s.others = []) : channelStart j s = .next (setState .encoding s) := by
  unfold channelStart
  split
  · rfl
  · exact enterState_alone ho

/-- The end of UPDATE_CHANNELS.SPI alone (R124). -/
theorem channelsDone_alone {j : Nat} {s : State} (ho : s.others = []) : channelsDone j s = .next (finish .ok 0 s) := by
  unfold channelsDone
  split
  · rfl
  · exact complete_alone ho

/-- One channel of UPDATE_CHANNELS.SPI alone (R124). -/
theorem channelSend_alone {a j : Nat} {s : State} (ho : s.others = []) (hr : s.race.raced = [])
    (ha : admitsRead s (a + j) = true) :
    channelSend a j s =
      .next ((answerOfWord (replyAt s 0).error, answerOfWord (replyAt s 1).error), channelLeft a j s) := by
  unfold channelSend
  rw [channelStart_alone (by exact ho), andThen_next]
  rw [memRead_alone (s := setState .encoding { s with sJ := j }) ho hr (by rw [← ha]; exact admitsRead_congr rfl rfl _), andThen_next]
  rw [dataThenLatch_alone (by exact ho)]
  simp [emit, setState, replyAt, channelLeft]

/-- What `j` channels whose writes all succeed leave (R124). -/
structure ChannelsSent (a j : Nat) (s t : State) : Prop where
  same : t = { s with status := t.status, sJ := t.sJ, chbuf := t.chbuf, trace := t.trace, replies := t.replies, asked := t.asked }
  ready : t.status.ready = s.status.ready
  trace : t.trace = s.trace ++ (List.range j).flatMap fun i =>
    [.memR (a + i) (memGet s.mem (a + i)), busEvent .data (ser s.cfg (memGet s.mem (a + i))) (replyAt s (2 * i)),
      busEvent .reset (resetBytes s.cfg) (replyAt s (2 * i + 1))]
  reply : ∀ k, replyAt t k = replyAt s (2 * j + k)

/-- One more channel. -/
theorem ChannelsSent.succ {a j : Nat} {s t : State} (h : ChannelsSent a j s t) :
    ChannelsSent a (j + 1) s (channelLeft a j t) := by
  obtain ⟨hs, hrd, ht, hrep⟩ := h
  have hmem : t.mem = s.mem := by rw [hs]
  have hcfg : t.cfg = s.cfg := by rw [hs]
  refine ⟨?_, hrd, ?_, fun k => ?_⟩
  · rw [hs]; rfl
  · show t.trace ++ _ = _
    rw [ht, hmem, hcfg, hrep, hrep, List.range_succ, List.flatMap_append]
    simp
  · rw [replyAt_channelLeft, hrep]
    congr 1
    omega

/-- The first `j` channels alone, when all their writes succeed (R124): the command goes on with channel `j`. -/
theorem channelsFrom_ok_alone {a n : Nat} {s : State} (ho : s.others = []) (hr : s.race.raced = [])
    (ha : BytesReadable s a n) : ∀ j, j ≤ n → (∀ k, k < 2 * j → (replyAt s k).error = 0) →
    ∃ t, channelsFrom a 0 n s = channelsFrom a j (n - j) t ∧ ChannelsSent a j s t := by
  intro j
  induction j with
  | zero => intro _ _; exact ⟨s, rfl, rfl, rfl, by simp, fun k => by simp⟩
  | succ j ih =>
    intro hj hk
    obtain ⟨t, h1, h2⟩ := ih (by omega) (fun k h => hk k (by omega))
    obtain ⟨m, hm⟩ : ∃ m, n - j = m + 1 := ⟨n - j - 1, by omega⟩
    have hs := h2.same
    have r0 : (replyAt t 0).error = 0 := by rw [h2.reply]; exact hk _ (by omega)
    have r1 : (replyAt t 1).error = 0 := by rw [h2.reply]; exact hk _ (by omega)
    have hsend := channelSend_alone (a := a) (j := j) (s := t) (by rw [hs]; exact ho) (by rw [hs]; exact hr)
      (by rw [← ha j (by omega)]; exact admitsRead_congr (by rw [hs]) (by rw [hs]) _)
    rw [r0, r1] at hsend
    refine ⟨channelLeft a j t, ?_, h2.succ⟩
    rw [h1, hm, show n - (j + 1) = m by omega]
    simp only [channelsFrom]
    rw [hsend, andThen_next]
    simp [answerOfWord]

end Sys2Proof.Machine
end

