-- ==== Sys2Proof/Laws/Waiting.lean ====
section
/-! SUPPORT. Register accesses of other agents during a command: they never change its course (`Sim`), and one of them falls at a
known moment of a command that runs through (`Runs`). 44_interface.md rules R140, R142, R145. -/

namespace Sys2Proof.Machine

/-- `s` with other values of ADDR, COUNT and the loads, and other operations still to come. -/
def put (a n : Word) (l : List (Reg × Word)) (o : List Timed) (s : State) : State :=
  { s with addr := a, count := n, loads := l, others := o }

theorem put_self (s : State) : put s.addr s.count s.loads s.others s = s := rfl

theorem put_put (a n a' n' : Word) (l l' : List (Reg × Word)) (o o' : List Timed) (s : State) :
    put a n l o (put a' n' l' o' s) = put a n l o s := rfl

/-! ### Accesses never change the course of a command -/

/-- Every operation still to come is a register access. -/
def Accesses (s : State) : Prop := ∀ tm ∈ s.others, isRegisterAccess s.cfg tm.op = true

/-- Two states that differ only in ADDR, COUNT, the loads and the register accesses still to come. -/
def Sim (s t : State) : Prop := (∃ a n l o, t = put a n l o s) ∧ Accesses s ∧ Accesses t

/-- Outcomes alike up to `R`. -/
def SimOut {σ : Type} (R : σ → σ → Prop) : Out σ → Out σ → Prop
  | .next x, .next y => R x y
  | .fault (.stuckRead a s), .fault (.stuckRead b t) => a = b ∧ Sim s t
  | .fault (.stuckWrite a s), .fault (.stuckWrite b t) => a = b ∧ Sim s t
  | .refused r, .refused r' => r = r'
  | _, _ => False

theorem SimOut.bind {σ τ : Type} {R : σ → σ → Prop} {Q : τ → τ → Prop} {o o' : Out σ} {f f' : σ → Out τ} (h : SimOut R o o')
    (hf : ∀ x y, R x y → SimOut Q (f x) (f' y)) : SimOut Q (andThen o f) (andThen o' f') := by
  rcases o with x | (⟨a, s⟩ | ⟨a, s⟩) | r <;> rcases o' with y | (⟨b, t⟩ | ⟨b, t⟩) | r' <;>
    first | exact hf _ _ h | exact h | exact False.elim h

theorem SimOut.ite {σ : Type} {R : σ → σ → Prop} {c : Prop} [Decidable c] {o o' p p' : Out σ} (h : c → SimOut R o o')
    (h' : ¬ c → SimOut R p p') : SimOut R (if c then o else p) (if c then o' else p') := by
  split
  · exact h ‹_›
  · exact h' ‹_›

/-- A change of the state that ADDR, COUNT, the loads and the other agents have no part in. -/
theorem Sim.map {s t : State} (h : Sim s t) (F : State → State)
    (hp : ∀ a n l o u, F (put a n l o u) = put a n l o (F u) := by intros; rfl)
    (hc : ∀ u, (F u).cfg = u.cfg := by intros; rfl) (ho : ∀ u, (F u).others = u.others := by intros; rfl) :
    Sim (F s) (F t) := by
  obtain ⟨⟨a, n, l, o, rfl⟩, hs, ht⟩ := h
  refine ⟨⟨a, n, l, o, hp ..⟩, ?_, ?_⟩ <;> simpa only [Accesses, hc, ho] using ‹_›

theorem Sim.cfg {s t : State} (h : Sim s t) : t.cfg = s.cfg := by obtain ⟨⟨a, n, l, o, rfl⟩, -, -⟩ := h; rfl

/-- The decoder gives WR.RO at a read-only register only (R143). -/
theorem readOnly_of_decode {t : Transport} {base : Word} {code : Code} {r : Reg} {v : Word}
    (h : decode t base code = .ok (.wrRo r v)) : r.readOnly = true := by
  have hs : ∀ q w, storeInstr q w = .wrRo r v → r.readOnly = true := by
    intro q w h
    cases q <;> cases h <;> rfl
  cases code with
  | cmd c => simp only [decode, decodeCmd] at h; split at h <;> try split at h
             all_goals (try cases t) <;> simp at h
  | bus a =>
    cases a with
    | load b w => simp only [decode, decodeAccess] at h; split at h <;> simp at h
    | store b d =>
      simp only [decode, decodeAccess] at h
      split at h
      · exact hs _ _ (Except.ok.inj h)
      · cases h

/-- What a register access does while a command runs. -/
theorem duringOp_access {op : AgentOp} {s : State} (h : isRegisterAccess s.cfg op = true) :
    ∃ a n l, duringOp op s = .next (put a n l s.others s) := by
  cases op with
  | present code =>
    simp only [isRegisterAccess] at h
    cases hd : decode s.cfg.transport s.cfg.regBase code with
    | error e => rw [hd] at h; cases h
    | ok i =>
      rw [hd] at h
      simp only [duringOp, hd]
      cases i with
      | rd r => exact ⟨_, _, _, rfl⟩
      | wrAddr v => exact ⟨_, _, _, rfl⟩
      | wrCount v => exact ⟨_, _, _, rfl⟩
      | wrRo r v =>
        have hr := readOnly_of_decode hd
        exact ⟨_, _, _, by simp only [duringInstr, execWrRo, hr, if_true]; rfl⟩
      | _ => cases h
  | memLoad a => cases h
  | memStore a v => cases h
  | remap rs => cases h

theorem runDue_accesses : ∀ {ops : List Timed} {s : State}, (∀ tm ∈ ops, isRegisterAccess s.cfg tm.op = true) →
    ∃ a n l o, runDue ops s = .next (put a n l o s) ∧ ∀ tm ∈ o, isRegisterAccess s.cfg tm.op = true := by
  intro ops
  induction ops with
  | nil => intro s _; exact ⟨_, _, _, _, rfl, by simp⟩
  | cons tm rest ih =>
    intro s h
    obtain ⟨d, op⟩ := tm
    cases d with
    | zero =>
      obtain ⟨a, n, l, he⟩ := duringOp_access (h ⟨0, op⟩ (by simp))
      obtain ⟨a', n', l', o, h1, h2⟩ := ih (s := put a n l s.others s) fun tm ht => h tm (by simp [ht])
      exact ⟨a', n', l', o, by simp only [runDue, he, andThen_next, h1, put_put], h2⟩
    | succ d =>
      refine ⟨_, _, _, _, rfl, fun tm ht => ?_⟩
      rcases List.mem_cons.mp ht with rfl | ht
      · exact h ⟨d + 1, op⟩ (by simp)
      · exact h tm (by simp [ht])

theorem tick_sim {s t : State} (h : Sim s t) : SimOut Sim (tick s) (tick t) := by
  obtain ⟨⟨a, n, l, o, rfl⟩, hs, ht⟩ := h
  obtain ⟨a1, n1, l1, o1, h1, k1⟩ := runDue_accesses hs
  obtain ⟨a2, n2, l2, o2, h2, k2⟩ := runDue_accesses ht
  simp only [tick, h1, h2]
  exact ⟨⟨a2, n2, l2, o2, rfl⟩, k1, k2⟩

/-- A micro-step does not see them. -/
theorem ticked_sim {σ : Type} {R : σ → σ → Prop} {f : State → Out σ} {s t : State} (h : Sim s t)
    (hf : ∀ u v, Sim u v → SimOut R (f u) (f v)) : SimOut R (andThen (tick s) f) (andThen (tick t) f) :=
  (tick_sim h).bind hf

/-- A value and the state after it, alike. -/
abbrev SimVal {α : Type} (x y : α × State) : Prop := y.1 = x.1 ∧ Sim x.2 y.2

theorem enterState_sim {st : EngineState} {s t : State} (h : Sim s t) : SimOut Sim (enterState st s) (enterState st t) :=
  ticked_sim h fun _ _ h => h.map (setState st)

theorem finish_sim {r : ResultCode} {d : Word} {s t : State} (h : Sim s t) : Sim (finish r d s) (finish r d t) :=
  h.map (finish r d)

theorem complete_sim {r : ResultCode} {d : Word} {s t : State} (h : Sim s t) : SimOut Sim (complete r d s) (complete r d t) :=
  ticked_sim h fun _ _ h => finish_sim h

theorem memRead_sim {a : Nat} {s t : State} (h : Sim s t) : SimOut SimVal (memRead a s) (memRead a t) := by
  refine ticked_sim h fun u v h => ?_
  have ha : admitsRead v a = admitsRead u a := by obtain ⟨⟨a, n, l, o, rfl⟩, -, -⟩ := h; rfl
  have hv : readValue v a = readValue u a := by obtain ⟨⟨a, n, l, o, rfl⟩, -, -⟩ := h; rfl
  rw [ha, hv]
  split
  · refine ⟨rfl, ?_⟩
    unfold afterRead drew emit
    obtain ⟨⟨b, n, l, o, rfl⟩, hs, ht⟩ := h
    simp only [show (put b n l o u).race = u.race from rfl]
    split <;> exact ⟨⟨b, n, l, o, rfl⟩, hs, ht⟩
  · exact ⟨rfl, h.map settle⟩

theorem memWrite_sim {a : Nat} {v : Byte} {s t : State} (h : Sim s t) : SimOut Sim (memWrite a v s) (memWrite a v t) := by
  refine ticked_sim h fun u w h => ?_
  have ha : admitsWrite w a = admitsWrite u a := by obtain ⟨⟨a, n, l, o, rfl⟩, -, -⟩ := h; rfl
  rw [ha]
  split
  · exact h.map (fun u => emit (.memW a v) (storeNoted u a v))
  · exact ⟨rfl, h.map settle⟩

/-- Oracle calls do not see them. -/
theorem oracle_sim {e : State → Event} {s t : State} (he : ∀ a n l o u, e (put a n l o u) = e u) (h : Sim s t) :
    SimOut SimVal
      (andThen (tick s) fun u => .next (answerOfWord (replyAt u 0).error, emit (e u) (tookReply u)))
      (andThen (tick t) fun u => .next (answerOfWord (replyAt u 0).error, emit (e u) (tookReply u))) := by
  refine ticked_sim h fun u v h => ?_
  refine ⟨?_, h.map (fun u => emit (e u) (tookReply u)) (fun a n l o u => by simp only [he]; rfl)⟩
  obtain ⟨⟨a, n, l, o, rfl⟩, -, -⟩ := h
  rfl

theorem clockRequest_sim {s t : State} (h : Sim s t) : SimOut SimVal (clockRequest s) (clockRequest t) :=
  oracle_sim (e := fun u => .clkReq (answerOfWord (replyAt u 0).error)) (fun _ _ _ _ _ => rfl) h

theorem clockRelease_sim {s t : State} (h : Sim s t) : SimOut SimVal (clockRelease s) (clockRelease t) :=
  oracle_sim (e := fun u => .clkRel (answerOfWord (replyAt u 0).error)) (fun _ _ _ _ _ => rfl) h

theorem busWrite_sim {k : BusKind} {bytes : List Byte} {s t : State} (h : Sim s t) :
    SimOut SimVal (busWrite k bytes s) (busWrite k bytes t) :=
  oracle_sim (e := fun u => .bus k bytes (answerOfWord (replyAt u 0).error) (sentPart bytes (replyAt u 0)))
    (fun _ _ _ _ _ => rfl) h

theorem readPixel_sim {a i : Nat} {s t : State} (h : Sim s t) : SimOut SimVal (readPixel a i s) (readPixel a i t) := by
  unfold readPixel
  rw [h.cfg]
  exact (memRead_sim h).bind fun x x' hx => (memRead_sim hx.2).bind fun y y' hy => (memRead_sim hy.2).bind fun z z' hz =>
    ⟨by rw [hx.1, hy.1, hz.1], hz.2⟩

theorem layoutWrites_sim {a i : Nat} {w : List Byte} : ∀ {chs : List Channel} {s t : State}, Sim s t →
    SimOut Sim (layoutWrites a i w chs s) (layoutWrites a i w chs t) := by
  intro chs
  induction chs with
  | nil => exact fun h => h
  | cons ch rest ih =>
    intro s t h
    simp only [layoutWrites]
    rw [h.cfg]
    exact (memWrite_sim h).bind fun _ _ h => ih h

theorem layoutFrom_sim {a : Nat} : ∀ {k i : Nat} {s t : State}, Sim s t → SimOut Sim (layoutFrom a i k s) (layoutFrom a i k t) := by
  intro k
  induction k with
  | zero => exact fun h => h
  | succ k ih =>
    intro i s t h
    refine SimOut.bind ?_ fun _ _ h => ih h
    refine (readPixel_sim h).bind fun x y hx => ?_
    rw [hx.1, hx.2.cfg]
    exact layoutWrites_sim hx.2

theorem burstAdvance_sim {a : Nat} {s t : State} (h : Sim s t) : SimOut Sim (burstAdvance a s) (burstAdvance a t) := by
  have h0 := h
  obtain ⟨⟨b, n, l, o, rfl⟩, -, -⟩ := h0
  refine SimOut.ite (c := s.g.c = slotLen s.cfg s.g.nb s.g.j s.g.i) (fun _ => ?_) fun _ => h
  refine SimOut.ite (c := s.g.i > 0) (fun _ => ?_) fun _ => ?_
  · exact h.map (fun u => { u with g := { u.g with c := 0, i := u.g.i - 1 } })
  refine SimOut.ite (c := s.g.j + 1 < s.g.nb) (fun _ => ?_) fun _ => ?_
  · refine (memRead_sim (h.map (fun u => { u with g := { u.g with c := 0, j := u.g.j + 1, i := 7 } }))).bind fun x y hx => ?_
    rw [hx.1]
    exact hx.2.map (fun u => { u with g := { u.g with b := x.1, sent := u.g.sent ++ [x.1] } })
  · exact h.map (fun u => leaveBurst { u with g := { u.g with c := 0 } })

theorem burstCycle_sim {a : Nat} {s t : State} (h : Sim s t) : SimOut Sim (burstCycle a s) (burstCycle a t) :=
  ticked_sim h fun _ _ h => burstAdvance_sim (h.map burstLevel)

theorem burstRun_sim {a : Nat} : ∀ {fuel : Nat} {s t : State}, Sim s t → SimOut Sim (burstRun a fuel s) (burstRun a fuel t) := by
  intro fuel
  induction fuel with
  | zero => exact fun h => h
  | succ fuel ih =>
    intro s t h
    simp only [burstRun]
    have hg : t.g = s.g := by obtain ⟨⟨a, n, l, o, rfl⟩, -, -⟩ := h; rfl
    rw [hg]
    split
    · exact (burstCycle_sim h).bind fun _ _ h => ih h
    · exact h

theorem burst_sim {a nb : Nat} {s t : State} (h : Sim s t) : SimOut Sim (burst a nb s) (burst a nb t) := by
  unfold burst
  rw [h.cfg]
  refine SimOut.bind ?_ fun _ _ h => burstRun_sim h
  unfold burstEnter
  split
  · exact h.map (fun u => setPhase .clkRel { u with g := { u.g with nb := nb } })
  · refine (memRead_sim (h.map (fun u => { u with g := { u.g with nb := nb, j := 0, i := 7, c := 0, phase := .burst } }))).bind fun x y hx => ?_
    rw [hx.1]
    exact hx.2.map (fun u => { drew u with
        cycle := u.cycle + Config.freeNat u.draws
        g := { u.g with b := x.1, start := u.cycle + Config.freeNat u.draws, sent := [x.1] } })

theorem gpioTransmit_sim {a n : Nat} {s t : State} (h : Sim s t) : SimOut Sim (gpioTransmit a n s) (gpioTransmit a n t) := by
  have h0 := h
  obtain ⟨⟨b, m, l, o, rfl⟩, -, -⟩ := h0
  unfold gpioTransmit
  refine (burst_sim (h.map (fun u => setMask true { u with clkReq := true }))).bind fun u v h => ?_
  refine (clockRelease_sim (h.map (setMask false))).bind fun x y hx => ?_
  rw [hx.1]
  split
  · exact complete_sim (hx.2.map (fun u => setPhase .done { u with clkReq := false }))
  · exact complete_sim (hx.2.map (fun u => setPhase .done { drew u with clkReq := Config.freeBit u.draws }))

/-- UPDATE_RGB.GPIO does not see register accesses. -/
theorem gpioRgb_sim {a n : Nat} {s t : State} (h : Sim s t) : SimOut Sim (gpioRgb a n s) (gpioRgb a n t) := by
  refine (layoutFrom_sim (h.map (fun u => setPhase .layout (setState .transmitting u)))).bind fun u v h => ?_
  refine (clockRequest_sim (h.map (setPhase .clkReq))).bind fun x y hx => ?_
  rw [hx.1]
  split
  · exact complete_sim hx.2
  · exact gpioTransmit_sim hx.2

theorem encodeFrom_sim {a : Nat} : ∀ {k i : Nat} {s t : State}, Sim s t → SimOut Sim (encodeFrom a i k s) (encodeFrom a i k t) := by
  intro k
  induction k with
  | zero => exact fun h => h
  | succ k ih =>
    intro i s t h
    refine SimOut.bind ?_ fun _ _ h => ih h
    refine (readPixel_sim (h.map (fun u => { u with sI := i }))).bind
      fun x y hx => ?_
    rw [hx.1]
    exact hx.2.map (fun u => { u with
        stage := overwrite u.stage (8 * (stride u.cfg * i))
          (serAll u.cfg (wireOf u.cfg { r := x.1.1, g := x.1.2.1, b := x.1.2.2 })) })

theorem dataThenLatch_sim {bytes : List Byte} {s t : State} (h : Sim s t) :
    SimOut SimVal (dataThenLatch bytes s) (dataThenLatch bytes t) := by
  refine (enterState_sim h).bind fun u v h => (busWrite_sim h).bind fun x x' hx => ?_
  refine SimOut.bind (R := SimVal) ?_ fun y y' hy => ⟨by rw [hx.1, hy.1], hy.2⟩
  unfold latch
  rw [hx.2.cfg]
  exact (enterState_sim hx.2).bind fun u v h => busWrite_sim h

/-- UPDATE_RGB.SPI does not see register accesses. -/
theorem spiRgb_sim {a n : Nat} {s t : State} (h : Sim s t) : SimOut Sim (spiRgb a n s) (spiRgb a n t) := by
  unfold spiRgb
  rw [h.cfg]
  split
  · exact finish_sim h
  · refine (encodeFrom_sim (h.map (fun u => { setState .encoding u with sI := 0 }))).bind fun u v h => ?_
    have hst : v.stage = u.stage := by obtain ⟨⟨a, n, l, o, rfl⟩, -, -⟩ := h; rfl
    rw [hst, h.cfg]
    refine (dataThenLatch_sim h).bind fun x y hx => ?_
    rw [hx.1]
    exact complete_sim hx.2

theorem channelSend_sim {a j : Nat} {s t : State} (h : Sim s t) : SimOut SimVal (channelSend a j s) (channelSend a j t) := by
  have h := h.map (fun u => { u with sJ := j })
  refine SimOut.bind (R := Sim) ?_ fun u v h => (memRead_sim h).bind fun x y hx => ?_
  · unfold channelStart
    split
    · exact h.map (setState .encoding)
    · exact enterState_sim h
  · rw [hx.1, hx.2.cfg]
    exact dataThenLatch_sim (hx.2.map (fun u => { u with chbuf := ser x.2.cfg x.1 }))

/-- UPDATE_CHANNELS.SPI does not see register accesses. -/
theorem channelsFrom_sim {a : Nat} : ∀ {k j : Nat} {s t : State}, Sim s t →
    SimOut Sim (channelsFrom a j k s) (channelsFrom a j k t) := by
  intro k
  induction k with
  | zero =>
    intro j s t h
    simp only [channelsFrom, channelsDone]
    split
    · exact finish_sim h
    · exact complete_sim h
  | succ k ih =>
    intro j s t h
    refine (channelSend_sim h).bind fun x y hx => ?_
    obtain ⟨⟨p, q⟩, u⟩ := x
    obtain ⟨⟨p', q'⟩, v⟩ := y
    obtain ⟨he, h⟩ := hx
    cases he
    cases p <;> cases q <;> first | exact complete_sim h | exact ih h

end Sys2Proof.Machine
end

