-- ==== Sys2Proof/Laws/Moments.lean ====
section
/-! SUPPORT. The moments of a command that runs through (assumption log 7): the list of the STATUS words its micro-steps show, at which of
them another agent's access lands, and that one that is not yet due only comes nearer. 10_state.md rule R40; 44_interface.md
rules R140, R142, R145. -/

namespace Sys2Proof.Machine

/-- The access `x` of another agent, on an instance of configuration `c` that shows STATUS `w`, turns ADDR, COUNT and the loads `a`, `n`,
`l` into `a'`, `n'`, `l'`, and does nothing else. -/
def Lands (c : Cfg) (x : AgentOp) (w a n : Word) (l : List (Reg × Word)) (a' n' : Word) (l' : List (Reg × Word)) : Prop :=
  ∀ u o, u.cfg = c → statusWord u.status = w → duringOp x (put a n l o u) = .next (put a' n' l' o u)

/-- From `s`, `op` yields `g t`, through micro-steps that show the STATUS words `ws`: alone; with an operation that is not due
before its end; with an access that lands at one of them; and it is refused with an access that is refused at one of them. -/
structure Runs {τ : Type} (op : State → Out τ) (g : State → τ) (s t : State) (ws : List Word) : Prop where
  cfg : t.cfg = s.cfg
  alone : ∀ a n l, op (put a n l [] s) = .next (g (put a n l [] t))
  waits : ∀ a n l d x rest, op (put a n l (⟨d + ws.length, x⟩ :: rest) s) = .next (g (put a n l (⟨d, x⟩ :: rest) t))
  lands : ∀ a n l a' n' l' d x w, ws[d]? = some w → Lands s.cfg x w a n l a' n' l' →
    op (put a n l [⟨d, x⟩] s) = .next (g (put a' n' l' [] t))
  refuses : ∀ a n l d x w rest r, ws[d]? = some w →
    (∀ u, u.cfg = s.cfg → statusWord u.status = w → duringOp x u = .refused r) →
    op (put a n l (⟨d, x⟩ :: rest) s) = .refused r

variable {τ υ : Type}

/-- A change of the state without a micro-step. -/
theorem Runs.pure {op : State → Out τ} {g : State → τ} {s t : State} (hc : t.cfg = s.cfg)
    (h : ∀ a n l o, op (put a n l o s) = .next (g (put a n l o t))) : Runs op g s t [] :=
  ⟨hc, fun _ _ _ => h .., fun _ _ _ _ _ _ => h .., fun _ _ _ _ _ _ _ _ _ hw => by simp at hw, fun _ _ _ _ _ _ _ _ hw => by simp at hw⟩

/-- One micro-step. -/
theorem Runs.ticked {f : State → Out τ} {g : State → τ} {s t : State} (hc : t.cfg = s.cfg)
    (h : ∀ a n l o, f (put a n l o s) = .next (g (put a n l o t))) :
    Runs (fun s => andThen (tick s) f) g s t [statusWord s.status] := by
  refine ⟨hc, fun a n l => h .., fun a n l d x rest => h .., fun a n l a' n' l' d x w hw hx => ?_, fun a n l d x w rest r hw hx => ?_⟩
  · obtain ⟨rfl, rfl⟩ : d = 0 ∧ statusWord s.status = w := by cases d <;> simp_all
    show andThen (andThen (duringOp x (put a n l [⟨0, x⟩] s)) (runDue [])) f = _
    rw [hx s _ rfl rfl]
    exact h ..
  · obtain ⟨rfl, rfl⟩ : d = 0 ∧ statusWord s.status = w := by cases d <;> simp_all
    show andThen (andThen (duringOp x (put a n l (⟨0, x⟩ :: rest) s)) (runDue rest)) f = _
    rw [hx (put a n l _ s) rfl rfl]
    rfl

/-- One part of a command after another. -/
theorem Runs.seq {op : State → Out τ} {f : τ → Out υ} {g : State → τ} {h : State → υ} {s t u : State} {ws ws' : List Word}
    (h1 : Runs op g s t ws) (h2 : Runs (fun v => f (g v)) h t u ws') :
    Runs (fun s => andThen (op s) f) h s u (ws ++ ws') := by
  refine ⟨h2.cfg.trans h1.cfg, fun a n l => ?_, fun a n l d x rest => ?_, fun a n l a' n' l' d x w hw hx => ?_,
    fun a n l d x w rest r hw hx => ?_⟩
  · simp only [h1.alone, andThen_next, h2.alone]
  · rw [List.length_append, Nat.add_comm ws.length, ← Nat.add_assoc]
    simp only [h1.waits, andThen_next, h2.waits]
  · rcases Nat.lt_or_ge d ws.length with hd | hd
    · rw [List.getElem?_append_left hd] at hw
      simp only [h1.lands _ _ _ _ _ _ _ _ _ hw hx, andThen_next, h2.alone]
    · rw [List.getElem?_append_right hd] at hw
      obtain ⟨k, rfl⟩ : ∃ k, d = k + ws.length := ⟨d - ws.length, by omega⟩
      rw [Nat.add_sub_cancel] at hw
      simp only [h1.waits, andThen_next, h2.lands _ _ _ _ _ _ _ _ _ hw (h1.cfg ▸ hx)]
  · rcases Nat.lt_or_ge d ws.length with hd | hd
    · rw [List.getElem?_append_left hd] at hw
      simp only [h1.refuses _ _ _ _ _ _ _ _ hw hx, andThen_refused]
    · rw [List.getElem?_append_right hd] at hw
      obtain ⟨k, rfl⟩ : ∃ k, d = k + ws.length := ⟨d - ws.length, by omega⟩
      rw [Nat.add_sub_cancel] at hw
      simp only [h1.waits, andThen_next, h2.refuses _ _ _ _ _ _ _ _ hw (h1.cfg ▸ hx)]

/-- A change of the state before. -/
theorem Runs.after {op op' : State → Out τ} {g : State → τ} {s s' t : State} {ws : List Word} (h : Runs op g s' t ws) (hc : s'.cfg = s.cfg)
    (he : ∀ a n l o, op' (put a n l o s) = op (put a n l o s')) : Runs op' g s t ws :=
  ⟨h.cfg.trans hc, fun _ _ _ => by rw [he, h.alone], fun _ _ _ _ _ _ => by rw [he, h.waits],
    fun _ _ _ _ _ _ _ _ _ hw hx => by rw [he, h.lands _ _ _ _ _ _ _ _ _ hw (hc ▸ hx)],
    fun _ _ _ _ _ _ _ _ hw hx => by rw [he, h.refuses _ _ _ _ _ _ _ _ hw (hc ▸ hx)]⟩

/-- What the micro-steps keep that the next ones look at: STATUS, the admission, and the answers still to come. -/
def Steady (s t : State) : Prop := t.status = s.status ∧ t.regions = s.regions ∧ t.replies = s.replies ∧ t.asked = s.asked

theorem Steady.refl (s : State) : Steady s s := ⟨rfl, rfl, rfl, rfl⟩

theorem Steady.trans {s t u : State} (h : Steady s t) (h' : Steady t u) : Steady s u :=
  ⟨h'.1.trans h.1, h'.2.1.trans h.2.1, h'.2.2.1.trans h.2.2.1, h'.2.2.2.trans h.2.2.2⟩

theorem Steady.reply {s t : State} (h : Steady s t) (k : Nat) : replyAt t k = replyAt s k := replyAt_congr h.2.2.1 h.2.2.2 k

/-- `op` yields some `g t` through micro-steps that all show the STATUS of `s`, `k` of them, and stays steady. -/
def RunsSteady (op : State → Out τ) (g : State → τ) (s t : State) (k : Nat) : Prop :=
  Runs op g s t (List.replicate k (statusWord s.status)) ∧ Steady s t

theorem RunsSteady.seq {op : State → Out τ} {f : τ → Out υ} {g : State → τ} {h : State → υ} {s t u : State} {k k' : Nat}
    (h1 : RunsSteady op g s t k) (h2 : RunsSteady (fun v => f (g v)) h t u k') :
    RunsSteady (fun s => andThen (op s) f) h s u (k + k') := by
  refine ⟨?_, h1.2.trans h2.2⟩
  have := h1.1.seq h2.1
  rwa [h1.2.1, List.replicate_append_replicate] at this

/-! ### Micro-steps -/

theorem memRead_runs {a : Nat} {s : State} (ha : admitsRead s a = true) :
    ∃ v t, RunsSteady (memRead a) (fun u => (v, u)) s t 1 ∧ t.g = s.g := by
  refine ⟨readValue s a, afterRead s a (readValue s a), ⟨Runs.ticked (afterRead_cfg ..) fun b n l o => ?_, ?_⟩, afterRead_g ..⟩
  · rw [show admitsRead (put b n l o s) a = true from ha, if_pos rfl]
    refine congrArg _ (Prod.ext rfl ?_)
    simp only [afterRead, show (put b n l o s).race = s.race from rfl]
    split <;> rfl
  · simp [Steady]

theorem memWrite_runs {a : Nat} {v : Byte} {s : State} (ha : admitsWrite s a = true) :
    RunsSteady (memWrite a v) id s (emit (.memW a v) (storeNoted s a v)) 1 := by
  refine ⟨Runs.ticked rfl fun b n l o => ?_, Steady.refl s⟩
  rw [show admitsWrite (put b n l o s) a = true from ha, if_pos rfl]
  rfl

theorem enterState_runs (st : EngineState) (s : State) :
    Runs (enterState st) id s (setState st s) [statusWord s.status] := Runs.ticked rfl fun _ _ _ _ => rfl

theorem complete_runs (r : ResultCode) (d : Word) (s : State) :
    Runs (complete r d) id s (finish r d s) [statusWord s.status] := Runs.ticked rfl fun _ _ _ _ => rfl

theorem busWrite_runs (k : BusKind) (bytes : List Byte) (s : State) :
    Runs (busWrite k bytes) (fun u => (answerOfWord (replyAt s 0).error, u)) s
      (emit (busEvent k bytes (replyAt s 0)) (tookReply s)) [statusWord s.status] := Runs.ticked rfl fun _ _ _ _ => rfl

theorem clockRequest_runs (s : State) :
    Runs clockRequest (fun u => (answerOfWord (replyAt s 0).error, u)) s
      (emit (.clkReq (answerOfWord (replyAt s 0).error)) (tookReply s)) [statusWord s.status] := Runs.ticked rfl fun _ _ _ _ => rfl

theorem clockRelease_runs (s : State) :
    Runs clockRelease (fun u => (answerOfWord (replyAt s 0).error, u)) s
      (emit (.clkRel (answerOfWord (replyAt s 0).error)) (tookReply s)) [statusWord s.status] := Runs.ticked rfl fun _ _ _ _ => rfl

theorem Steady.read {s t : State} (hc : t.cfg = s.cfg) (h : Steady s t) (a : Nat) : admitsRead t a = admitsRead s a :=
  admitsRead_congr hc h.2.1 a

theorem Steady.write {s t : State} (hc : t.cfg = s.cfg) (h : Steady s t) (a : Nat) : admitsWrite t a = admitsWrite s a :=
  admitsWrite_congr hc h.2.1 a

theorem readPixel_runs {a i : Nat} {s : State} (ha : ∀ k, k < 3 → admitsRead s (recordAddr s.cfg a i k) = true) :
    ∃ p t, RunsSteady (readPixel a i) (fun u => (p, u)) s t 3 := by
  obtain ⟨x, t1, h1, -⟩ := memRead_runs (ha 0 (by omega))
  obtain ⟨y, t2, h2, -⟩ := memRead_runs (s := t1) (a := recordAddr s.cfg a i 1) (by rw [h1.2.read h1.1.cfg]; exact ha 1 (by omega))
  have h12 := h1.2.trans h2.2
  obtain ⟨z, t3, h3, -⟩ := memRead_runs (s := t2) (a := recordAddr s.cfg a i 2)
    (by rw [h12.read (h2.1.cfg.trans h1.1.cfg)]; exact ha 2 (by omega))
  refine ⟨(x, y, z), t3, ?_⟩
  have h4 : RunsSteady (fun u => (.next ((x, y, (z, u).1), (z, u).2) : Out _)) (fun u => ((x, y, z), u)) t3 t3 0 :=
    ⟨Runs.pure rfl fun _ _ _ _ => rfl, Steady.refl t3⟩
  have := h1.seq (f := fun p => andThen (memRead (recordAddr s.cfg a i 1) p.2) fun q =>
      andThen (memRead (recordAddr s.cfg a i 2) q.2) fun r => .next ((p.1, q.1, r.1), r.2))
    (h2.seq (f := fun q => andThen (memRead (recordAddr s.cfg a i 2) q.2) fun r => .next ((x, q.1, r.1), r.2))
      (h3.seq (f := fun r => .next ((x, y, r.1), r.2)) h4))
  exact ⟨this.1.after rfl fun _ _ _ _ => rfl, this.2⟩

/-! ### The SPI transport -/

theorem encodePixel_runs {a i : Nat} {s : State} (ha : ∀ k, k < 3 → admitsRead s (recordAddr s.cfg a i k) = true) :
    ∃ t, RunsSteady (encodePixel a i) id s t 3 := by
  obtain ⟨p, t, h⟩ := readPixel_runs (s := { s with sI := i }) (a := a) (i := i) ha
  let store : (Byte × Byte × Byte) × State → State := fun q =>
    { q.2 with stage := overwrite q.2.stage (8 * (stride q.2.cfg * i)) (serAll q.2.cfg (wireOf q.2.cfg ⟨q.1.1, q.1.2.1, q.1.2.2⟩)) }
  have h' := h.seq (f := fun q => .next (store q)) (h := id) (u := store (p, t)) (k' := 0)
    ⟨Runs.pure rfl fun _ _ _ _ => rfl, Steady.refl t⟩
  exact ⟨store (p, t), h'.1.after rfl fun _ _ _ _ => rfl, h'.2⟩

theorem encodeFrom_runs {a : Nat} : ∀ {k i : Nat} {s : State}, (∀ j, j < i + k → ∀ b, b < 3 →
    admitsRead s (recordAddr s.cfg a j b) = true) → ∃ t, RunsSteady (encodeFrom a i k) id s t (3 * k) := by
  intro k
  induction k with
  | zero => intro i s _; exact ⟨s, Runs.pure rfl fun _ _ _ _ => rfl, Steady.refl s⟩
  | succ k ih =>
    intro i s ha
    obtain ⟨t1, h1⟩ := encodePixel_runs (ha i (by omega))
    obtain ⟨t, h2⟩ := ih (i := i + 1) (s := t1) fun j hj b hb => by
      rw [h1.2.read h1.1.cfg, h1.1.cfg]
      exact ha j (by omega) b hb
    have h3 := h1.seq (f := encodeFrom a (i + 1) k) h2
    rw [show 3 + 3 * k = 3 * (k + 1) by omega] at h3
    exact ⟨t, h3⟩

/-- LATCH: the change to LATCHING and the reset write. -/
theorem latch_runs (s : State) :
    ∃ t, Runs latch (fun u => (answerOfWord (replyAt s 0).error, u)) s t [statusWord s.status, statusIn .latching s] ∧
      t.status = { s.status with state := .latching } ∧ t.regions = s.regions ∧ ∀ k, replyAt t k = replyAt s (k + 1) :=
  ⟨_, ((enterState_runs .latching s).seq (f := busWrite .reset (resetBytes s.cfg))
    (busWrite_runs .reset (resetBytes s.cfg) (setState .latching s))).after rfl fun _ _ _ _ => rfl, rfl, rfl,
    replyAt_tookReply (setState .latching s)⟩

/-- A DATA write and its reset write: the change to TRANSMITTING, the write, and LATCH. -/
theorem dataThenLatch_runs (bytes : List Byte) (s : State) :
    ∃ t, Runs (dataThenLatch bytes) (fun u => ((answerOfWord (replyAt s 0).error, answerOfWord (replyAt s 1).error), u)) s t
      [statusWord s.status, statusIn .transmitting s, statusIn .transmitting s, statusIn .latching s] ∧
      t.status = { s.status with state := .latching } ∧ t.regions = s.regions ∧ ∀ k, replyAt t k = replyAt s (k + 2) := by
  have h2 := busWrite_runs .data bytes (setState .transmitting s)
  obtain ⟨t, h3, e1, e2, e3⟩ := latch_runs (emit (busEvent .data bytes (replyAt (setState .transmitting s) 0))
    (tookReply (setState .transmitting s)))
  have er : ∀ k, replyAt (emit (busEvent .data bytes (replyAt (setState .transmitting s) 0)) (tookReply (setState .transmitting s))) k =
      replyAt s (k + 1) := replyAt_tookReply s
  simp only [er] at h3 e3
  have h4 := h3.seq (f := fun y => .next ((answerOfWord (replyAt s 0).error, y.1), y.2))
    (h := fun u => ((answerOfWord (replyAt s 0).error, answerOfWord (replyAt s 1).error), u)) (u := t) (ws' := [])
    (Runs.pure rfl fun _ _ _ _ => rfl)
  have h5 := h2.seq (f := fun x => andThen (latch x.2) fun y => .next ((x.1, y.1), y.2)) h4
  have h6 := (enterState_runs .transmitting s).seq
    (f := fun u => andThen (busWrite .data bytes u) fun x => andThen (latch x.2) fun y => .next ((x.1, y.1), y.2)) h5
  exact ⟨t, h6, e1, e2, e3⟩

/-- UPDATE_RGB.SPI within its capacity, its records readable: 3n micro-steps of ENCODING, then the change to TRANSMITTING, the DATA write,
the change to LATCHING, the reset write, and `finish`. -/
theorem spiRgb_runs {a n : Nat} {s : State} (hn : n ≤ s.cfg.maxPixels.toNat) (ha : RecordsReadable s a n) :
    ∃ t, Runs (spiRgb a n) id s t (List.replicate (3 * n) (statusIn .encoding s) ++
      [statusIn .encoding s, statusIn .transmitting s, statusIn .transmitting s, statusIn .latching s, statusIn .latching s]) := by
  obtain ⟨t1, h1, hs1⟩ := encodeFrom_runs (s := { setState .encoding s with sI := 0 }) (a := a) (k := n) (i := 0)
    fun j hj b hb => ha j (by omega) b hb
  obtain ⟨t2, h2, hs2, -, -⟩ := dataThenLatch_runs (t1.stage.take (8 * stride t1.cfg * n)) t1
  have h3 := complete_runs (rgbSpiResult (answerOfWord (replyAt t1 0).error) (answerOfWord (replyAt t1 1).error)).1
    (rgbSpiResult (answerOfWord (replyAt t1 0).error) (answerOfWord (replyAt t1 1).error)).2 t2
  have e1 : t1.status = { s.status with state := .encoding } := hs1.1
  have e2 : t2.status = { s.status with state := .latching } := by rw [hs2, e1]
  have h := h1.seq (f := fun u => andThen (dataThenLatch (u.stage.take (8 * stride u.cfg * n)) u) fun x =>
      complete (rgbSpiResult x.1.1 x.1.2).1 (rgbSpiResult x.1.1 x.1.2).2 x.2)
    (((h2.seq (f := fun x => complete (rgbSpiResult x.1.1 x.1.2).1 (rgbSpiResult x.1.1 x.1.2).2 x.2) h3).after
      (op' := fun u => andThen (dataThenLatch (u.stage.take (8 * stride u.cfg * n)) u) fun x =>
        complete (rgbSpiResult x.1.1 x.1.2).1 (rgbSpiResult x.1.1 x.1.2).2 x.2) rfl fun _ _ _ _ => rfl))
  simp only [e1, e2, statusIn] at h
  exact ⟨_, h.after rfl fun b m l o => by simp only [spiRgb, show (put b m l o s).cfg = s.cfg from rfl, Nat.not_lt.mpr hn, if_false]; rfl⟩

/-- One channel of UPDATE_CHANNELS.SPI whose byte is readable, from the change to ENCODING on. -/
theorem channelSend_runs {a j : Nat} {s : State} (ha : admitsRead s (a + j) = true) :
    ∃ t, Runs (channelSend a j) (fun u => ((answerOfWord (replyAt s 0).error, answerOfWord (replyAt s 1).error), u)) s t
      ((if j = 0 then [] else [statusWord s.status]) ++ [statusIn .encoding s, statusIn .encoding s, statusIn .transmitting s,
        statusIn .transmitting s, statusIn .latching s]) ∧
      t.status = { s.status with state := .latching } ∧ t.regions = s.regions ∧ (∀ k, replyAt t k = replyAt s (k + 2)) := by
  have h0 : Runs (channelStart j) id { s with sJ := j } (setState .encoding { s with sJ := j })
      (if j = 0 then [] else [statusWord s.status]) := by
    split
    · next hj => exact Runs.pure rfl fun _ _ _ _ => by simp only [channelStart, hj, if_true]; rfl
    · next hj =>
      exact (enterState_runs .encoding { s with sJ := j }).after rfl fun _ _ _ _ => by simp only [channelStart, hj, if_false]
  obtain ⟨v, t1, ⟨h1, hs1⟩, -⟩ := memRead_runs (s := setState .encoding { s with sJ := j }) (a := a + j) ha
  obtain ⟨t2, h2, hs2, hr2, hk2⟩ := dataThenLatch_runs (ser t1.cfg v) { t1 with chbuf := ser t1.cfg v }
  have e1 : t1.status = { s.status with state := .encoding } := hs1.1
  have er : ∀ k, replyAt { t1 with chbuf := ser t1.cfg v } k = replyAt s k := fun k => hs1.reply k
  rw [er, er] at h2
  let send : Byte × State → Out ((Answer × Answer) × State) := fun x =>
    dataThenLatch (ser x.2.cfg x.1) { x.2 with chbuf := ser x.2.cfg x.1 }
  have h3 : Runs (fun u => send (v, u)) _ t1 t2 _ := h2.after rfl fun _ _ _ _ => rfl
  have h4 := h0.seq (f := fun u => andThen (memRead (a + j) u) send) (h1.seq (f := send) h3)
  have h := h4.after (op' := channelSend a j) (s := s) rfl fun _ _ _ _ => rfl
  simp only [e1] at h
  refine ⟨t2, h, ?_, hr2.trans hs1.2.1, fun k => ?_⟩
  · rw [hs2, e1]
  · rw [hk2, er]

/-- UPDATE_CHANNELS.SPI from channel `j` > 0 on, its writes all ok and its bytes readable. -/
theorem channelsFrom_runs {a : Nat} : ∀ {k j : Nat} {s : State}, j ≠ 0 → s.status.state = .latching →
    (∀ i, i < k → admitsRead s (a + (j + i)) = true) → (∀ i, i < 2 * k → (replyAt s i).error = 0) →
    ∃ t, Runs (channelsFrom a j k) id s t (statusIn .latching s :: (List.replicate k [statusIn .encoding s, statusIn .encoding s,
      statusIn .transmitting s, statusIn .transmitting s, statusIn .latching s, statusIn .latching s]).flatten) := by
  intro k
  induction k with
  | zero =>
    intro j s hj hs _ _
    have e : statusIn .latching s = statusWord s.status := by rw [statusIn, ← hs]
    rw [e]
    exact ⟨_, (complete_runs .ok 0 s).after rfl fun _ _ _ _ => by simp only [channelsFrom, channelsDone, hj, if_false]⟩
  | succ k ih =>
    intro j s hj hs ha hr
    obtain ⟨t, h1, h2, h3, h4⟩ := channelSend_runs (s := s) (a := a) (j := j) (ha 0 (by omega))
    rw [hr 0 (by omega), hr 1 (by omega)] at h1
    obtain ⟨u, h5⟩ := ih (j := j + 1) (s := t) (by omega) (by rw [h2])
      (fun i hi => by rw [admitsRead_congr h1.cfg h3, Nat.add_assoc, Nat.add_comm 1]; exact ha (i + 1) (by omega))
      (fun i hi => by rw [h4]; exact hr _ (by omega))
    have e : ∀ st, statusIn st t = statusIn st s := fun st => by simp only [statusIn, h2]
    have e' : statusWord s.status = statusIn .latching s := by rw [statusIn, ← hs]
    simp only [e] at h5
    have h6 := h1.seq (f := fun x => match x.1 with
      | (.fail e, _) => complete .busFailure e x.2
      | (.ok, .fail e2) => complete .busFailure e2 x.2
      | (.ok, .ok) => channelsFrom a (j + 1) k x.2) h5
    rw [if_neg hj, e'] at h6
    exact ⟨u, h6.after rfl fun _ _ _ _ => rfl⟩

/-- UPDATE_CHANNELS.SPI of some bytes, its writes all ok and its bytes readable: six micro-steps a channel, two in each state. -/
theorem spiChannels_runs {a n : Nat} {s : State} (hn : 0 < n) (ha : BytesReadable s a n)
    (hr : ∀ i, i < 2 * n → (replyAt s i).error = 0) :
    ∃ t, Runs (spiChannels a n) id s t (List.replicate n [statusIn .encoding s, statusIn .encoding s,
      statusIn .transmitting s, statusIn .transmitting s, statusIn .latching s, statusIn .latching s]).flatten := by
  obtain ⟨k, rfl⟩ : ∃ k, n = k + 1 := ⟨n - 1, by omega⟩
  obtain ⟨t, h1, h2, h3, h4⟩ := channelSend_runs (s := { s with sJ := 0 }) (a := a) (j := 0) (ha 0 (by omega))
  have er : ∀ i, replyAt { s with sJ := 0 } i = replyAt s i := fun _ => rfl
  rw [er, er, hr 0 (by omega), hr 1 (by omega)] at h1
  obtain ⟨u, h5⟩ := channelsFrom_runs (a := a) (k := k) (j := 1) (s := t) (by omega) (by rw [h2])
    (fun i hi => by rw [admitsRead_congr h1.cfg h3, Nat.add_comm 1]; exact ha (i + 1) (by omega))
    (fun i hi => by rw [h4, er]; exact hr _ (by omega))
  have e : ∀ st, statusIn st t = statusIn st s := fun st => by simp only [statusIn, h2]
  simp only [e] at h5
  have h6 := h1.seq (f := fun x => match x.1 with
    | (.fail e, _) => complete .busFailure e x.2
    | (.ok, .fail e2) => complete .busFailure e2 x.2
    | (.ok, .ok) => channelsFrom a 1 k x.2) h5
  exact ⟨u, h6.after rfl fun _ _ _ _ => rfl⟩

/-! ### The GPIO transport -/

theorem layoutWrites_runs {a i : Nat} {w : List Byte} : ∀ {chs : List Channel} {s : State},
    (∀ ch ∈ chs, admitsWrite s (wireAddr s.cfg a i ch) = true) → ∃ t, RunsSteady (layoutWrites a i w chs) id s t chs.length := by
  intro chs
  induction chs with
  | nil => intro s _; exact ⟨s, Runs.pure rfl fun _ _ _ _ => rfl, Steady.refl s⟩
  | cons ch rest ih =>
    intro s ha
    have h1 := memWrite_runs (v := w.getD (order s.cfg ch) 0) (ha ch (by simp))
    obtain ⟨t, h2⟩ := ih (s := emit (.memW (wireAddr s.cfg a i ch) (w.getD (order s.cfg ch) 0))
      (storeNoted s (wireAddr s.cfg a i ch) (w.getD (order s.cfg ch) 0))) fun c hc => ha c (by simp [hc])
    have h3 := RunsSteady.seq (f := layoutWrites a i w rest) h1 h2
    refine ⟨t, ?_⟩
    rw [List.length_cons, Nat.add_comm]
    exact ⟨h3.1.after rfl fun _ _ _ _ => rfl, h3.2⟩

theorem layoutFrom_runs {a : Nat} : ∀ {k i : Nat} {s : State},
    (∀ j, j < i + k → ∀ b, b < 3 → admitsRead s (recordAddr s.cfg a j b) = true) →
    (∀ j, j < i + k → ∀ ch ∈ channels s.cfg, admitsWrite s (wireAddr s.cfg a j ch) = true) →
    ∃ t, RunsSteady (layoutFrom a i k) id s t ((3 + stride s.cfg) * k) := by
  intro k
  induction k with
  | zero => intro i s _ _; exact ⟨s, Runs.pure rfl fun _ _ _ _ => rfl, Steady.refl s⟩
  | succ k ih =>
    intro i s ha hw
    obtain ⟨p, t1, h1⟩ := readPixel_runs (ha i (by omega))
    obtain ⟨t2, h2⟩ := layoutWrites_runs (a := a) (i := i) (w := wireOf t1.cfg { r := p.1, g := p.2.1, b := p.2.2 })
      (chs := channels t1.cfg) (s := t1) fun ch hch => by
        rw [h1.2.write h1.1.cfg, h1.1.cfg]
        exact hw i (by omega) ch (h1.1.cfg ▸ hch)
    have h2' : RunsSteady (fun u => layoutWrites a i (wireOf u.cfg { r := p.1, g := p.2.1, b := p.2.2 }) (channels u.cfg) u) id t1 t2
        (channels t1.cfg).length := ⟨h2.1.after rfl fun _ _ _ _ => rfl, h2.2⟩
    have h3 := h1.seq (f := fun q => layoutWrites a i (wireOf q.2.cfg { r := q.1.1, g := q.1.2.1, b := q.1.2.2 }) (channels q.2.cfg) q.2)
      h2'
    obtain ⟨t, h4⟩ := ih (i := i + 1) (s := t2)
      (fun j hj b hb => by rw [h3.2.read h3.1.cfg, h3.1.cfg]; exact ha j (by omega) b hb)
      (fun j hj ch hch => by rw [h3.2.write h3.1.cfg, h3.1.cfg]; exact hw j (by omega) ch (h3.1.cfg ▸ hch))
    have h5 := RunsSteady.seq (f := layoutFrom a (i + 1) k) h3 h4
    refine ⟨t, ?_⟩
    rw [h1.1.cfg, h3.1.cfg, channels_length, Nat.add_comm (3 + stride s.cfg), ← Nat.mul_succ] at h5
    exact ⟨h5.1.after rfl fun _ _ _ _ => rfl, h5.2⟩

theorem tick_runs (s : State) : RunsSteady tick id s s 1 :=
  ⟨(Runs.ticked (f := .next) (g := id) (s := s) (t := s) rfl fun _ _ _ _ => rfl).after rfl fun a n l o => by
    cases h : tick (put a n l o s) <;> rfl, Steady.refl s⟩

/-- The end of a slot, or a cycle inside one. -/
theorem burstAdvance_runs {a : Nat} {s : State} (ha : ∀ j, j < s.g.nb → admitsRead s (a + j) = true) :
    ∃ t k, RunsSteady (burstAdvance a) id s t k ∧ t.g.nb = s.g.nb := by
  by_cases hc : s.g.c = slotLen s.cfg s.g.nb s.g.j s.g.i
  · by_cases hi : s.g.i > 0
    · exact ⟨{ s with g := { s.g with c := 0, i := s.g.i - 1 } }, 0, ⟨Runs.pure rfl fun b n l o => by
        refine (if_pos hc).trans ((if_pos hi).trans rfl), Steady.refl s⟩, rfl⟩
    · by_cases hj : s.g.j + 1 < s.g.nb
      · obtain ⟨v, t, h, hg⟩ := memRead_runs (s := { s with g := { s.g with c := 0, j := s.g.j + 1, i := 7 } }) (a := a + (s.g.j + 1))
          (ha _ hj)
        let note : Byte × State → State := fun x => { x.2 with g := { x.2.g with b := x.1, sent := x.2.g.sent ++ [x.1] } }
        have h' := h.seq (f := fun x => .next (note x)) (h := id) (u := note (v, t)) (k' := 0)
          ⟨Runs.pure rfl fun _ _ _ _ => rfl, Steady.refl t⟩
        refine ⟨note (v, t), _, ⟨h'.1.after rfl fun b n l o => ?_, h'.2⟩, by show t.g.nb = _; rw [hg]⟩
        exact (if_pos hc).trans ((if_neg hi).trans ((if_pos hj).trans rfl))
      · exact ⟨leaveBurst { s with g := { s.g with c := 0 } }, 0, ⟨Runs.pure rfl fun b n l o =>
          (if_pos hc).trans ((if_neg hi).trans ((if_neg hj).trans rfl)), Steady.refl s⟩, rfl⟩
  · exact ⟨s, 0, ⟨Runs.pure rfl fun b n l o => (if_neg hc).trans rfl, Steady.refl s⟩, rfl⟩

theorem burstCycle_runs {a : Nat} {s : State} (ha : ∀ j, j < s.g.nb → admitsRead s (a + j) = true) :
    ∃ t k, RunsSteady (burstCycle a) id s t k ∧ t.g.nb = s.g.nb := by
  obtain ⟨t, k, h, hg⟩ := burstAdvance_runs (s := burstLevel s) ha
  have h' : RunsSteady (fun u => burstAdvance a (burstLevel u)) id s t k := ⟨h.1.after rfl fun _ _ _ _ => rfl, h.2⟩
  exact ⟨t, 1 + k, (tick_runs s).seq (f := fun u => burstAdvance a (burstLevel u)) h', hg⟩

theorem burstRun_runs {a : Nat} : ∀ {fuel : Nat} {s : State}, (∀ j, j < s.g.nb → admitsRead s (a + j) = true) →
    ∃ t k, RunsSteady (burstRun a fuel) id s t k := by
  intro fuel
  induction fuel with
  | zero => intro s _; exact ⟨s, 0, Runs.pure rfl fun _ _ _ _ => rfl, Steady.refl s⟩
  | succ fuel ih =>
    intro s ha
    by_cases hp : s.g.phase = .burst
    · obtain ⟨t1, k1, h1, hg⟩ := burstCycle_runs ha
      obtain ⟨t, k, h2⟩ := ih (s := t1) fun j hj => by rw [h1.2.read h1.1.cfg]; exact ha j (hg ▸ hj)
      have h3 := h1.seq (f := burstRun a fuel) h2
      exact ⟨t, _, h3.1.after rfl fun _ _ _ _ => (if_pos hp).trans rfl, h3.2⟩
    · exact ⟨s, 0, Runs.pure rfl fun _ _ _ _ => (if_neg hp).trans rfl, Steady.refl s⟩

theorem burst_runs {a nb : Nat} {s : State} (ha : ∀ j, j < nb → admitsRead s (a + j) = true) :
    ∃ t k, RunsSteady (burst a nb) id s t k := by
  by_cases hn : nb = 0
  · subst hn
    have h1 : RunsSteady (burstEnter a 0) id s (setPhase .clkRel { s with g := { s.g with nb := 0 } }) 0 :=
      ⟨Runs.pure rfl fun _ _ _ _ => rfl, Steady.refl s⟩
    obtain ⟨t, k, h2⟩ := burstRun_runs (a := a) (fuel := 0) (s := setPhase .clkRel { s with g := { s.g with nb := 0 } })
      fun j hj => by simp [setPhase] at hj
    have h3 := h1.seq (f := burstRun a 0) h2
    exact ⟨t, _, h3.1.after rfl fun _ _ _ _ => rfl, h3.2⟩
  · obtain ⟨v, t1, h1, hg⟩ := memRead_runs (s := { s with g := { s.g with nb := nb, j := 0, i := 7, c := 0, phase := .burst } })
      (a := a + 0) (ha 0 (by omega))
    let start : Byte × State → State := fun x => { drew x.2 with
      cycle := x.2.cycle + Config.freeNat x.2.draws
      g := { x.2.g with b := x.1, start := x.2.cycle + Config.freeNat x.2.draws, sent := [x.1] } }
    have h2 := h1.seq (f := fun x => .next (start x)) (h := id) (u := start (v, t1)) (k' := 0)
      ⟨Runs.pure rfl fun _ _ _ _ => rfl, Steady.refl t1⟩
    obtain ⟨t, k, h3⟩ := burstRun_runs (a := a) (fuel := burstLength s.cfg nb) (s := start (v, t1)) fun j hj => by
      rw [h2.2.read h2.1.cfg]
      have : (start (v, t1)).g.nb = nb := by show t1.g.nb = nb; rw [hg]
      exact ha j (this ▸ hj)
    have h4 := h2.seq (f := burstRun a (burstLength s.cfg nb)) h3
    exact ⟨t, _, h4.1.after rfl fun b n l o => by simp only [burst, burstEnter, hn, if_false]; rfl, h4.2⟩

/-- The release of the clock and the result: two micro-steps. -/
theorem gpioRelease_runs (s : State) :
    ∃ t, Runs gpioRelease id s t [statusWord s.status, statusWord s.status] := by
  have h1 := clockRelease_runs s
  generalize answerOfWord (replyAt s 0).error = ans at h1
  let ends : Answer × State → Out State := fun x =>
    match x.1 with
    | .ok => complete .ok 0 (setPhase .done { x.2 with clkReq := false })
    | .fail e => complete .clockControlFailure e (setPhase .done { drew x.2 with clkReq := Config.freeBit x.2.draws })
  cases ans with
  | ok =>
    have h2 := (complete_runs .ok 0 (setPhase .done { emit (.clkRel .ok) (tookReply s) with clkReq := false })).after
      (op' := fun u => ends (.ok, u)) (s := emit (.clkRel .ok) (tookReply s)) rfl fun _ _ _ _ => rfl
    exact ⟨_, h1.seq (f := ends) h2⟩
  | fail e =>
    have h2 := (complete_runs .clockControlFailure e (setPhase .done { drew (emit (.clkRel (.fail e)) (tookReply s)) with
      clkReq := Config.freeBit s.draws })).after (op' := fun u => ends (.fail e, u)) (s := emit (.clkRel (.fail e)) (tookReply s)) rfl
      fun _ _ _ _ => rfl
    exact ⟨_, h1.seq (f := ends) h2⟩

/-- Steps 3 to 6 of UPDATE_RGB.GPIO: all its micro-steps show the STATUS it starts with. -/
theorem gpioTransmit_runs {a n : Nat} {s : State} (ha : ∀ j, j < stride s.cfg * n → admitsRead s (a + j) = true) :
    ∃ t k, Runs (gpioTransmit a n) id s t (List.replicate k (statusWord s.status)) := by
  obtain ⟨t1, k, h1⟩ := burst_runs (s := setMask true { s with clkReq := true }) (a := a) (nb := stride s.cfg * n) ha
  obtain ⟨t, h2⟩ := gpioRelease_runs (setMask false t1)
  have e : statusWord (setMask false t1).status = statusWord s.status := congrArg statusWord h1.2.1
  rw [e] at h2
  have h3 := h1.1.after (op' := fun u => burst a (stride u.cfg * n) (setMask true { u with clkReq := true })) (s := s) rfl
    fun _ _ _ _ => rfl
  have h4 := h2.after (op' := fun u => gpioRelease (setMask false u)) (s := t1) rfl fun _ _ _ _ => rfl
  have h5 := h3.seq (f := fun u => gpioRelease (setMask false u)) h4
  exact ⟨t, k + 2, by rw [← List.replicate_append_replicate]; exact h5⟩

/-- UPDATE_RGB.GPIO from its clock request on. -/
theorem gpioGranted_runs {a n : Nat} {s : State} (ha : ∀ j, j < stride s.cfg * n → admitsRead s (a + j) = true) :
    ∃ t k, Runs (fun u => andThen (clockRequest (setPhase .clkReq u)) fun x =>
      match x.1 with
      | .fail e => complete .clockControlFailure e x.2
      | .ok => gpioTransmit a n x.2) id s t (List.replicate (k + 1) (statusWord s.status)) := by
  have h1 := clockRequest_runs (setPhase .clkReq s)
  generalize answerOfWord (replyAt (setPhase .clkReq s) 0).error = ans at h1
  let goes : Answer × State → Out State := fun x =>
    match x.1 with
    | .fail e => complete .clockControlFailure e x.2
    | .ok => gpioTransmit a n x.2
  have key : ∃ t k, Runs (fun u => goes (ans, u)) id (emit (.clkReq ans) (tookReply (setPhase .clkReq s))) t
      (List.replicate k (statusWord s.status)) := by
    cases ans with
    | fail e => exact ⟨_, 1, complete_runs .clockControlFailure e (emit (.clkReq (.fail e)) (tookReply (setPhase .clkReq s)))⟩
    | ok => exact gpioTransmit_runs (s := emit (.clkReq .ok) (tookReply (setPhase .clkReq s))) ha
  obtain ⟨t, k, h2⟩ := key
  have h3 := (h1.seq (f := goes) h2).after (op' := fun u => andThen (clockRequest (setPhase .clkReq u)) goes) (s := s) rfl
    fun _ _ _ _ => rfl
  exact ⟨t, k, by rw [Nat.add_comm, ← List.replicate_append_replicate]; exact h3⟩

/-- UPDATE_RGB.GPIO, its bytes admitted: TRANSMITTING at every micro-step, through the layout, the clock request and on. -/
theorem gpioRgb_runs {a n : Nat} {s : State} (hwf : cfgWf s.cfg = true) (ha : RecordsReadable s a n)
    (hw : BytesWritable s a (stride s.cfg * n)) :
    ∃ t k, (3 + stride s.cfg) * n < k ∧ Runs (gpioRgb a n) id s t (List.replicate k (statusIn .transmitting s)) := by
  obtain ⟨t1, h1⟩ := layoutFrom_runs (s := setPhase .layout (setState .transmitting s)) (a := a) (k := n) (i := 0)
    (fun j hj b hb => ha j (by omega) b hb) (fun j hj ch hch => by
      have ho : order s.cfg ch < stride s.cfg := order_lt hwf hch
      have hm : stride s.cfg * (j + 1) ≤ stride s.cfg * n := Nat.mul_le_mul_left _ (by omega)
      rw [Nat.mul_succ] at hm
      have := hw (stride s.cfg * j + order s.cfg ch) (by omega)
      rw [← Nat.add_assoc] at this
      exact this)
  obtain ⟨t, k, h2⟩ := gpioGranted_runs (s := t1) (a := a) (n := n) fun j hj => by
    rw [h1.2.read h1.1.cfg]
    exact admitsRead_of_admitsWrite (hw j (h1.1.cfg ▸ hj))
  rw [h1.2.1] at h2
  have h3 := (h1.1.seq (f := fun u => andThen (clockRequest (setPhase .clkReq u)) fun x =>
    match x.1 with
    | .fail e => complete .clockControlFailure e x.2
    | .ok => gpioTransmit a n x.2) h2).after (op' := gpioRgb a n) (s := s) rfl fun _ _ _ _ => rfl
  refine ⟨t, (3 + stride s.cfg) * n + (k + 1), by omega, ?_⟩
  rw [← List.replicate_append_replicate]
  exact h3

end Sys2Proof.Machine
end

