-- ==== Sys2Proof/Laws/PerInstr.lean ====
section
/-! SUPPORT. Statements for all instructions, made per instruction: the shape of each instruction's code. -/

namespace Sys2Proof.Laws.CodeShape

/-- The code of an instruction is a command word, or an access of 4 bytes at a multiple of 4 from REG_BASE up to 0x28 (R63, R80, R141). -/
def Statement (i : Instr) : Prop :=
  ∀ base : Word,
    match encode base i with
    | .cmd _ => True
    | .bus (.load a w) => w = 4 ∧ (a - base).toNat % 4 = 0 ∧ (a - base).toNat ≤ 0x28
    | .bus (.store a data) => data.length = 4 ∧ (a - base).toNat % 4 = 0 ∧ (a - base).toNat ≤ 0x28

/-- The offset of a register (R24). -/
theorem offset_aligned (r : Reg) : r.offset.toNat % 4 = 0 ∧ r.offset.toNat ≤ 0x28 := by cases r <;> decide

theorem offset_of_addr (base off : Word) : base + off - base = off := by bv_omega

theorem updateRgbGpio : Statement .updateRgbGpio := fun _ => trivial
theorem updateChannelsGpio : Statement .updateChannelsGpio := fun _ => trivial
theorem updateRgbSpi : Statement .updateRgbSpi := fun _ => trivial
theorem updateChannelsSpi : Statement .updateChannelsSpi := fun _ => trivial
theorem reservedCmd (word : Word) : Statement (.reservedCmd word) := fun _ => trivial

theorem rd (reg : Reg) : Statement (.rd reg) := fun base => by
  simp only [encode, offset_of_addr]
  exact ⟨trivial, offset_aligned reg⟩

theorem wrAddr (value : Word) : Statement (.wrAddr value) := fun base => by
  simp only [encode, offset_of_addr]
  exact ⟨rfl, offset_aligned .addr⟩

theorem wrCount (value : Word) : Statement (.wrCount value) := fun base => by
  simp only [encode, offset_of_addr]
  exact ⟨rfl, offset_aligned .count⟩

theorem wrRo (reg : Reg) (value : Word) : Statement (.wrRo reg value) := fun base => by
  simp only [encode, offset_of_addr]
  exact ⟨rfl, offset_aligned reg⟩

theorem wrCmd (word : Word) : Statement (.wrCmd word) := fun base => by
  simp only [encode, offset_of_addr]
  exact ⟨rfl, offset_aligned .cmd⟩

end Sys2Proof.Laws.CodeShape
end

