-- ==== Sys2Proof/Tests/Slice0.lean ====
section
/-! SUPPORT. Tests: an ill-formed term for each check, words written out from the spec's encodings, the vectors of
95_test_vectors.md on single steps, and for each statement a state that meets its hypotheses. Expected values are the spec's. -/

namespace Sys2Proof.Tests

open Sys2Proof.Machine

/-! ### Helpers -/

/-- An instance after a successful init, with its arguments, its memory and the oracles' answers. -/
def at' (c : Cfg) (a n : Word) (mem : List Host.Cell) (replies : List Word) : State :=
  { initDone (State.resetWith c) with
    addr := a, count := n, mem := mem, replies := replies.map fun e => { error := e, sent := 2 } }

/-- A GPIO configuration with short slots: TH(1) = 2, TH(0) = 1, TPER = 3, GAP = 1. -/
def fastGpio : Cfg := { Config.exGpio with t1h := 2, t0h := 1, tper := 3, gap := 1 }

/-- EX-GPIO with GRB order. -/
def grbGpio : Cfg := { Config.exGpio with ordR := 1, ordG := 0 }

/-- EX-SPI with GRBW and 4-byte records. -/
def grbwSpi : Cfg := { Config.exSpi with hasWhite := true, ordR := 1, ordG := 0, ordW := 3, recordBytes := 4 }

/-- STATUS of the next state. -/
def statusOf : Out State → Option Word
  | .next t => some (statusWord t.status)
  | _ => none

/-- TRACE of the next state. -/
def traceOf : Out State → Option (List Event)
  | .next t => some t.trace
  | _ => none

/-- Bytes of memory of the next state. -/
def memOf (a n : Nat) : Out State → Option (List Byte)
  | .next t => some (memBytes t.mem a n)
  | _ => none

def isNext : Out State → Bool
  | .next _ => true
  | _ => false

def refusalOf : Out State → Option Refusal
  | .refused r => some r
  | _ => none

def isFault : Out State → Bool
  | .fault _ => true
  | _ => false

theorem next_of {o : Out State} (h : isNext o = true) : ∃ t, o = .next t := by
  cases o with
  | next t => exact ⟨t, rfl⟩
  | fault r => cases h
  | refused r => cases h

theorem next_of_all {os : List (Out State)} (h : os.all isNext = true) : ∀ o ∈ os, ∃ t, o = .next t :=
  fun o ho => next_of (List.all_eq_true.mp h o ho)

theorem fault_of {o : Out State} (h : isFault o = true) : ∃ f, o = .fault f := by
  cases o with
  | next t => cases h
  | fault r => exact ⟨r, rfl⟩
  | refused r => cases h

/-! ### Well-formedness -/

theorem test_wf_gpio_row_on_spi : Instr.wf .spi .updateRgbGpio = false ∧ Instr.wf .spi .updateChannelsGpio = false := by decide
theorem test_wf_spi_row_on_gpio : Instr.wf .gpio .updateRgbSpi = false ∧ Instr.wf .gpio .updateChannelsSpi = false := by decide
theorem test_wf_reserved_word : Instr.wf .spi (.reservedCmd 1) = false ∧ Instr.wf .spi (.reservedCmd 2) = false ∧
    Instr.wf .spi (.reservedCmd 0x11) = true := by decide
theorem test_wf_read_only : Instr.wf .spi (.wrRo .addr 0) = false ∧ Instr.wf .spi (.wrRo .count 0) = false ∧
    Instr.wf .spi (.wrRo .cmd 0) = false ∧ Instr.wf .spi (.wrRo .status 0) = true := by decide

/-- Each check of R16 refuses a configuration, and the examples of D49 pass. -/
theorem test_cfg_checks :
    cfgWf Config.exSpi = true ∧ cfgWf Config.exGpio = true ∧ cfgWf fastGpio = true ∧ cfgWf grbwSpi = true ∧
    wfOrder { Config.exSpi with ordG := 0 } = false ∧ wfOrder { Config.exSpi with ordB := 3 } = false ∧
    wfRecord { Config.exSpi with recordBytes := 5 } = false ∧ wfRecord { Config.exGpio with hasWhite := true, ordW := 3 } = false ∧
    wfTiming { Config.exGpio with t0h := 0 } = false ∧ wfTiming { Config.exGpio with t1h := 6 } = false ∧
    wfTiming { Config.exGpio with tper := 14 } = false ∧ wfTiming { Config.exGpio with cpuClkHz := 0 } = false ∧
    wfSpi { Config.exSpi with busFreqHz := 0 } = false ∧ wfBase { Config.exSpi with regBase := 2 } = false := by decide

/-- wf_exclusive refuses a second instance on the same bus, and not one with the same number on a pin (R16). -/
theorem test_exclusive :
    handlesExclusive { State.reset with peers := [⟨.spi, 1⟩] } = false ∧
    handlesExclusive { State.reset with peers := [⟨.gpio, 1⟩, ⟨.spi, 2⟩] } = true := by decide

/-! ### Decoding -/

/-- The accesses of programs P1 to P7 (95_test_vectors.md), at REG_BASE 0x40000000. -/
theorem test_decode_program_accesses :
    decode .spi 0x40000000 (.bus (.load 0x4000000C 4)) = .ok (.rd .status) ∧
    decode .gpio 0x40000000 (.bus (.store 0x40000004 [0x00, 0x01, 0x00, 0x20])) = .ok (.wrAddr 0x20000100) ∧
    decode .spi 0x40000000 (.bus (.store 0x40000008 [0x05, 0x00, 0x00, 0x00])) = .ok (.wrCount 5) ∧
    decode .spi 0x40000000 (.bus (.store 0x40000000 [0x02, 0x00, 0x00, 0x00])) = .ok (.wrCmd 2) ∧
    decode .spi 0x40000000 (.bus (.store 0x4000000C [0xFF, 0xFF, 0xFF, 0xFF])) = .ok (.wrRo .status 0xFFFFFFFF) := by decide

/-- The opcode map of R64 to R66 on both transports, bits written out: OP is bits [3:0], RSV the rest. -/
theorem test_decode_command_words :
    decodeCmd .gpio 0b0001 = .updateRgbGpio ∧ decodeCmd .spi 0b0001 = .updateRgbSpi ∧
    decodeCmd .gpio 0b0010 = .updateChannelsGpio ∧ decodeCmd .spi 0b0010 = .updateChannelsSpi ∧
    decodeCmd .spi 0b0000 = .reservedCmd 0 ∧ decodeCmd .spi 0b0011 = .reservedCmd 3 ∧ decodeCmd .gpio 0b1111 = .reservedCmd 15 ∧
    decodeCmd .spi 0x80000001 = .reservedCmd 0x80000001 := by decide

/-- The refusals of V22: a byte load, a misaligned load, one outside the window, one below it. -/
theorem test_decode_refusals :
    decode .spi 0x40000000 (.bus (.load 0x4000000C 1)) = .error .wrongWidth ∧
    decode .spi 0x40000000 (.bus (.load 0x4000000E 4)) = .error .misaligned ∧
    decode .spi 0x40000000 (.bus (.load 0x4000002C 4)) = .error .outsideWindow ∧
    decode .spi 0x40000000 (.bus (.load 0x3FFFFFFC 4)) = .error .outsideWindow ∧
    decode .spi 0x40000000 (.bus (.store 0x40000004 [1, 2])) = .error .wrongWidth := by decide

/-- The value of a store is little-endian (R49). -/
theorem test_word_of_bytes : wordOfBytes [0x78, 0x56, 0x34, 0x12] = 0x12345678 ∧ bytesOfWord 0x12345678 = [0x78, 0x56, 0x34, 0x12] := by
  decide

/-- The table's own numbering (opcode_table.json). -/
theorem test_table_words :
    decodeTableWord 32 1 = some .updateRgbSpi ∧ decodeTableWord 32 2 = some .updateChannelsSpi ∧
    decodeTableWord 32 3 = some (.reservedCmd 3) ∧ decodeTableWord 32 0x0C = some (.wrRo .status 0) ∧
    decodeTableWord 32 4 = some (.wrAddr 0) ∧ decodeTableWord 32 8 = some (.wrCount 0) ∧ decodeTableWord 32 0x10 = some (.rd .cfg0) := by
  decide

/-! ### Constants and the pixel model -/

/-- V4: the reset-frame counts. -/
theorem test_v4_reset_frames :
    [0, 1, 1333333, 1333334, 2400000, 4000000, 6400000, 8000000, 4294967295].map resetFrameCount =
      [1, 2, 2, 3, 3, 4, 6, 7, 3223] := by decide

/-- V5: SER at EX-SPI. -/
theorem test_v5_ser :
    ser Config.exSpi 0x80 = [0xF8, 0xC0, 0xC0, 0xC0, 0xC0, 0xC0, 0xC0, 0xC0] ∧
    ser Config.exSpi 0xA5 = [0xF8, 0xC0, 0xF8, 0xC0, 0xC0, 0xF8, 0xC0, 0xF8] := by decide

/-- V7: channel orders. -/
theorem test_v7_wire_of :
    wireOf grbGpio ⟨0x11, 0x22, 0x33⟩ = [0x22, 0x11, 0x33] ∧
    wireOf { Config.exGpio with ordB := 0, ordR := 1, ordG := 2 } ⟨0x11, 0x22, 0x33⟩ = [0x33, 0x11, 0x22] ∧
    wireOf { grbwSpi with ordW := 0, ordR := 1, ordG := 2, ordB := 3 } ⟨0x11, 0x22, 0x33⟩ = [0x00, 0x11, 0x22, 0x33] ∧
    wireOf { grbwSpi with ordR := 0, ordG := 1, ordW := 2, ordB := 3 } ⟨0x11, 0x22, 0x33⟩ = [0x11, 0x22, 0x00, 0x33] := by decide

/-- V23: CFG0 and the other configuration registers. -/
theorem test_v23_configuration_registers :
    cfg0Word Config.exGpio = 0x000D0090 ∧ cfg0Word grbGpio = 0x000D0084 ∧ cfg0Word Config.exSpi = 0x00010091 ∧
    cfg0Word grbwSpi = 0x00010787 ∧ framesWord Config.exSpi = 0x0006C0F8 ∧ tHighWord Config.exGpio = 0x0006000E ∧
    tPerWord Config.exGpio = 0x00000014 ∧ cpuHzWord Config.exGpio = 0x00F42400 ∧ busFreqWord Config.exSpi = 0x0061A800 ∧
    maxPixWord Config.exSpi = 4 ∧ cpuHzWord Config.exSpi = 0 ∧ framesWord Config.exGpio = 0 := by decide

/-- V25: TIMING_OK. -/
theorem test_v25_timing_ok :
    timingOk Config.exGpio = true ∧ timingOk { Config.exGpio with t1h := 10 } = false ∧
    timingOk { Config.exGpio with gap := 4 } = false ∧ timingOk { Config.exGpio with gap := 1 } = true := by decide

/-- V11: with GAP_CYC = 5 and two wire bytes, slot 7 lasts 25 cycles, slot 8 starts at 165, the burst lasts 325. -/
theorem test_v11_gap :
    slotLen { Config.exGpio with gap := 5 } 2 0 0 = 25 ∧ slotStart { Config.exGpio with gap := 5 } 8 = 165 ∧
    slotLen { Config.exGpio with gap := 5 } 2 1 0 = 20 ∧ burstLength { Config.exGpio with gap := 5 } 2 = 325 := by decide

/-- V9: the edges of wire byte 0xA5 at EX-GPIO. -/
theorem test_v9_edges :
    [0, 13, 14, 19, 20, 25, 26, 153, 154, 159].map (pinHighAt Config.exGpio [0xA5]) =
      [true, true, false, false, true, true, false, true, false, false] := by decide

/-! ### Reset, init and register access -/

/-- R44: STATUS is 0 after reset, and the registers read so. -/
theorem test_reset : statusWord State.reset.status = 0 ∧ State.reset.pin = .z ∧ memWf State.reset.mem = true ∧
    regWord State.reset .addr = 0 ∧ regWord State.reset .count = 0 ∧ regWord State.reset .cmd = 0 := by decide

/-- V24: init's five cases. -/
theorem test_v24_init :
    statusOf (step { State.resetWith Config.exGpio with replies := [⟨0, 0⟩, ⟨0, 0⟩] }) = some 0x00000040 ∧
    statusOf (step { State.resetWith Config.exGpio with replies := [⟨0, 0⟩, ⟨5, 0⟩] }) = some 0x00000001 ∧
    statusOf (step { State.resetWith Config.exGpio with replies := [⟨5, 0⟩] }) = some 0x00000001 ∧
    statusOf (step { State.resetWith Config.exSpi with replies := [⟨0, 0⟩] }) = some 0x00000040 ∧
    statusOf (step { State.resetWith Config.exSpi with replies := [⟨5, 0⟩] }) = some 0x00000001 := by decide

/-- V22: loads after init. -/
theorem test_v22_loads :
    (match exec (.rd .status) (at' Config.exSpi 0 0 [] []) with | .next t => some t.loads | _ => none) = some [(.status, 0x00000040)] ∧
    (match exec (.rd .cmd) (at' Config.exSpi 0 0 [] []) with | .next t => some t.loads | _ => none) = some [(.cmd, 0)] := by decide

/-- V22: stores to COUNT and to read-only registers. -/
theorem test_v22_stores :
    (match exec (.wrCount 3) (at' Config.exSpi 7 0 [] []) with | .next t => some (t.count, t.addr) | _ => none) = some (3, 7) ∧
    (match exec (.wrAddr 9) (at' Config.exSpi 7 2 [] []) with | .next t => some (t.count, t.addr) | _ => none) = some (2, 9) ∧
    statusOf (exec (.wrRo .status 0xFFFFFFFF) (at' Config.exSpi 0 0 [] [])) = some 0x00000040 := by decide

/-- V22: command refusals. -/
theorem test_v22_command_refusals :
    refusalOf (exec (.wrCmd 3) (at' Config.exSpi 0 0 [] [])) = some (.reservedCommand 3) ∧
    refusalOf (exec (.wrCmd 0x11) (at' Config.exSpi 0 0 [] [])) = some (.reservedCommand 0x11) ∧
    refusalOf (exec (.wrCmd 1) State.reset) = some .notReady ∧
    refusalOf (exec (.wrCmd 1) (at' Config.exSpi 0xFFFFFFFE 1 [] [])) = some .rangeWraps ∧
    refusalOf (exec (.wrCmd 2) (at' Config.exSpi 0xFFFFFFFF 2 [] [])) = some .rangeWraps := by decide

/-- V22: a range that ends exactly at 2^32 is accepted. -/
theorem test_v22_end_of_memory : statusOf (exec (.wrCmd 1) (at' Config.exSpi 0xFFFFFFFD 1 [] [0, 0])) = some 0x00000040 := by decide

/-! ### SPI commands -/

/-- The buffer 80 01 FF of V20, V21 and P3. -/
def chans : List Host.Cell := [(0x20000200, 0x80), (0x20000201, 0x01), (0x20000202, 0xFF)]

/-- P3: the second channel's DATA and RESET both fail. -/
theorem test_p3_channels_stop :
    statusOf (exec (.wrCmd 2) (at' Config.exSpi 0x20000200 3 chans [0, 0, 0xFFFFFFFB, 0xFFFFFFF5])) = some 0xFFFB0044 ∧
    traceOf (exec (.wrCmd 2) (at' Config.exSpi 0x20000200 3 chans [0, 0, 0xFFFFFFFB, 0xFFFFFFF5])) = some
      [.memR 0x20000200 0x80,
        .bus .data (0xF8 :: List.replicate 7 0xC0) .ok (0xF8 :: List.replicate 7 0xC0),
        .bus .reset (List.replicate 6 0) .ok (List.replicate 6 0),
        .memR 0x20000201 0x01,
        .bus .data (List.replicate 7 0xC0 ++ [0xF8]) (.fail 0xFFFFFFFB) [0xC0, 0xC0],
        .bus .reset (List.replicate 6 0) (.fail 0xFFFFFFF5) [0, 0],
        .done .busFailure 0xFFFB] := by decide

/-- V20 with COUNT = 0: Done only. -/
theorem test_v20_no_channels : traceOf (exec (.wrCmd 2) (at' Config.exSpi 0 0 [] [])) = some [.done .ok 0] := by decide

/-- V16: over capacity, for any ADDR. -/
theorem test_v16_capacity :
    statusOf (exec .updateRgbSpi (at' Config.exSpi 0x20000300 5 [] [])) = some 0x00000042 ∧
    traceOf (exec .updateRgbSpi (at' Config.exSpi 0xFFFFFFFF 0xFFFFFFFF [] [])) = some [.done .capacityExceeded 0] := by decide

/-- V8: a white pixel (0xFF, 0xFF, 0xFF) of GRBW records sends 24 one frames and 8 zero frames. -/
theorem test_v8_white :
    (match exec .updateRgbSpi (at' grbwSpi 0x10 1 [(0x10, 0xFF), (0x11, 0xFF), (0x12, 0xFF), (0x13, 0xFF)] [0, 0]) with
      | .next t => some (t.trace.drop 3) | _ => none) = some
      [.bus .data (List.replicate 24 0xF8 ++ List.replicate 8 0xC0) .ok (List.replicate 24 0xF8 ++ List.replicate 8 0xC0),
        .bus .reset (List.replicate 6 0) .ok (List.replicate 6 0), .done .ok 0] := by decide

/-- V17 and V18: the DATA error wins, else the reset's error. -/
theorem test_v17_v18_results :
    statusOf (exec .updateRgbSpi (at' Config.exSpi 0 1 [] [0, 0xFFFFFFF5])) = some 0xFFF50044 ∧
    statusOf (exec .updateRgbSpi (at' Config.exSpi 0 1 [] [0xFFFFFFFB, 0])) = some 0xFFFB0044 ∧
    statusOf (exec .updateRgbSpi (at' Config.exSpi 0 1 [] [0xFFFFFFFB, 0xFFFFFFF5])) = some 0xFFFB0044 := by decide

/-! ### GPIO commands -/

/-- V13: UPDATE_CHANNELS.GPIO. -/
theorem test_v13_unsupported :
    statusOf (exec .updateChannelsGpio (at' Config.exGpio 0xFFFFFFFF 0xFFFFFFFF [] [])) = some 0x00000043 ∧
    traceOf (exec .updateChannelsGpio (at' Config.exGpio 0 5 [] [])) = some [.done .unsupported 0] := by decide

/-- V14: the clock request fails after the layout. -/
theorem test_v14_clock_request_fails :
    statusOf (exec .updateRgbGpio (at' grbGpio 0x100 1 [(0x100, 0x12), (0x101, 0x34), (0x102, 0x56)] [0xFFFFFFFB])) = some 0xFFFB0045 ∧
    memOf 0x100 3 (exec .updateRgbGpio (at' grbGpio 0x100 1 [(0x100, 0x12), (0x101, 0x34), (0x102, 0x56)] [0xFFFFFFFB])) =
      some [0x34, 0x12, 0x56] := by decide

/-- V6: the in-place layout of two 4-byte records. -/
theorem test_v6_layout :
    memOf 0x10 8 (layoutInplace 0x10 2 (at' { grbGpio with recordBytes := 4 } 0 0
      [(0x10, 0x11), (0x11, 0x22), (0x12, 0x33), (0x13, 0xAA), (0x14, 0x44), (0x15, 0x55), (0x16, 0x66), (0x17, 0xBB)] [])) =
      some [0x22, 0x11, 0x33, 0x55, 0x44, 0x66, 0x66, 0xBB] := by decide

/-- V12: COUNT = 0. -/
theorem test_v12_no_pixels :
    traceOf (exec .updateRgbGpio (at' Config.exGpio 0 0 [] [0, 0])) =
      some [.clkReq .ok, .mask true, .mask false, .clkRel .ok, .done .ok 0] := by decide

/-- The first slot of a burst at 3 cycles a slot: a one bit is high for 2 cycles, then low. -/
theorem test_burst_slot :
    ([1, 2, 3, 4].map fun k =>
      match andThen (burstEnter 0x10 1 (at' fastGpio 0 0 [(0x10, 0x80)] [])) (burstRun 0x10 k) with
      | .next t => some t.pin | _ => none) = [some .high, some .high, some .low, some .high] := by decide

/-- V10's shape at 3 cycles a slot: the command ends OK with the mask cleared and the pin low. -/
theorem test_v10_one_pixel :
    (match exec .updateRgbGpio (at' fastGpio 0x10 1 [(0x10, 0x80), (0x12, 0x01)] [0, 0]) with
      | .next t => some (statusWord t.status, t.irqMask, t.clkReq, t.pin, t.g.sent) | _ => none) =
      some (0x00000040, false, false, .low, [0x80, 0x00, 0x01]) := by decide

/-! ### Witnesses: for each statement with hypotheses, a state and operands that meet all of them, at the edges of each clause -/

/-- An EX-SPI instance with its arguments and every oracle answer ok. -/
def spiAt (a n : Word) : State := at' Config.exSpi a n [] [0, 0]

/-- A GPIO instance with short slots, its arguments and every oracle answer ok. -/
def gpioAt (a n : Word) : State := at' fastGpio a n [(0x10, 0x80), (0x12, 0x01)] [0, 0]

theorem witness_DecodeOfEncodeIsTheInstruction :
    Instr.wf .gpio .updateRgbGpio = true ∧ Instr.wf .gpio .updateChannelsGpio = true ∧ Instr.wf .spi .updateRgbSpi = true ∧
    Instr.wf .spi .updateChannelsSpi = true ∧ Instr.wf .spi (.reservedCmd 0xFFFFFFFF) = true ∧ Instr.wf .spi (.rd .cpuHz) = true ∧
    Instr.wf .spi (.wrAddr 0xFFFFFFFF) = true ∧ Instr.wf .gpio (.wrCount 0) = true ∧ Instr.wf .gpio (.wrRo .cpuHz 1) = true ∧
    Instr.wf .spi (.wrCmd 0) = true := by decide

theorem witness_EncodeOfDecodeIsTheCode :
    decode .spi 0x40000000 (.bus (.load 0x40000028 4)) = .ok (.rd .cpuHz) ∧
    decode .gpio 0xFFFFFFF0 (.bus (.store 0x00000000 [1, 2, 3, 4])) = .ok (.wrRo .cfg0 0x04030201) ∧
    decode .spi 0x40000000 (.cmd 0xFFFFFFFF) = .ok (.reservedCmd 0xFFFFFFFF) := by decide

/-- A state after init with one code to present. -/
def presents (code : Code) : State := { at' Config.exSpi 0 0 [] [] with program := [.op (.present code)] }

theorem witness_CheckAccessAdmitsExactlyTheElevenWords :
    checkAccess 0x28 4 = .ok .cpuHz ∧
    (∀ acc ∈ [Access.load 0x4000002C 4, .load 0x40000028 2, .load 0x40000001 4, .store 0x4000002C [0, 0, 0, 0],
        .store 0x40000000 [0], .store 0x40000002 [0, 0, 0, 0]],
      wellConstructed (presents (.bus acc)) = true ∧ Alone (presents (.bus acc)) ∧ (presents (.bus acc)).boot = .complete ∧
      (presents (.bus acc)).program = .op (.present (.bus acc)) :: []) ∧
    ¬ ((4 : Nat) = 4 ∧ ((0x4000002C : Word) - 0x40000000).toNat % 4 = 0 ∧ ((0x4000002C : Word) - 0x40000000).toNat ≤ 0x28) := by
  decide

theorem witness_StepRunsTheDecodedInstruction :
    wellConstructed (presents (.bus (.load 0x4000000C 4))) = true ∧
    (∀ tm ∈ ({ presents (.bus (.load 0x4000000C 4)) with others := [⟨1, .remap []⟩] } : State).others.head?, 0 < tm.delay) ∧
    (presents (.bus (.load 0x4000000C 4))).boot = .complete ∧
    decode Config.exSpi.transport Config.exSpi.regBase (.bus (.load 0x4000000C 4)) = .ok (.rd .status) := by decide

/-- An instance of a misaligned window: the conjunct about REG_BASE fails, and with it the whole. -/
theorem witness_IllFormedConfigurationHasNoStep :
    ∃ s : State, ¬ (((channels s.cfg).map (order s.cfg)).Nodup ∧ (∀ ch ∈ channels s.cfg, order s.cfg ch < stride s.cfg) ∧
      (s.cfg.recordBytes = 3 ∨ s.cfg.recordBytes = 4) ∧ (s.cfg.transport = .gpio → stride s.cfg ≤ s.cfg.recordBytes) ∧
      (s.cfg.transport = .gpio → 1 ≤ s.cfg.t0h.toNat ∧ s.cfg.t0h.toNat < s.cfg.t1h.toNat ∧
        s.cfg.t1h.toNat < s.cfg.tper.toNat ∧ 0 < s.cfg.cpuClkHz.toNat) ∧
      (s.cfg.transport = .spi → 0 < s.cfg.busFreqHz.toNat) ∧ s.cfg.regBase.toNat % 4 = 0 ∧
      (∀ p ∈ s.peers, p.transport = s.cfg.transport →
        p.id ≠ (match s.cfg.transport with | .gpio => s.cfg.pinId | .spi => s.cfg.busId))) :=
  ⟨State.resetWith { Config.exSpi with regBase := 1 }, fun h => absurd h.2.2.2.2.2.2.1 (by decide)⟩

/-- A state whose program resets it. -/
def resets : State := { at' Config.exGpio 7 9 [] [] with program := [.reset] }

theorem witness_ResetLeavesTheTabledValues :
    wellConstructed resets = true ∧ Alone resets ∧ resets.boot = .complete ∧ resets.program = .reset :: [] := by decide

/-- An instance before init, with the answers to its handles. -/
def beforeInit (c : Cfg) (es : List Word) : State := { State.resetWith c with replies := es.map fun e => { error := e, sent := 0 } }

/-- Both outcomes, on both transports: every handle found, the second not found, the first not found. -/
theorem witness_InitResolvesTheHandles :
    ∀ s ∈ [beforeInit Config.exGpio [0, 0], beforeInit Config.exGpio [0, 5], beforeInit Config.exSpi [0], beforeInit Config.exSpi [5]],
      wellConstructed s = true ∧ Alone s ∧ s.boot = .pending := by decide

theorem witness_NoInstructionChangesReady :
    cfgWf (gpioAt 0x10 1).cfg = true ∧ ∃ t, exec .updateRgbGpio (gpioAt 0x10 1) = .next t :=
  ⟨by decide, next_of (by decide)⟩

theorem witness_NoStepWritesTheConfiguration : ∃ t, step State.reset = .next t := next_of (by decide)

/-- A state that meets the invariant, and its step is a GPIO command's. -/
def invState : State := { gpioAt 0x10 1 with program := [.op (.present (.cmd 1))] }

theorem witness_EveryStepKeepsTheInvariant : Inv invState ∧ ∃ t, step invState = .next t := by
  refine ⟨?_, next_of (by decide)⟩
  constructor <;> decide

/-- The lowest and the highest read-only register. -/
theorem witness_ReadOnlyStoreHasNoEffect : 0x0C ≤ (Reg.offset .status).toNat ∧ 0x0C ≤ (Reg.offset .cpuHz).toNat := by
  decide

theorem witness_CommandRowsRefuse :
    (spiAt 0 0).cfg.transport = .spi ∧ (gpioAt 0 0).cfg.transport = .gpio ∧
    Instr.wf (spiAt 0 0).cfg.transport .updateRgbSpi = true ∧ Instr.wf (gpioAt 0 0).cfg.transport .updateChannelsGpio = true ∧
    State.reset.status.ready = false ∧ (setState .latching (spiAt 0 0)).status.ready = true ∧
    (setState .latching (spiAt 0 0)).status.state ≠ .idle := by decide

theorem witness_AcceptedCommandStoreReachesFinish :
    CommandRuns 1 (gpioAt 0x10 1) ∧ CommandRuns 1 (spiAt 0xFFFFFFF4 4) ∧ CommandRuns 1 (spiAt 0xFFFFFFFF 5) ∧
    CommandRuns 2 (gpioAt 0xFFFFFFFF 0xFFFFFFFF) ∧ CommandRuns 2 (spiAt 0xFFFFFFFE 2) :=
  ⟨.inl ⟨rfl, .inl (by decide)⟩, .inl ⟨rfl, .inr (.inl (by decide))⟩, .inl ⟨rfl, .inr (.inr (by decide))⟩,
    .inr ⟨rfl, .inl (by decide)⟩, .inr ⟨rfl, .inr (by decide)⟩⟩

/-- `s` with these operations of other agents still to come. -/
def withOthers (s : State) (ops : List Timed) : State := { s with others := ops }

/-- An EX-SPI instance with every answer of two channels ok. -/
def chansAt (a n : Word) : State := at' Config.exSpi a n [] [0, 0, 0, 0]

/-- The first and the last micro-step of each command's bound. -/
theorem witness_SecondCommandIsRefusedWhileOneRuns :
    (∃ t, exec .updateRgbGpio (withOthers (gpioAt 0x10 1) [statusLoad fastGpio 6]) = .next t) ∧
    reservedWord 1 = false ∧ reservedWord 2 = false ∧
    (∀ d ∈ [0, 16], (withOthers (spiAt 0xFFFFFFF4 4) [wordStore Config.exSpi d 0 1]).others =
      wordStore (spiAt 0xFFFFFFF4 4).cfg d 0 1 :: []) ∧
    SpiRgbRuns (withOthers (spiAt 0xFFFFFFF4 4) []) ∧ 16 ≤ 3 * operandN (spiAt 0xFFFFFFF4 4) + 4 ∧
    SpiChannelsRuns (withOthers (chansAt 0xFFFFFFFE 2) []) ∧ ChannelsOk (chansAt 0xFFFFFFFE 2) (operandN (chansAt 0xFFFFFFFE 2)) ∧
    11 < 6 * operandN (chansAt 0xFFFFFFFE 2) ∧
    GpioRgbRuns (withOthers (gpioAt 0x10 2) []) ∧ 12 ≤ (3 + stride (gpioAt 0x10 2).cfg) * operandN (gpioAt 0x10 2) :=
  ⟨next_of (by decide), by decide⟩

/-- A load in each state of each command: ENCODING, TRANSMITTING and LATCHING at their first and last micro-steps. -/
theorem witness_SecondAgentSeesTheRunningState :
    (∃ t, exec .updateRgbGpio (withOthers (gpioAt 0x10 1) [statusLoad fastGpio 6]) = .next t) ∧
    (∀ d ∈ [0, 12, 13, 14, 15, 16], (withOthers (spiAt 0xFFFFFFF4 4) [statusLoad Config.exSpi d]).others =
        [statusLoad (spiAt 0xFFFFFFF4 4).cfg d] ∧ d ≤ 3 * operandN (spiAt 0xFFFFFFF4 4) + 4) ∧
    SpiRgbRuns (withOthers (spiAt 0xFFFFFFF4 4) []) ∧ SpiRgbRuns (withOthers (spiAt 0xFFFFFFFF 0) []) ∧
    SpiChannelsRuns (withOthers (chansAt 0xFFFFFFFE 2) []) ∧ ChannelsOk (chansAt 0xFFFFFFFE 2) (operandN (chansAt 0xFFFFFFFE 2)) ∧
    (∀ d ∈ [0, 1, 2, 3, 4, 5, 6, 11], d < 6 * operandN (chansAt 0xFFFFFFFE 2)) ∧
    GpioRgbRuns (withOthers (gpioAt 0x10 2) []) :=
  ⟨next_of (by decide), by decide⟩

/-- A load and a store of another agent, and for the second clause a first and a later micro-step of each command. -/
theorem witness_RunningCommandHasLatchedItsOperands :
    (∀ tm ∈ [statusLoad Config.exSpi 3, wordStore Config.exSpi 0 4 9, wordStore Config.exSpi 2 8 9],
      isRegisterAccess (spiAt 0 1).cfg tm.op = true) ∧
    (Alone (spiAt 0xFFFFFFF4 4) ∧ operandN (spiAt 0xFFFFFFF4 4) ≤ (spiAt 0xFFFFFFF4 4).cfg.maxPixels.toNat ∧
      SpiRgbRuns (spiAt 0xFFFFFFF4 4) ∧ 16 ≤ 3 * operandN (spiAt 0xFFFFFFF4 4) + 4) ∧
    (0 < operandN (chansAt 0xFFFFFFFE 2) ∧ SpiChannelsRuns (chansAt 0xFFFFFFFE 2) ∧
      ChannelsOk (chansAt 0xFFFFFFFE 2) (operandN (chansAt 0xFFFFFFFE 2)) ∧ 11 < 6 * operandN (chansAt 0xFFFFFFFE 2)) ∧
    GpioRgbRuns (gpioAt 0x10 2) ∧ 12 ≤ (3 + stride (gpioAt 0x10 2).cfg) * operandN (gpioAt 0x10 2) := by
  decide

/-- What a load of STATUS by another agent gets, when it comes before micro-step `d` of the command (R40, R140). -/
def seenAt (i : Instr) (s : State) (d : Nat) : Option (List (Reg × Word)) :=
  match exec i (withOthers s [statusLoad s.cfg d]) with
  | .next t => some t.loads
  | _ => none

/-- R40: an UPDATE_RGB.SPI shows ENCODING (0x50), TRANSMITTING (0x60) and LATCHING (0x70), also for no pixels, and IDLE never. -/
theorem test_states_of_update_rgb_spi :
    (List.range 6).map (seenAt .updateRgbSpi (spiAt 0 0)) =
      [some [(.status, 0x50)], some [(.status, 0x60)], some [(.status, 0x60)], some [(.status, 0x70)], some [(.status, 0x70)],
        some []] := by decide

/-- R40, R124: the three states come again in the second channel. -/
theorem test_states_of_update_channels_spi :
    [0, 2, 4, 6, 8, 11].map (seenAt .updateChannelsSpi (chansAt 0 2)) =
      [some [(.status, 0x50)], some [(.status, 0x60)], some [(.status, 0x70)], some [(.status, 0x50)], some [(.status, 0x60)],
        some [(.status, 0x70)]] := by decide

/-- R94: an UPDATE_RGB.GPIO shows TRANSMITTING from its first micro-step to its last, the 86th at 3 cycles a slot. -/
theorem test_states_of_update_rgb_gpio :
    [0, 6, 7, 40, 85, 86].map (seenAt .updateRgbGpio (gpioAt 0x10 1)) =
      List.replicate 5 (some [(.status, 0x60)]) ++ [some []] := by decide

theorem witness_WireByteHoldsItsChannel : cfgWf grbwSpi = true ∧ (1 : Nat) < 2 ∧ Channel.white ∈ channels grbwSpi := by decide

theorem witness_WhiteSlotIsZero : cfgWf grbwSpi = true ∧ grbwSpi.hasWhite = true ∧ (1 : Nat) < 2 := by decide

theorem witness_SerIsEightFramesByBit : (7 : Nat) < 8 := by decide

theorem witness_FrameGroupOfWireByte : (1 : Nat) < [(0x80 : Byte), 0x01].length ∧ (7 : Nat) < 8 := by decide

theorem witness_GpioChannelsIsUnsupported :
    (gpioAt 0xFFFFFFFF 0xFFFFFFFF).cfg.transport = .gpio ∧ (gpioAt 0xFFFFFFFF 0xFFFFFFFF).status.ready = true ∧
    (gpioAt 0xFFFFFFFF 0xFFFFFFFF).status.state = .idle := by decide

theorem witness_LayoutInPlaceLeavesTheWireStream :
    ∀ n ∈ [0, 2], cfgWf (gpioAt 0 0).cfg = true ∧ (gpioAt 0 0).cfg.transport = .gpio ∧ memWf (gpioAt 0 0).mem = true ∧
      Alone (gpioAt 0 0) ∧ (gpioAt 0 0).race.raced = [] ∧ RecordsReadable (gpioAt 0 0) 0x10 n ∧
      BytesWritable (gpioAt 0 0) 0x10 (stride (gpioAt 0 0).cfg * n) := by decide

theorem witness_BurstProducesTheClosedForm :
    cfgWf (gpioAt 0 0).cfg = true ∧ (gpioAt 0 0).cfg.transport = .gpio ∧ Alone (gpioAt 0 0) ∧ (gpioAt 0 0).race.raced = [] ∧
    [(0x80 : Byte), 0x00, 0x01] ≠ [] ∧
    (∀ j, j < 3 → admitsRead (gpioAt 0 0) (0x10 + j) = true ∧
      memGet (gpioAt 0 0).mem (0x10 + j) = [(0x80 : Byte), 0x00, 0x01].getD j 0) := by decide

/-- The three clauses at their edges: inside a byte, the last slot of a byte that is not the last, the last slot. -/
theorem witness_SlotsAreFixedLength : ∀ k ∈ [0, 7, 15], 0 < 2 ∧ k < 8 * 2 ∧ (k + 1 < 8 * 2 ∨ k + 1 = 8 * 2) := by decide

theorem witness_SlotIsHighForItsBit :
    cfgWf fastGpio = true ∧ fastGpio.transport = .gpio ∧ 7 < 8 * [(0x80 : Byte), 0x01].length ∧
    3 < slotLen fastGpio 2 (7 / 8) (7 - 7 % 8) := by decide

/-- `s` with these oracle answers. -/
def answered (s : State) (es : List Word) : State := { s with replies := es.map fun e => { error := e, sent := 0 } }

theorem witness_GpioRgbSendsTheWireStream :
    ∀ s ∈ [gpioAt 0x10 0, gpioAt 0x10 2], GpioRgbRuns s ∧ memWf s.mem = true ∧ (replyAt s 0).error = 0 ∧
      (replyAt s 1).error = 0 := by decide

theorem witness_GpioClockRequestFailure :
    GpioRgbRuns (answered (gpioAt 0x10 2) [5]) ∧ memWf (answered (gpioAt 0x10 2) [5]).mem = true ∧
    (replyAt (answered (gpioAt 0x10 2) [5]) 0).error ≠ 0 := by decide

theorem witness_GpioClockReleaseFailure :
    GpioRgbRuns (answered (gpioAt 0x10 2) [0, 5]) ∧ memWf (answered (gpioAt 0x10 2) [0, 5]).mem = true ∧
    (replyAt (answered (gpioAt 0x10 2) [0, 5]) 0).error = 0 ∧ (replyAt (answered (gpioAt 0x10 2) [0, 5]) 1).error ≠ 0 := by decide

theorem witness_GpioCommandFrame :
    cfgWf (gpioAt 0x10 1).cfg = true ∧ Alone (gpioAt 0x10 1) ∧ (∃ t, exec .updateRgbGpio (gpioAt 0x10 1) = .next t) ∧
    ∃ t, exec .updateChannelsGpio (gpioAt 0x10 1) = .next t :=
  ⟨by decide, by decide, next_of (by decide), next_of (by decide)⟩

theorem witness_GpioResultSet :
    (∃ t, exec .updateRgbGpio (gpioAt 0x10 1) = .next t) ∧ ∃ t, exec .updateChannelsGpio (gpioAt 0x10 1) = .next t :=
  ⟨next_of (by decide), next_of (by decide)⟩

theorem witness_MaskPulsesOncePerGrantedBurst :
    cfgWf (gpioAt 0x10 1).cfg = true ∧ (gpioAt 0x10 1).irqMask = false ∧
    ∀ o ∈ [exec .updateRgbGpio (gpioAt 0x10 1), exec .updateRgbGpio (answered (gpioAt 0x10 1) [5]),
        exec .updateChannelsGpio (gpioAt 0x10 1), exec .updateRgbSpi (spiAt 0 1), exec .updateChannelsSpi (spiAt 0 1)],
      ∃ t, o = .next t :=
  ⟨by decide, by decide, next_of_all (by decide)⟩

/-- `s` with a memory that admits only reads of the first 4 bytes. -/
def readOnlyMem (s : State) : State := { s with regions := [⟨0, 4, false⟩] }

theorem witness_GpioIsStuckOnlyInTheLayout :
    cfgWf (readOnlyMem (gpioAt 0 2)).cfg = true ∧ Alone (readOnlyMem (gpioAt 0 2)) ∧
    ∃ f, exec .updateRgbGpio (readOnlyMem (gpioAt 0 2)) = .fault f :=
  ⟨by decide, by decide, fault_of (by decide)⟩

/-- The admission is taken away before the clock request, or just before the burst's first read. -/
theorem witness_GpioIsStuckInTheBurstOnlyAfterARemap :
    (∃ f, exec .updateRgbGpio (readOnlyMem (gpioAt 0 2)) = .fault f) ∧
    (∃ f, exec .updateRgbGpio (withOthers (gpioAt 0x10 1) [⟨40, .remap []⟩]) = .fault f) ∧
    cfgWf (gpioAt 0x10 2).cfg = true ∧ GpioRgbRuns (withOthers (gpioAt 0x10 2) []) ∧ (gpioAt 0x10 2).pin = .low ∧
    0 < operandN (gpioAt 0x10 2) ∧ (replyAt (gpioAt 0x10 2) 0).error = 0 ∧
    (3 + stride (gpioAt 0x10 2).cfg) * operandN (gpioAt 0x10 2) = 12 :=
  ⟨fault_of (by decide), fault_of (by decide), by decide⟩

theorem witness_ResetFrameCountProperties :
    0 < Config.exSpi.busFreqHz.toNat ∧ (6400000 : Nat) ≤ 4294967295 ∧ ({ Config.exSpi with busFreqHz := 0 } : Cfg).busFreqHz.toNat = 0 := by
  decide

theorem witness_SpiCapacityIsRejectedBeforeAnyEffect :
    (spiAt 0xFFFFFFFF 5).cfg.transport = .spi ∧ (spiAt 0xFFFFFFFF 5).status.ready = true ∧
    (spiAt 0xFFFFFFFF 5).status.state = .idle ∧ (spiAt 0xFFFFFFFF 5).cfg.maxPixels.toNat < operandN (spiAt 0xFFFFFFFF 5) := by
  decide

theorem witness_SpiRgbSendsTheFramesThenTheReset :
    ∀ s ∈ [spiAt 0xFFFFFFFF 0, spiAt 0xFFFFFFF4 4], SpiRgbRuns s ∧ s.stage.length = stageBytes s.cfg := by
  decide

theorem witness_SpiChannelsSendsEachChannel :
    SpiChannelsRuns (answered (spiAt 0xFFFFFFFE 2) [0, 0, 0, 0]) ∧
    ChannelsOk (answered (spiAt 0xFFFFFFFE 2) [0, 0, 0, 0]) (operandN (answered (spiAt 0xFFFFFFFE 2) [0, 0, 0, 0])) := by decide

theorem witness_SpiChannelsStopsAtTheFailingChannel :
    ∀ es ∈ [[(0 : Word), 0, 5, 0], [0, 0, 0, 5], [0, 0, 5, 5]],
      SpiChannelsRuns (answered (spiAt 0xFFFFFFFE 2) es) ∧ 1 < operandN (answered (spiAt 0xFFFFFFFE 2) es) ∧
      ChannelsOk (answered (spiAt 0xFFFFFFFE 2) es) 1 ∧
      ¬ ((replyAt (answered (spiAt 0xFFFFFFFE 2) es) (2 * 1)).error = 0 ∧
        (replyAt (answered (spiAt 0xFFFFFFFE 2) es) (2 * 1 + 1)).error = 0) := by decide

/-- For the statements about any completing SPI command: both complete, alone. -/
theorem witness_SpiCommandFrame :
    Alone (spiAt 0 1) ∧ (∃ t, exec .updateRgbSpi (spiAt 0 1) = .next t) ∧ ∃ t, exec .updateChannelsSpi (spiAt 0 1) = .next t :=
  ⟨by decide, next_of (by decide), next_of (by decide)⟩

theorem witness_ResetWriteFollowsEveryDataWrite :
    (∃ t, exec .updateRgbSpi (spiAt 0 1) = .next t) ∧ ∃ t, exec .updateChannelsSpi (spiAt 0 1) = .next t :=
  ⟨next_of (by decide), next_of (by decide)⟩

/-- A run with a failed write, for the prefix clause, and one without. -/
theorem witness_FailedWriteSendsAFirstPart :
    (∃ t, exec .updateRgbSpi (answered (spiAt 0 1) [5, 0]) = .next t) ∧ ∃ t, exec .updateChannelsSpi (spiAt 0 1) = .next t :=
  ⟨next_of (by decide), next_of (by decide)⟩

theorem witness_SpiResultSet :
    (∃ t, exec .updateRgbSpi (spiAt 0 5) = .next t) ∧ ∃ t, exec .updateChannelsSpi (spiAt 0 1) = .next t :=
  ⟨next_of (by decide), next_of (by decide)⟩

theorem witness_SpiIsStuckOnlyWhileEncoding :
    (∃ f, exec .updateRgbSpi (readOnlyMem (spiAt 4 1)) = .fault f) ∧
    ∃ f, exec .updateChannelsSpi (readOnlyMem (spiAt 3 2)) = .fault f :=
  ⟨fault_of (by decide), fault_of (by decide)⟩

theorem witness_OldBufferContentsNeverShow :
    (spiAt 0 1).stage.length = stageBytes (spiAt 0 1).cfg ∧
    (List.replicate (stageBytes (spiAt 0 1).cfg) (0xAA : Byte)).length = stageBytes (spiAt 0 1).cfg := by decide

/-- An instance while a command of this caller range runs. -/
def racing (lo len : Nat) : State := { spiAt 0 1 with race := .over lo len }

theorem witness_RacyReadReturnsAWrittenByte :
    memWf (racing 0xFFFFFFFC 4).mem = true ∧ (racing 0xFFFFFFFC 4).race = .over 0xFFFFFFFC 4 ∧
    0xFFFFFFFC ≤ (0xFFFFFFFF : Word).toNat ∧ (0xFFFFFFFF : Word).toNat < 0xFFFFFFFC + 4 ∧ admitsRead (spiAt 0 1) (0xFFFFFFFF : Word).toNat = true ∧
    admitsWrite (spiAt 0 1) (0xFFFFFFFF : Word).toNat = true ∧ (spiAt 0 1).others = [] ∧
    ({ spiAt 0 1 with others := [⟨0, .memStore 0xFFFFFFFF 7⟩] } : State).others = [⟨0, .memStore 0xFFFFFFFF 7⟩] := by decide

/-- Two stores to the last byte of the range, at the first and the last micro-step. -/
theorem witness_RacedByteEndsWithAWrittenByte :
    (∃ t, exec .updateRgbSpi (withOthers (spiAt 0 1) [⟨0, .memStore 2 7⟩, ⟨7, .memStore 2 8⟩]) = .next t) ∧
    SpiRgbRuns (withOthers (spiAt 0xFFFFFFF4 4) []) ∧ memWf (spiAt 0xFFFFFFF4 4).mem = true ∧
    operandA (spiAt 0xFFFFFFF4 4) ≤ (0xFFFFFFFF : Word).toNat ∧
    (0xFFFFFFFF : Word).toNat < operandA (spiAt 0xFFFFFFF4 4) + rgbRange (spiAt 0xFFFFFFF4 4).cfg (operandN (spiAt 0xFFFFFFF4 4)) ∧
    admitsWrite (spiAt 0xFFFFFFF4 4) (0xFFFFFFFF : Word).toNat = true ∧ 0 + 16 ≤ 3 * operandN (spiAt 0xFFFFFFF4 4) + 4 :=
  ⟨next_of (by decide), by decide⟩

/-- R60, R177: a byte that held 0, then 7, and now holds 8 was written 7 and 8; a store outside the range is a plain one. -/
theorem test_raced_final_byte :
    Race.written { lo := 0, len := 3, raced := [2], held := [(2, 0), (1, 9), (2, 7)] } [(2, 8)] 2 = [7, 8] ∧
    memOf 3 1 (exec .updateRgbSpi (withOthers (spiAt 0 1) [⟨0, .memStore 3 8⟩, ⟨1, .memStore 3 9⟩])) = some [9] := by decide

/-- A GPIO instance of GRB order whose program updates the strip and then loads the byte at `x` (R57). -/
def updatesThenLoads (x : Word) : State :=
  { at' grbGpio 0x10 1 [(0x10, 0x12), (0x11, 0x34), (0x12, 0x56)] [5] with
    program := [.op (.present (.bus (.store 0x40000000 [1, 0, 0, 0]))), .op (.memLoad x)] }

/-- The last byte the layout wrote, and for the first clauses a load and a store at the top of memory. -/
theorem witness_HostAgentSeesMemoryBetweenCommands :
    (wellConstructed (updatesThenLoads 0x12) = true ∧ Alone (updatesThenLoads 0x12) ∧ (updatesThenLoads 0x12).boot = .complete ∧
      memWf (updatesThenLoads 0x12).mem = true ∧ GpioRgbRuns (updatesThenLoads 0x12) ∧
      operandA (updatesThenLoads 0x12) ≤ (0x12 : Word).toNat ∧
      (0x12 : Word).toNat < operandA (updatesThenLoads 0x12) + stride (updatesThenLoads 0x12).cfg * operandN (updatesThenLoads 0x12) ∧
      (updatesThenLoads 0x12).program = .op (.present (.bus (.store (updatesThenLoads 0x12).cfg.regBase (bytesOfWord 1)))) ::
        .op (.memLoad 0x12) :: []) ∧
    ({ updatesThenLoads 0 with program := [.op (.memStore 0xFFFFFFFF 7)] } : State).program = .op (.memStore 0xFFFFFFFF 7) :: [] ∧
    admitsRead (updatesThenLoads 0) (0xFFFFFFFF : Word).toNat = true ∧
    admitsWrite (updatesThenLoads 0) (0xFFFFFFFF : Word).toNat = true := by decide

/-- R57 and R178: after the command, also a failed one, the issuing agent loads wire bytes: `34 12 56`. -/
theorem test_load_after_update :
    [0x10, 0x11, 0x12].map (fun x => match andThen (step (updatesThenLoads x)) step with
      | .next t => some t.hostReads | _ => none) = [some [(0x10, 0x34)], some [(0x11, 0x12)], some [(0x12, 0x56)]] := by decide

/-- R183's table for EX-SPI: 0xF8 is high for 5 bit times, 0xC0 for 2, and both meet the targets at 6.4 MHz, not at 4 MHz. -/
theorem test_spi_pulse_targets :
    pulseHigh 0xF8 = some 5 ∧ pulseHigh 0xC0 = some 2 ∧ pulseHigh 0xA0 = none ∧ spiTimingOk Config.exSpi = true ∧
    spiTimingOk { Config.exSpi with busFreqHz := 4000000 } = false := by decide

theorem witness_SpiPulseTargets : Config.exSpi.oneFrame = pulseFrame 5 ∧ Config.exSpi.zeroFrame = pulseFrame 2 := by decide

theorem witness_TransportsEmitTheSameWireStream :
    let g := at' Config.exGpio 0x10 1 [(0x10, 0x80)] [0, 0]
    let p := at' Config.exSpi 0x10 1 [(0x10, 0x80)] [0, 0]
    GpioRgbRuns g ∧ SpiRgbRuns p ∧ memWf g.mem = true ∧ p.stage.length = stageBytes p.cfg ∧ g.cfg.hasWhite = p.cfg.hasWhite ∧
    g.cfg.ordR = p.cfg.ordR ∧ g.cfg.ordG = p.cfg.ordG ∧ g.cfg.ordB = p.cfg.ordB ∧ g.cfg.ordW = p.cfg.ordW ∧
    g.cfg.recordBytes = p.cfg.recordBytes ∧ g.mem = p.mem ∧ operandA g = operandA p ∧ operandN g = operandN p ∧ 0 < operandN g ∧
    (replyAt g 0).error = 0 ∧ (replyAt g 1).error = 0 ∧ (replyAt p 0).error = 0 ∧ (replyAt p 1).error = 0 := by decide

end Sys2Proof.Tests
end

section
/-! PROOFS. The statements of the family of 00_scope.md: ill-formed configurations, the SPI pulse targets, and what a failed bus write
sends. -/

namespace Sys2Proof.Machine

/-! ### The checks of a configuration (R6, R15, R16) -/

theorem wellConstructed_iff {s : State} : wellConstructed s = true ↔ cfgWf s.cfg = true ∧ handlesExclusive s = true := by
  simp only [wellConstructed, Bool.and_eq_true]

theorem recordBytes_three_or_four {c : Cfg} (h : cfgWf c = true) : c.recordBytes = 3 ∨ c.recordBytes = 4 := by
  obtain ⟨-, hrec, -⟩ := cfgWf_iff.mp h
  simp only [wfRecord, Bool.and_eq_true, Bool.or_eq_true, beq_iff_eq] at hrec
  exact hrec.1

theorem cpuClkHz_pos {c : Cfg} (h : cfgWf c = true) (hg : c.transport = .gpio) : 0 < c.cpuClkHz.toNat := by
  obtain ⟨-, -, htim, -⟩ := cfgWf_iff.mp h
  simp only [wfTiming, hg, Bool.or_eq_true, Bool.and_eq_true, decide_eq_true_eq, beq_iff_eq, reduceCtorEq, false_or] at htim
  exact htim.2

theorem busFreqHz_pos {c : Cfg} (h : cfgWf c = true) (hs : c.transport = .spi) : 0 < c.busFreqHz.toNat := by
  obtain ⟨-, -, -, hspi, -⟩ := cfgWf_iff.mp h
  simpa [wfSpi, hs] using hspi

theorem regBase_aligned {c : Cfg} (h : cfgWf c = true) : c.regBase.toNat % 4 = 0 := by
  obtain ⟨-, -, -, -, hbase⟩ := cfgWf_iff.mp h
  simpa [wfBase] using hbase

/-- No peer of a GPIO instance has its pin, and none of an SPI instance its bus (wf_exclusive, R16). -/
theorem peer_id_ne {s : State} (h : handlesExclusive s = true) {p : Peer} (hp : p ∈ s.peers) (ht : p.transport = s.cfg.transport) :
    (s.cfg.transport = .gpio → p.id ≠ s.cfg.pinId) ∧ (s.cfg.transport = .spi → p.id ≠ s.cfg.busId) := by
  have hne := List.all_eq_true.mp h p hp
  constructor <;> intro hk <;> simpa [ht, hk] using hne

theorem step_of_not_wellConstructed {s : State} (h : ¬ wellConstructed s = true) : step s = .refused .illFormedConfig :=
  if_neg h

/-! ### Pulses on the SPI line (R121, R183) -/

/-- A frame of `h` leading ones is one pulse, `h` bit times long (R121, R183). -/
theorem lineBits_pulseFrame : ∀ h, h ≤ 8 → lineBits (pulseFrame h) = List.replicate h true ++ List.replicate (8 - h) false := by
  decide

/-- The nine pulse frames are distinct: a frame's count of leading ones is read back from it (R183). -/
theorem pulseHigh_pulseFrame : ∀ h, h ≤ 8 → pulseHigh (pulseFrame h) = some h := by decide

theorem frameOk_pulseFrame {freq h high low : Nat} (hh : h ≤ 8) :
    frameOk freq (pulseFrame h) high low = (within150 freq h high && within150 freq (8 - h) low) := by
  simp only [frameOk, pulseHigh_pulseFrame h hh]

/-- |ns(x) − target| ≤ 150 as a lower and an upper bound on `x` cycles (R111). -/
theorem within150_iff {freq x target : Nat} :
    within150 freq x target = true ↔
      (target - 150) * freq ≤ x * 1000000000 ∧ x * 1000000000 ≤ (target + 150) * freq := by
  simp only [within150, Bool.and_eq_true, decide_eq_true_eq, Nat.sub_mul, Nat.sub_le_iff_le_add]
  exact and_comm

/-! ### The bus writes of an SPI command (R127, R131, R132) -/

/-- A completed UPDATE_RGB.SPI made at most one pair of a DATA and a reset write (R118, R132). -/
theorem updateRgbSpi_pairs {s t : State} (h : exec .updateRgbSpi s = .next t) : ∃ k, k ≤ 1 ∧ Pairs k s t := by
  have hsat : Sat (exec .updateRgbSpi s) (fun t => ∃ k, k ≤ 1 ∧ Pairs k s t) (fun _ => True) :=
    accept_sat fun hs _ _ _ => (spiRgb_sat (s := { s with race := .over _ _ }) hs).mono
      (fun _ ⟨_, _, _, _, _, _, _, hp⟩ => hp) (fun _ _ => trivial)
  exact hsat.of_next h

/-- A completed UPDATE_CHANNELS.SPI made pairs of a DATA and a reset write (R124, R132). -/
theorem updateChannelsSpi_pairs {s t : State} (h : exec .updateChannelsSpi s = .next t) : ∃ k, Pairs k s t := by
  have hsat : Sat (exec .updateChannelsSpi s) (fun t => ∃ k, Pairs k s t) (fun _ => True) :=
    accept_sat fun _ _ _ _ => (channelsFrom_sat _).mono (fun _ ⟨_, _, _, _, _, _, _, hp⟩ => hp) (fun _ _ => trivial)
  exact hsat.of_next h

theorem spiCommand_pairs {i : Instr} {s t : State} (hi : i = .updateRgbSpi ∨ i = .updateChannelsSpi) (h : exec i s = .next t) :
    ∃ k, Pairs k s t := by
  rcases hi with rfl | rfl
  · obtain ⟨k, -, hp⟩ := updateRgbSpi_pairs h
    exact ⟨k, hp⟩
  · exact updateChannelsSpi_pairs h

end Sys2Proof.Machine

namespace Sys2Proof.Proofs

open Sys2Proof.Machine

/-- Settles O46: every bus event of an SPI command's pairs is as R127 has it (`WriteOk`). -/
theorem failedWriteSendsAFirstPart : Obligations.FailedWriteSendsAFirstPart := by
  intro i s t hi h
  obtain ⟨_, _, new, htrace, _, hok⟩ := spiCommand_pairs hi h
  exact ⟨new, htrace, fun kind bytes ans sent he => (hok _ he kind bytes ans sent rfl).1⟩

/-- Settles O6: a configuration the step accepts passes each check, so one that fails a check is refused. -/
theorem illFormedConfigurationHasNoStep : Obligations.IllFormedConfigurationHasNoStep := by
  intro s hfails
  refine step_of_not_wellConstructed fun hwell => hfails ?_
  obtain ⟨hwf, hexcl⟩ := wellConstructed_iff.mp hwell
  refine ⟨order_nodup hwf, fun ch hc => order_lt hwf hc, recordBytes_three_or_four hwf, stride_le_record hwf, fun hg => ?_,
    busFreqHz_pos hwf, regBase_aligned hwf, fun p hp ht => ?_⟩
  · obtain ⟨h0, h1, h2⟩ := timing_wf hwf hg
    exact ⟨h0, h1, h2, cpuClkHz_pos hwf hg⟩
  · obtain ⟨hpin, hbus⟩ := peer_id_ne hexcl hp ht
    split
    · next hg => exact hpin hg
    · next hs => exact hbus hs

/-- Settles O54: the targets ± 150 ns of a pulse frame are bounds on its high and its low bit times. -/
theorem spiPulseTargets : Obligations.SpiPulseTargets := by
  refine ⟨lineBits_pulseFrame, fun c h1 h0 hle1 hle0 hone hzero => ?_⟩
  simp only [spiTimingOk, hone, hzero, frameOk_pulseFrame hle1, frameOk_pulseFrame hle0, Bool.and_eq_true, within150_iff,
    Nat.reduceAdd, Nat.reduceSub, and_assoc]

end Sys2Proof.Proofs
end

section
/-! PROOFS. The statements of the family of 10_state.md: reset, INIT, the register accesses, the checks of a CMD store, what no step
changes, the invariant, what another agent sees of a running command, and the old contents of the buffers. -/

namespace Sys2Proof.Machine

/-! ### What an instruction can come to (R140 to R144) -/

theorem decodeCmd_command_or_reserved (t : Transport) (c : Word) :
    IsCommand (decodeCmd t c) ∨ decodeCmd t c = .reservedCmd c := by
  unfold decodeCmd
  split
  · cases t <;> simp [IsCommand]
  · split
    · cases t <;> simp [IsCommand]
    · exact .inr rfl

/-- A store to CMD is the CMD row its word decodes to (R65, R144). -/
theorem exec_wrCmd (c : Word) (s : State) : exec (.wrCmd c) s = exec (decodeCmd s.cfg.transport c) s := by
  show execWrCmd c s = _
  unfold execWrCmd
  rcases decodeCmd_command_or_reserved s.cfg.transport c with (h | h | h | h) | h <;> rw [h] <;> rfl

/-- What answers a next state is a command, or a register access that changes at most ADDR, COUNT and the loads. -/
theorem exec_next {i : Instr} {s t : State} (h : exec i s = .next t) :
    (∃ j, IsCommand j ∧ exec j s = .next t) ∨ ∃ a n l, t = put a n l s.others s := by
  cases i with
  | rd r => cases h; exact .inr ⟨_, _, _, rfl⟩
  | wrAddr v => cases h; exact .inr ⟨_, _, _, rfl⟩
  | wrCount v => cases h; exact .inr ⟨_, _, _, rfl⟩
  | wrRo r v =>
    simp only [exec, execWrRo] at h
    split at h
    · cases h; exact .inr ⟨_, _, _, (put_self s).symm⟩
    · cases h
  | wrCmd c =>
    rw [exec_wrCmd] at h
    rcases decodeCmd_command_or_reserved s.cfg.transport c with hc | hc
    · exact .inl ⟨_, hc, h⟩
    · rw [hc] at h; cases h
  | reservedCmd c => cases h
  | updateRgbGpio => exact .inl ⟨_, .inl rfl, h⟩
  | updateChannelsGpio => exact .inl ⟨_, .inr (.inl rfl), h⟩
  | updateRgbSpi => exact .inl ⟨_, .inr (.inr (.inl rfl)), h⟩
  | updateChannelsSpi => exact .inl ⟨_, .inr (.inr (.inr rfl)), h⟩

/-! ### What a step can come to (R171 to R175) -/

/-- A step that answers a next state is the next move carried out on a well-formed configuration. -/
theorem step_next {s t : State} (h : step s = .next t) :
    cfgWf s.cfg = true ∧ runMove exec (nextMove s).1 (nextMove s).2 = .next t := by
  simp only [step, stepWith] at h
  split at h
  · next hw => exact ⟨(wellConstructed_iff.mp hw).1, h⟩
  · cases h

/-- Choosing the next move changes only what the agents have still to do. -/
theorem nextMove_state (s : State) : ∃ o p, (nextMove s).2 = { s with others := o, program := p } := by
  unfold nextMove
  split
  · exact ⟨_, _, rfl⟩
  · split
    · exact ⟨_, _, rfl⟩
    · split <;> exact ⟨_, _, rfl⟩

/-- INIT asks for its handles in turn, and all that counts is whether each was found (R172). -/
theorem resolveAll_eq (hs : List Handle) (s : State) :
    ∃ r k, resolveAll hs s = (if ∀ i < hs.length, (replyAt s i).error = 0 then initDone else initFailed)
      { s with replies := r, asked := k } := by
  induction hs generalizing s with
  | nil => exact ⟨s.replies, s.asked, by simp [resolveAll]⟩
  | cons _ hs ih =>
    simp only [resolveAll, List.length_cons, Nat.forall_lt_succ_left]
    by_cases h0 : (replyAt s 0).error = 0
    · obtain ⟨r, k, h⟩ := ih (tookReply s)
      simp only [replyAt_tookReply] at h
      exact ⟨r, k, by simp only [h0, if_true, true_and]; exact h⟩
    · exact ⟨s.replies.drop 1, s.asked + 1, by simp only [h0, if_false, false_and]; rfl⟩

/-! ### What no instruction changes (R20, R39, R173) -/

/-- CFG, READY and whether init has run are as they were. -/
def SameInstance (s t : State) : Prop := t.cfg = s.cfg ∧ t.status.ready = s.status.ready ∧ t.boot = s.boot

theorem SameInstance.trans {s t u : State} (h : SameInstance s t) (h' : SameInstance t u) : SameInstance s u :=
  ⟨h'.1.trans h.1, h'.2.1.trans h.2.1, h'.2.2.trans h.2.2⟩

theorem tick_sameInstance {s t : State} (h : tick s = .next t) : SameInstance s t := by
  have hk : MemStep 0 0 s t := tick_memStep h
  exact ⟨hk.cfg, hk.ready, hk.boot⟩

theorem Course.sameInstance {P : EngineState → Prop} {s t : State} (h : Course P s t) : SameInstance s t := by
  induction h with
  | refl => exact ⟨rfl, rfl, rfl⟩
  | tick _ _ ht ih => exact ih.trans (tick_sameInstance ht)
  | block _ hb ih => exact ih.trans (by rw [hb.1]; exact ⟨rfl, rfl, rfl⟩)
  | write v _ _ ih => exact ih.trans ⟨rfl, rfl, rfl⟩

theorem exec_sameInstance {i : Instr} {s t : State} (h : exec i s = .next t) : SameInstance s t := by
  rcases exec_next h with ⟨j, hj, h⟩ | ⟨a, n, l, rfl⟩
  · obtain ⟨_, _, _, _, _, hc, rfl⟩ := exec_course hj h
    exact hc.sameInstance
  · exact ⟨rfl, rfl, rfl⟩

theorem runInit_cfg (s : State) : ∃ t, runInit s = .next t ∧ t.cfg = s.cfg := by
  obtain ⟨r, k, h⟩ := resolveAll_eq (requiredHandles s.cfg) s
  refine ⟨_, rfl, ?_⟩
  rw [h]
  split <;> rfl

theorem agentOp_cfg {op : AgentOp} {s t : State} (h : agentOp exec op s = .next t) : t.cfg = s.cfg := by
  cases op with
  | present code =>
    simp only [agentOp] at h
    split at h
    · exact (exec_sameInstance h).1
    · cases h
  | memLoad a => simp only [agentOp] at h; split at h <;> cases h; rfl
  | memStore a v => simp only [agentOp] at h; split at h <;> cases h; rfl
  | remap rs => cases h; rfl

theorem runMove_cfg {m : Move} {s t : State} (h : runMove exec m s = .next t) : t.cfg = s.cfg := by
  cases m with
  | op op => exact agentOp_cfg h
  | init =>
    obtain ⟨u, hu, hc⟩ := runInit_cfg s
    cases hu.symm.trans h
    exact hc
  | reset => cases h; rfl
  | idle => cases h; rfl

/-! ### The invariant -/

theorem inv_resetWith (c : Cfg) : Inv (State.resetWith c) where
  memory := rfl
  stageSize := List.length_replicate
  chbufSize := List.length_replicate
  stateIdle := rfl
  unmasked := rfl
  pinNotHigh := nofun
  pinLow := nofun
  readyAfterInit := nofun
  detailOnlyOfFailures := fun h => absurd rfl h
  spiDrivesNoPin := fun _ => ⟨rfl, rfl⟩
  noRace := rfl

/-- `Inv` does not speak of ADDR, COUNT, the loads, the admission, the programs or the oracles. -/
theorem Inv.outside {s : State} (h : Inv s) (addr count : Word) (loads : List (Reg × Word)) (reads : List (Nat × Byte))
    (regions : List Region) (others : List Timed) (program : List ProgItem) (replies : List Reply) (asked : Nat) :
    Inv { s with addr := addr, count := count, loads := loads, hostReads := reads, regions := regions, others := others,
                 program := program, replies := replies, asked := asked } := { h with }

theorem Inv.memOk {s : State} (h : Inv s) : MemOk s := ⟨h.memory, by simp [h.noRace, Race.empty]⟩

/-- What a completed command leaves of all that `Inv` speaks of, on either transport. -/
structure CommandDone (s t : State) : Prop extends Keeps s t where
  stage : s.stage.length = stageBytes s.cfg → t.stage.length = stageBytes s.cfg
  chbuf : s.chbuf.length = 8 → t.chbuf.length = 8
  idle : t.status.state = .idle
  race : t.race = .empty
  irqMask : s.irqMask = false → t.irqMask = false
  pin : t.pin = s.pin ∨ s.cfg.transport = .gpio ∧ t.pin = .low
  clkReq : s.cfg.transport = .spi → t.clkReq = s.clkReq
  detail : t.status.detail = 0 ∨ t.status.result = .busFailure ∨ t.status.result = .clockControlFailure

theorem GpioDone.commandDone {lo hi : Nat} {s t : State} (hg : s.cfg.transport = .gpio) (h : GpioDone lo hi s t) :
    CommandDone s t where
  toKeeps := h.toKeeps
  stage := fun hl => by rw [h.stage, hl]
  chbuf := fun hl => by rw [h.chbuf, hl]
  idle := h.idle
  race := h.race
  irqMask := fun hm => by rw [h.irqMask, hm, ite_self]
  pin := h.pin.imp_right fun hp => ⟨hg, hp⟩
  clkReq := fun hs => by rw [hg] at hs; cases hs
  detail := h.result.imp (fun hr => hr.2) .inr

/-- An SPI command drives no pin, masks nothing and requests no clock (R126). -/
theorem SpiKeeps.commandDone {s t : State} (h : SpiKeeps s t) (hidle : t.status.state = .idle) (hrace : t.race = .empty)
    (hstage : s.stage.length = stageBytes s.cfg → t.stage.length = stageBytes s.cfg)
    (hchbuf : s.chbuf.length = 8 → t.chbuf.length = 8) (hdetail : t.status.detail = 0 ∨ t.status.result = .busFailure) :
    CommandDone s t where
  toKeeps := h.toKeeps
  stage := hstage
  chbuf := hchbuf
  idle := hidle
  race := hrace
  irqMask := fun hm => by rw [h.irqMask, hm]
  pin := .inl h.pin
  clkReq := fun _ => h.clkReq
  detail := hdetail.imp_right .inl

/-- Acceptance changes only the race record, of which `CommandDone` says nothing before the command. -/
theorem CommandDone.accepted {s t : State} {a n : Nat} (h : CommandDone { s with race := .over a n } t) : CommandDone s t where
  __ := h
  toKeeps := (keeps_race s a n).trans h.toKeeps

theorem accept_done {t : Transport} {len : Nat → Nat} {s : State} {run : Nat → Nat → State → Out State}
    (h : s.cfg.transport = t → ∀ a n l,
      Sat (run a n { s with race := .over a l }) (CommandDone { s with race := .over a l }) fun _ => True) :
    Sat (accept t len s run) (CommandDone s) fun _ => True :=
  accept_sat fun ht _ _ _ => (h ht _ _ _).mono (fun _ hd => hd.accepted) fun _ _ => trivial

theorem updateRgbGpio_done {s : State} (hwf : cfgWf s.cfg = true) : Sat (exec .updateRgbGpio s) (CommandDone s) fun _ => True :=
  accept_done fun hg _ _ _ => (gpioRgb_sat (by exact hwf) (by exact hg)).mono (fun _ h => h.commandDone (by exact hg)) fun _ _ => trivial

theorem updateChannelsGpio_done (s : State) : Sat (exec .updateChannelsGpio s) (CommandDone s) fun _ => True :=
  accept_done (run := fun _ _ s1 => .next (finish .unsupported 0 s1)) fun _ _ _ _ =>
    (finish_spiKeeps _ _ _).commandDone rfl rfl id id (.inl rfl)

theorem updateRgbSpi_done (s : State) : Sat (exec .updateRgbSpi s) (CommandDone s) fun _ => True := by
  refine accept_done fun hs a n l => (spiRgb_sat (by exact hs)).mono (fun t h => ?_) fun _ _ => trivial
  obtain ⟨hk, hidle, hrace, hchbuf, -, hstage, hres, -⟩ := h
  exact hk.commandDone hidle hrace hstage (fun hl => hchbuf ▸ hl) (hres.imp_left And.right)

theorem updateChannelsSpi_done (s : State) : Sat (exec .updateChannelsSpi s) (CommandDone s) fun _ => True := by
  refine accept_done (run := spiChannels) fun _ a n l => (channelsFrom_sat _).mono (fun t h => ?_) fun _ _ => trivial
  obtain ⟨hk, hidle, hrace, hstage, -, hchbuf, hres, -⟩ := h
  have hk0 := SpiKeeps.of_engine { s with race := .over a l } s.status.state s.stage s.chbuf s.sI 0
  exact (hk0.trans hk).commandDone hidle hrace (fun hl => hstage ▸ hl) hchbuf (hres.imp_left And.right)

theorem command_done {i : Instr} {s t : State} (hwf : cfgWf s.cfg = true) (hi : IsCommand i) (h : exec i s = .next t) :
    CommandDone s t := by
  rcases hi with rfl | rfl | rfl | rfl
  · exact (updateRgbGpio_done hwf).of_next h
  · exact (updateChannelsGpio_done s).of_next h
  · exact (updateRgbSpi_done s).of_next h
  · exact (updateChannelsSpi_done s).of_next h

/-- A completed command keeps the invariant. -/
theorem Inv.of_command {s t : State} (hs : Inv s) (h : CommandDone s t) : Inv t where
  memory := (h.wf hs.memOk).1
  stageSize := by rw [h.cfg]; exact h.stage hs.stageSize
  chbufSize := h.chbuf hs.chbufSize
  stateIdle := h.idle
  unmasked := h.irqMask hs.unmasked
  pinNotHigh := by
    rcases h.pin with hp | ⟨-, hp⟩ <;> rw [hp]
    · exact hs.pinNotHigh
    · nofun
  pinLow := by
    rw [h.cfg, h.ready]
    intro hg hr
    rcases h.pin with hp | ⟨-, hp⟩
    · rw [hp, hs.pinLow hg hr]
    · exact hp
  readyAfterInit := by rw [h.ready, h.boot]; exact hs.readyAfterInit
  detailOnlyOfFailures := fun hd => h.detail.resolve_left hd
  spiDrivesNoPin := by
    rw [h.cfg]
    intro hspi
    rw [h.clkReq hspi]
    rcases h.pin with hp | ⟨hg, -⟩
    · rw [hp]; exact hs.spiDrivesNoPin hspi
    · rw [hg] at hspi; cases hspi
  noRace := h.race

theorem Inv.of_exec {i : Instr} {s t : State} (hs : Inv s) (hwf : cfgWf s.cfg = true) (h : exec i s = .next t) : Inv t := by
  rcases exec_next h with ⟨j, hj, h⟩ | ⟨a, n, l, rfl⟩
  · exact hs.of_command (command_done hwf hj h)
  · exact hs.outside ..

theorem Inv.of_agentOp {op : AgentOp} {s t : State} (hs : Inv s) (hwf : cfgWf s.cfg = true)
    (h : agentOp exec op s = .next t) : Inv t := by
  cases op with
  | present code =>
    simp only [agentOp] at h
    split at h
    · exact hs.of_exec hwf h
    · cases h
  | memLoad a =>
    simp only [agentOp] at h
    split at h <;> cases h
    exact hs.outside ..
  | memStore a v =>
    simp only [agentOp] at h
    split at h
    · next ha => cases h; exact { hs with memory := memWf_memPut hs.memory (admitsWrite_lt ha) }
    · cases h
  | remap rs => cases h; exact hs.outside ..

theorem inv_initDone {s : State} (hs : Inv s) : Inv (initDone s) where
  memory := hs.memory
  stageSize := hs.stageSize
  chbufSize := hs.chbufSize
  stateIdle := rfl
  unmasked := hs.unmasked
  pinNotHigh := by
    rw [initDone_pin]
    split
    · nofun
    · exact hs.pinNotHigh
  pinLow := fun hg _ => by rw [initDone_cfg] at hg; rw [initDone_pin, hg]
  readyAfterInit := fun _ => rfl
  detailOnlyOfFailures := fun hd => absurd rfl hd
  spiDrivesNoPin := fun hspi => by
    rw [initDone_cfg] at hspi
    rw [initDone_pin, hspi]
    exact hs.spiDrivesNoPin hspi
  noRace := hs.noRace

theorem inv_initFailed {s : State} (hs : Inv s) : Inv (initFailed s) :=
  { hs with stateIdle := rfl, pinLow := nofun, readyAfterInit := nofun, detailOnlyOfFailures := fun hd => absurd rfl hd }

theorem Inv.of_runInit {s t : State} (hs : Inv s) (h : runInit s = .next t) : Inv t := by
  obtain ⟨r, k, he⟩ := resolveAll_eq (requiredHandles s.cfg) s
  have hs' : Inv { s with replies := r, asked := k } := hs.outside ..
  cases h
  rw [he]
  split
  · exact inv_initDone hs'
  · exact inv_initFailed hs'

/-- A reset puts the instance where the first one did; host memory, which stays, is canonical still (R171). -/
theorem inv_hardReset {s : State} (hs : Inv s) : Inv (hardReset s) := { inv_resetWith s.cfg with memory := hs.memory }

theorem Inv.of_runMove {m : Move} {s t : State} (hs : Inv s) (hwf : cfgWf s.cfg = true)
    (h : runMove exec m s = .next t) : Inv t := by
  cases m with
  | op op => exact hs.of_agentOp hwf h
  | init => exact hs.of_runInit h
  | reset => cases h; exact inv_hardReset hs
  | idle => cases h; exact hs

/-! ### Reset and INIT (R171, R172) -/

theorem step_of_wellConstructed {s : State} (h : wellConstructed s = true) :
    step s = runMove exec (nextMove s).1 (nextMove s).2 := if_pos h

theorem ageOthers_alone {s : State} (ho : Alone s) : ageOthers s.others = s.others := by rw [ho]; rfl

/-- The first step after a reset is INIT (R171). -/
theorem step_init {s : State} (hw : wellConstructed s = true) (ho : Alone s) (hb : s.boot = .pending) :
    step s = .next (resolveAll (requiredHandles s.cfg) s) := by
  have hm : nextMove s = (.init, { s with others := ageOthers s.others }) := by simp only [nextMove, ho, hb]
  rw [step_of_wellConstructed hw, hm, ageOthers_alone ho]
  rfl

theorem step_reset {s : State} {rest : List ProgItem} (hw : wellConstructed s = true) (ho : Alone s) (hb : s.boot = .complete)
    (hp : s.program = .reset :: rest) : step s = .next (hardReset { s with program := rest }) := by
  have hm : nextMove s = (.reset, { s with others := ageOthers s.others, program := rest }) := by
    simp only [nextMove, ho, hb, hp]
  rw [step_of_wellConstructed hw, hm, ageOthers_alone ho]
  rfl

/-- Every register but ADDR, COUNT and STATUS shows a constant of the configuration (R25, R30 to R36). -/
theorem regWord_of_cfg {s t : State} (h : t.cfg = s.cfg) {r : Reg} (ha : r ≠ .addr) (hc : r ≠ .count) (hs : r ≠ .status) :
    regWord t r = regWord s r := by
  cases r with
  | addr => exact absurd rfl ha
  | count => exact absurd rfl hc
  | status => exact absurd rfl hs
  | _ => simp only [regWord, h]

/-- Every handle is found (R172): the pin and the clock, or the bus. -/
theorem handles_found_iff (s : State) :
    (∀ i < (requiredHandles s.cfg).length, (replyAt s i).error = 0) ↔
      (replyAt s 0).error = 0 ∧ (s.cfg.transport = .gpio → (replyAt s 1).error = 0) := by
  unfold requiredHandles
  cases s.cfg.transport <;> simp only [List.length_cons, List.length_nil, Nat.forall_lt_succ_left] <;> simp

theorem statusWord_reset : statusWord Status.reset = 0 := by decide

theorem statusWord_initDone (s : State) : statusWord (initDone s).status = 0x00000040 := by rw [initDone_status]; decide

theorem statusWord_initFailed (s : State) : statusWord (initFailed s).status = 0x00000001 := by rw [initFailed_status]; decide

/-! ### The fields of the register words (R28, R30 to R36) -/

theorem statusWord_fields (st : Status) :
    (statusWord st).extractLsb' 16 16 = st.detail ∧ (statusWord st).extractLsb' 7 9 = 0 ∧ (statusWord st).getLsbD 6 = st.ready ∧
      (statusWord st).extractLsb' 4 2 = stateCode st.state ∧ (statusWord st).extractLsb' 0 4 = resultCode st.result := by
  unfold statusWord
  refine ⟨?_, ?_, ?_, ?_, ?_⟩ <;>
    simp (disch := decide) only [BitVec.extractLsb'_append_eq_of_le, BitVec.extractLsb'_append_eq_of_add_le, BitVec.getLsbD_append,
      Nat.reduceSub, Nat.reduceLT, if_true, if_false, BitVec.extractLsb'_eq_self]
  simp

theorem cfg0Word_fields (c : Cfg) :
    (cfg0Word c).getLsbD 0 = (c.transport == .spi) ∧ (cfg0Word c).getLsbD 1 = c.hasWhite ∧ (cfg0Word c).extractLsb' 2 2 = c.ordR ∧
      (cfg0Word c).extractLsb' 4 2 = c.ordG ∧ (cfg0Word c).extractLsb' 6 2 = c.ordB ∧
      (cfg0Word c).extractLsb' 8 2 = (if c.hasWhite then c.ordW else 0) ∧ (cfg0Word c).getLsbD 10 = (c.recordBytes == 4) ∧
      (cfg0Word c).extractLsb' 11 5 = 0 ∧
      (cfg0Word c).extractLsb' 16 16 = (match c.transport with | .gpio => c.pinId | .spi => c.busId) := by
  unfold cfg0Word
  cases c.transport <;> refine ⟨?_, ?_, ?_, ?_, ?_, ?_, ?_, ?_, ?_⟩ <;>
    simp (disch := decide) only [BitVec.extractLsb'_append_eq_of_le, BitVec.extractLsb'_append_eq_of_add_le, BitVec.getLsbD_append,
      Nat.reduceSub, Nat.reduceLT, if_true, if_false, BitVec.extractLsb'_eq_self] <;>
    simp

/-- RESET_FRAMES fits its 16 bits of CFG_FRAMES, at any 32-bit bus frequency (R32, R129). -/
theorem resetFrames_lt (c : Cfg) : resetFrames c < 2 ^ 16 := by
  have := c.busFreqHz.isLt
  unfold resetFrames resetFrameCount
  omega

theorem framesWord_fields {c : Cfg} (hs : c.transport = .spi) :
    (framesWord c).extractLsb' 0 8 = c.oneFrame ∧ (framesWord c).extractLsb' 8 8 = c.zeroFrame ∧
      ((framesWord c).extractLsb' 16 16).toNat = resetFrames c := by
  simp only [framesWord, hs]
  refine ⟨?_, ?_, ?_⟩ <;>
    simp (disch := decide) only [BitVec.extractLsb'_append_eq_of_le, BitVec.extractLsb'_append_eq_of_add_le, Nat.reduceSub,
      BitVec.extractLsb'_eq_self]
  rw [BitVec.toNat_ofNat, Nat.mod_eq_of_lt (resetFrames_lt c)]

/-! ### The checks of a CMD store (R144) -/

/-- The checks of an instance's own command, in R144's order, each a refusal: READY, STATE, and the caller range, `m` bytes. -/
theorem accept_checks {t : Transport} {len : Nat → Nat} {s : State} {run : Nat → Nat → State → Out State} {m : Nat}
    (ht : s.cfg.transport = t) (hm : len s.count.toNat = m) :
    accept t len s run =
      if s.status.ready = false then .refused .notReady
      else if s.status.state ≠ .idle then .refused .busy
      else if s.addr.toNat + m > 2 ^ 32 then .refused .rangeWraps
      else accept t len s run := by
  simp only [accept, ht, operandA, operandN, hm, addressSpace, ne_eq, not_true, if_false]
  split_ifs <;> rfl

theorem decodeCmd_of_reserved {c : Word} (h : reservedWord c = true) (t : Transport) : decodeCmd t c = .reservedCmd c := by
  simp only [reservedWord, Bool.and_eq_true, bne_iff_ne] at h
  simp only [decodeCmd, h, if_false]

theorem not_reservedWord_iff {c : Word} : ¬ reservedWord c = true ↔ c = 1 ∨ c = 2 := by
  simp only [reservedWord, Bool.and_eq_true, bne_iff_ne]
  tauto

/-! ### What another agent sees of STATUS while a command runs (R40, R140, R184) -/

/-- A load of STATUS gets the word the instance shows, and does nothing else (R140). -/
theorem statusLoad_lands (c : Cfg) (d : Nat) (w a n : Word) (l : List (Reg × Word)) :
    Lands c (statusLoad c d).op w a n l a n (l ++ [(.status, w)]) := by
  intro u o hc hw
  subst hc hw
  have hd : decode u.cfg.transport u.cfg.regBase (.bus (.load (u.cfg.regBase + 0x0C) 4)) = .ok (.rd .status) := by
    simp only [decode, decodeAccess, Laws.CodeShape.offset_of_addr]
    rfl
  show duringOp (.present _) (put a n l o u) = _
  simp only [duringOp]
  rw [show decode (put a n l o u).cfg.transport (put a n l o u).cfg.regBase _ = _ from hd]
  rfl

/-- A load of STATUS that comes at a micro-step shows its word, and the run goes through. -/
theorem Runs.sees {op : State → Out State} {s t : State} {ws : List Word} (h : Runs op id s t ws) {d : Nat} {w : Word}
    (hw : ws[d]? = some w) (ho : s.others = [statusLoad s.cfg d]) :
    ∃ u, op s = .next u ∧ u.others = [] ∧ u.loads = s.loads ++ [(.status, w)] := by
  have hs : s = put s.addr s.count s.loads [statusLoad s.cfg d] s := by rw [← ho]; rfl
  rw [hs]
  exact ⟨_, h.lands _ _ _ _ _ _ _ _ _ hw (statusLoad_lands s.cfg d w _ _ _), rfl, rfl⟩

/-- A load of STATUS that is not due before the end of a run is still to come then. -/
theorem Runs.waits_statusLoad {op : State → Out State} {s t : State} {ws : List Word} (h : Runs op id s t ws) {d : Nat}
    (hd : ws.length ≤ d) (ho : s.others = [statusLoad s.cfg d]) : ∃ u, op s = .next u ∧ u.others ≠ [] := by
  have hs : s = put s.addr s.count s.loads [⟨d - ws.length + ws.length, (statusLoad s.cfg d).op⟩] s := by
    rw [Nat.sub_add_cancel hd]
    show s = { s with others := [statusLoad s.cfg d] }
    rw [← ho]
  rw [hs]
  exact ⟨_, h.waits _ _ _ _ _ [], List.cons_ne_nil _ _⟩

/-- The states of an UPDATE_RGB.SPI of `n` pixels, by its micro-steps. -/
theorem spiRgb_moment {n d : Nat} (hd : d ≤ 3 * n + 4) (s : State) :
    (List.replicate (3 * n) (statusIn .encoding s) ++ [statusIn .encoding s, statusIn .transmitting s, statusIn .transmitting s,
        statusIn .latching s, statusIn .latching s])[d]? =
      some (statusIn (if d ≤ 3 * n then .encoding else if d ≤ 3 * n + 2 then .transmitting else .latching) s) := by
  rcases Nat.lt_or_ge d (3 * n) with h | h
  · rw [List.getElem?_append_left (by simpa using h), List.getElem?_replicate_of_lt h, if_pos h.le]
  · obtain ⟨e, rfl⟩ : ∃ e, d = 3 * n + e := ⟨d - 3 * n, by omega⟩
    have he : e ≤ 4 := by omega
    have h0 : 3 * n + e ≤ 3 * n ↔ e ≤ 0 := by omega
    rw [List.getElem?_append_right (by simp)]
    simp only [List.length_replicate, Nat.add_sub_cancel_left, h0, Nat.add_le_add_iff_left]
    interval_cases e <;> rfl

/-- The states of an UPDATE_CHANNELS.SPI of `n` bytes, by its micro-steps: six of each channel. -/
theorem spiChannels_moment {n d : Nat} (hd : d < 6 * n) (s : State) :
    (List.replicate n [statusIn .encoding s, statusIn .encoding s, statusIn .transmitting s, statusIn .transmitting s,
        statusIn .latching s, statusIn .latching s]).flatten[d]? =
      some (statusIn (if d % 6 < 2 then .encoding else if d % 6 < 4 then .transmitting else .latching) s) := by
  have hp : d % 6 < 6 := Nat.mod_lt _ (by omega)
  have hget := flatMap_range_get (fun _ => [statusIn .encoding s, statusIn .encoding s, statusIn .transmitting s,
    statusIn .transmitting s, statusIn .latching s, statusIn .latching s]) 6 (fun _ => rfl) n (d / 6) (d % 6) (by omega) hp
  rw [Nat.div_add_mod, List.flatMap_def, List.map_const', List.length_range] at hget
  rw [hget]
  generalize d % 6 = p at hp
  interval_cases p <;> rfl

/-- `s` to `t` only more loads were made, and those of STATUS got the word `w`. -/
def LoadsShow (w : Word) (s t : State) : Prop := ∃ new, t.loads = s.loads ++ new ∧ ∀ v, (Reg.status, v) ∈ new → v = w

theorem LoadsShow.of_eq {w : Word} {s t : State} (h : t.loads = s.loads) : LoadsShow w s t := ⟨[], by simp [h]⟩

theorem LoadsShow.trans {w : Word} {s t u : State} (h : LoadsShow w s t) (h' : LoadsShow w t u) : LoadsShow w s u := by
  obtain ⟨l, hl, hw⟩ := h
  obtain ⟨l', hl', hw'⟩ := h'
  exact ⟨l ++ l', by rw [hl', hl, List.append_assoc], fun v hv => (List.mem_append.mp hv).elim (hw v) (hw' v)⟩

theorem duringInstr_loads {i : Instr} {s t : State} (h : duringInstr i s = .next t) : LoadsShow (statusWord s.status) s t := by
  cases i with
  | rd r =>
    cases h
    refine ⟨[(r, regWord s r)], rfl, fun v hv => ?_⟩
    obtain ⟨rfl, rfl⟩ := Prod.mk.inj (List.mem_singleton.mp hv)
    rfl
  | wrAddr v => cases h; exact .of_eq rfl
  | wrCount v => cases h; exact .of_eq rfl
  | wrRo r v =>
    simp only [duringInstr, execWrRo] at h
    split at h
    · cases h; exact .of_eq rfl
    · cases h
  | _ => cases h

/-- Of another agent's operations only a load of STATUS gets the STATUS word (R140). -/
theorem duringOp_loads {op : AgentOp} {s t : State} (h : duringOp op s = .next t) : LoadsShow (statusWord s.status) s t := by
  cases op with
  | present code =>
    simp only [duringOp] at h
    split at h
    · exact duringInstr_loads h
    · cases h
  | memLoad a =>
    simp only [duringOp] at h
    split at h
    · cases h; unfold agentLoaded; split <;> exact .of_eq rfl
    · cases h
  | memStore a v =>
    simp only [duringOp] at h
    split at h
    · cases h; unfold agentStored; split <;> exact .of_eq rfl
    · cases h
  | remap rs => cases h; exact .of_eq rfl

theorem runDue_loads : ∀ {ops : List Timed} {s t : State}, runDue ops s = .next t → LoadsShow (statusWord s.status) s t
  | [], s, t, h => by cases h; exact .of_eq rfl
  | ⟨d + 1, op⟩ :: rest, s, t, h => by cases h; exact .of_eq rfl
  | ⟨0, op⟩ :: rest, s, t, h => by
    obtain ⟨u, h1, h2⟩ := andThen_eq_next h
    obtain ⟨-, hst, -⟩ := (duringOp_next h1).1.fields
    exact (duringOp_loads h1).trans (hst ▸ runDue_loads h2)

/-- Along the course of a command STATUS keeps the last result, and each load of it shows that with a STATE at which agents act. -/
theorem Course.seen {P : EngineState → Prop} {s t : State} (h : Course P s t) :
    t.status = { s.status with state := t.status.state } ∧
      ∃ new, t.loads = s.loads ++ new ∧ ∀ v, (Reg.status, v) ∈ new → ∃ st, P st ∧ v = statusIn st s := by
  induction h with
  | refl => exact ⟨rfl, [], by simp⟩
  | @tick t u _ hp ht ih =>
    obtain ⟨hst, new, hl, hv⟩ := ih
    obtain ⟨new', hl', hv'⟩ := runDue_loads ht
    obtain ⟨-, hst', -⟩ := (tick_next ht).1.fields
    refine ⟨by rw [hst']; exact hst, new ++ new', by rw [hl', hl, List.append_assoc], fun v hm => ?_⟩
    rcases List.mem_append.mp hm with hm | hm
    · exact hv v hm
    · exact ⟨t.status.state, hp, by rw [hv' v hm, hst]; rfl⟩
  | block _ hb ih => rw [hb.1, ih.1]; exact ⟨rfl, ih.2⟩
  | write v _ _ ih => exact ih

theorem updateRgbSpi_statusLoad {s : State} {d : Nat} (ho : s.others = [statusLoad s.cfg d])
    (h : SpiRgbRuns { s with others := [] }) (hd : d ≤ 3 * operandN s + 4) :
    ∃ t, exec .updateRgbSpi s = .next t ∧ t.others = [] ∧ t.loads = s.loads ++
      [(.status, statusIn (if d ≤ 3 * operandN s then .encoding else if d ≤ 3 * operandN s + 2 then .transmitting else .latching) s)] := by
  obtain ⟨⟨hspi, hready, hidle, hrange⟩, -, hcap, hread⟩ := h
  obtain ⟨t, hr⟩ := spiRgb_runs (s := { s with race := .over (operandA s) (rgbRange s.cfg (operandN s)) }) hcap hread
  rw [show exec .updateRgbSpi s = _ from accept_of_takes hspi hready hidle hrange]
  exact hr.sees (spiRgb_moment hd _) ho

theorem updateChannelsSpi_statusLoad {s : State} {d : Nat} (ho : s.others = [statusLoad s.cfg d])
    (h : SpiChannelsRuns { s with others := [] }) (hok : ChannelsOk s (operandN s)) (hd : d < 6 * operandN s) :
    ∃ t, exec .updateChannelsSpi s = .next t ∧ t.others = [] ∧ t.loads = s.loads ++
      [(.status, statusIn (if d % 6 < 2 then .encoding else if d % 6 < 4 then .transmitting else .latching) s)] := by
  obtain ⟨⟨hspi, hready, hidle, hrange⟩, -, hread⟩ := h
  have hn : 0 < operandN s := by omega
  obtain ⟨t, hr⟩ := spiChannels_runs (s := { s with race := .over (operandA s) (channelsRange s.cfg (operandN s)) }) hn hread hok
  rw [show exec .updateChannelsSpi s = _ from accept_of_takes hspi hready hidle hrange]
  exact hr.sees (spiChannels_moment hd _) ho

theorem updateRgbGpio_statusLoad {s : State} {d : Nat} (ho : s.others = [statusLoad s.cfg d])
    (h : GpioRgbRuns { s with others := [] }) :
    ∃ t, exec .updateRgbGpio s = .next t ∧ (d ≤ (3 + stride s.cfg) * operandN s → t.others = []) ∧
      (t.others = [] → t.loads = s.loads ++ [(.status, statusIn .transmitting s)]) := by
  obtain ⟨⟨hgpio, hready, hidle, hrange⟩, hwf, -, hread, hwrite⟩ := h
  obtain ⟨t, k, hk, hr⟩ := gpioRgb_runs (s := { s with race := .over (operandA s) (rgbRange s.cfg (operandN s)) }) hwf hread hwrite
  rw [show exec .updateRgbGpio s = _ from accept_of_takes hgpio hready hidle hrange]
  rcases Nat.lt_or_ge d k with hd | hd
  · obtain ⟨u, hu, hou, hlu⟩ := hr.sees (List.getElem?_replicate_of_lt hd) ho
    exact ⟨u, hu, fun _ => hou, fun _ => hlu⟩
  · obtain ⟨u, hu, hou⟩ := hr.waits_statusLoad (by simpa using hd) ho
    exact ⟨u, hu, fun hle => absurd hk (Nat.not_lt.mpr (hd.trans hle)), fun h0 => absurd h0 hou⟩

/-! ### The old contents of STAGE and CHBUF (R44, R119, D34) -/

/-- Two states of an instance of configuration `c` that differ only in STAGE, of its size, and CHBUF; STAGE is alike up to byte `k`. -/
structure Alike (c : Cfg) (k : Nat) (s t : State) : Prop where
  cfg : s.cfg = c
  buffers : ∃ stage chbuf, t = { s with stage := stage, chbuf := chbuf }
  size : s.stage.length = stageBytes c
  size' : t.stage.length = stageBytes c
  upTo : t.stage.take k = s.stage.take k

/-- Outcomes alike: what they yield up to `R`, and of faults all but the buffers. -/
def AlikeOut {σ : Type} (R : σ → σ → Prop) : Out σ → Out σ → Prop
  | .next x, .next y => R x y
  | .fault f, .fault g => mapStates eraseBuffers (.fault g) = mapStates eraseBuffers (.fault f)
  | .refused r, .refused r' => r' = r
  | _, _ => False

section

variable {c : Cfg} {k : Nat}

theorem Alike.erase {s t : State} (h : Alike c k s t) : eraseBuffers t = eraseBuffers s := by
  obtain ⟨st, cb, rfl⟩ := h.buffers
  rfl

theorem Alike.cfg' {s t : State} (h : Alike c k s t) : t.cfg = c := by
  obtain ⟨st, cb, rfl⟩ := h.buffers
  exact h.cfg

theorem Alike.forget {s t : State} (h : Alike c k s t) : Alike c 0 s t := { h with upTo := rfl }

theorem AlikeOut.erase {o o' : Out State} (h : AlikeOut (Alike c k) o o') : mapStates eraseBuffers o' = mapStates eraseBuffers o := by
  cases o <;> cases o'
  case next.next => exact congrArg Host.Outcome.next (Alike.erase h)
  case fault.fault => exact h
  case refused.refused => exact congrArg Host.Outcome.refused h
  all_goals exact h.elim

theorem AlikeOut.bind {σ τ : Type} {R : σ → σ → Prop} {Q : τ → τ → Prop} {o o' : Out σ} {f f' : σ → Out τ} (h : AlikeOut R o o')
    (hf : ∀ x y, R x y → AlikeOut Q (f x) (f' y)) : AlikeOut Q (andThen o f) (andThen o' f') := by
  cases o <;> cases o'
  case next.next => exact hf _ _ h
  case fault.fault => exact h
  case refused.refused => exact h
  all_goals exact h.elim

/-- Two choices by one condition are related where the branches are. -/
theorem rel_ite {α : Type} {R : α → α → Prop} {p : Prop} [Decidable p] {x y x' y' : α} (h : p → R x y) (h' : ¬ p → R x' y') :
    R (if p then x else x') (if p then y else y') := by
  split
  · exact h ‹_›
  · exact h' ‹_›

/-- A change of the state that keeps STAGE and does not look at the buffers. -/
theorem Alike.map {s t : State} (h : Alike c k s t) (F : State → State)
    (hp : ∀ u stage chbuf, ∃ chbuf', F { u with stage := stage, chbuf := chbuf } = { F u with stage := stage, chbuf := chbuf' } := by
      intros; exact ⟨_, rfl⟩)
    (hc : ∀ u, (F u).cfg = u.cfg := by intros; rfl) (hs : ∀ u, (F u).stage = u.stage := by intros; rfl) :
    Alike c k (F s) (F t) where
  cfg := (hc s).trans h.cfg
  buffers := by
    obtain ⟨st, cb, rfl⟩ := h.buffers
    exact ⟨st, hp s st cb⟩
  size := by rw [hs]; exact h.size
  size' := by rw [hs]; exact h.size'
  upTo := by rw [hs, hs]; exact h.upTo

/-- A value and the state after it, alike. -/
abbrev AlikeVal {α : Type} (c : Cfg) (k : Nat) (x y : α × State) : Prop := y.1 = x.1 ∧ Alike c k x.2 y.2

/-! #### The other agents, and the micro-steps -/

theorem duringInstr_alike {s t : State} (h : Alike c k s t) (i : Instr) :
    AlikeOut (Alike c k) (duringInstr i s) (duringInstr i t) := by
  have hr : ∀ w, refusedDuring w t = refusedDuring w s := by
    obtain ⟨st, cb, rfl⟩ := h.buffers
    exact fun _ => rfl
  cases i with
  | rd r => exact h.map fun u => { u with loads := u.loads ++ [(r, regWord u r)] }
  | wrAddr v => exact h.map fun u => { u with addr := v }
  | wrCount v => exact h.map fun u => { u with count := v }
  | wrRo r v => exact rel_ite (R := AlikeOut _) (fun _ => h) fun _ => rfl
  | _ => exact hr _

theorem agentLoaded_alike {s t : State} (h : Alike c k s t) (a : Nat) : Alike c k (agentLoaded s a) (agentLoaded t a) := by
  have hs := h
  obtain ⟨st, cb, rfl⟩ := hs.buffers
  exact rel_ite (p := s.race.heldAt a = [])
    (fun _ => h.map fun u => { u with hostReads := u.hostReads ++ [(a, memGet u.mem a)] })
    fun _ => h.map fun u => { u with
      hostReads := u.hostReads ++ [(a, freePick u.draws (readable u a) (memGet u.mem a))], draws := u.draws + 1 }

theorem agentStored_alike {s t : State} (h : Alike c k s t) (a : Nat) (v : Byte) :
    Alike c k (agentStored s a v) (agentStored t a v) := by
  have hs := h
  obtain ⟨st, cb, rfl⟩ := hs.buffers
  exact rel_ite (p := s.race.covers a = true) (fun _ => h.map fun u => storeRaced u a v)
    fun _ => h.map fun u => { u with mem := memPut u.mem a v }

theorem Alike.admitsRead_eq {s t : State} (h : Alike c k s t) (a : Nat) : admitsRead t a = admitsRead s a := by
  obtain ⟨st, cb, rfl⟩ := h.buffers
  rfl

theorem Alike.admitsWrite_eq {s t : State} (h : Alike c k s t) (a : Nat) : admitsWrite t a = admitsWrite s a := by
  obtain ⟨st, cb, rfl⟩ := h.buffers
  rfl

theorem duringOp_alike {s t : State} (h : Alike c k s t) (op : AgentOp) : AlikeOut (Alike c k) (duringOp op s) (duringOp op t) := by
  cases op with
  | present code =>
    simp only [duringOp, h.cfg, h.cfg']
    cases decode c.transport c.regBase code with
    | ok i => exact duringInstr_alike h i
    | error e => rfl
  | memLoad a =>
    simp only [duringOp, h.admitsRead_eq]
    exact rel_ite (R := AlikeOut _) (fun _ => agentLoaded_alike h _) fun _ => rfl
  | memStore a v =>
    simp only [duringOp, h.admitsWrite_eq]
    exact rel_ite (R := AlikeOut _) (fun _ => agentStored_alike h _ v) fun _ => rfl
  | remap rs => exact h.map fun u => { u with regions := rs }

theorem runDue_alike : ∀ (ops : List Timed) {s t : State}, Alike c k s t → AlikeOut (Alike c k) (runDue ops s) (runDue ops t)
  | [], _, _, h => h.map fun u => { u with others := [] }
  | ⟨0, op⟩ :: rest, _, _, h => (duringOp_alike h op).bind fun _ _ h => runDue_alike rest h
  | ⟨d + 1, op⟩ :: rest, _, _, h => h.map fun u => { u with others := ⟨d, op⟩ :: rest }

theorem tick_alike {s t : State} (h : Alike c k s t) : AlikeOut (Alike c k) (tick s) (tick t) := by
  unfold tick
  rw [show t.others = s.others by obtain ⟨st, cb, rfl⟩ := h.buffers; rfl]
  exact runDue_alike s.others h

/-- A micro-step is alike where what follows the other agents is. -/
theorem ticked_alike {σ : Type} {R : σ → σ → Prop} {f : State → Out σ} {s t : State} (h : Alike c k s t)
    (hf : ∀ u v, Alike c k u v → AlikeOut R (f u) (f v)) : AlikeOut R (andThen (tick s) f) (andThen (tick t) f) :=
  (tick_alike h).bind hf

theorem enterState_alike {st : EngineState} {s t : State} (h : Alike c k s t) :
    AlikeOut (Alike c k) (enterState st s) (enterState st t) := ticked_alike h fun _ _ h => h.map (setState st)

theorem finish_alike {r : ResultCode} {d : Word} {s t : State} (h : Alike c k s t) : Alike c k (finish r d s) (finish r d t) :=
  h.map (finish r d)

theorem complete_alike {r : ResultCode} {d : Word} {s t : State} (h : Alike c k s t) :
    AlikeOut (Alike c k) (complete r d s) (complete r d t) := ticked_alike h fun _ _ h => finish_alike h

theorem Alike.settled {s t : State} (h : Alike c k s t) : eraseBuffers (settle t) = eraseBuffers (settle s) := (h.map settle).erase

theorem memRead_alike {a : Nat} {s t : State} (h : Alike c k s t) : AlikeOut (AlikeVal c k) (memRead a s) (memRead a t) := by
  refine ticked_alike h fun u v h => ?_
  have hv : readValue v a = readValue u a := by obtain ⟨st, cb, rfl⟩ := h.buffers; rfl
  have hw : Alike c k (if u.race.raced.contains a then drew u else u) (if v.race.raced.contains a then drew v else v) := by
    rw [show v.race = u.race by obtain ⟨st, cb, rfl⟩ := h.buffers; rfl]
    exact rel_ite (fun _ => h.map drew) fun _ => h
  rw [h.admitsRead_eq, hv]
  exact rel_ite (R := AlikeOut _) (fun _ => ⟨rfl, hw.map (emit (.memR a (readValue u a)))⟩)
    fun _ => congrArg (fun l => (.fault (.stuckRead a l) : Out State)) h.settled

theorem memWrite_alike {a : Nat} {v : Byte} {s t : State} (h : Alike c k s t) :
    AlikeOut (Alike c k) (memWrite a v s) (memWrite a v t) := by
  refine ticked_alike h fun u w h => ?_
  rw [h.admitsWrite_eq]
  exact rel_ite (R := AlikeOut _) (fun _ => h.map fun u => emit (.memW a v) (storeNoted u a v))
    fun _ => congrArg (fun l => (.fault (.stuckWrite a l) : Out State)) h.settled

/-- An oracle call is alike: its answer and its event do not look at the buffers. -/
theorem oracle_alike {e : State → Event} {s t : State}
    (he : ∀ u stage chbuf, e { u with stage := stage, chbuf := chbuf } = e u := by intros; rfl) (h : Alike c k s t) :
    AlikeOut (AlikeVal c k)
      (andThen (tick s) fun u => .next (answerOfWord (replyAt u 0).error, emit (e u) (tookReply u)))
      (andThen (tick t) fun u => .next (answerOfWord (replyAt u 0).error, emit (e u) (tookReply u))) := by
  refine ticked_alike h fun u v h => ⟨?_, h.map (fun u => emit (e u) (tookReply u)) fun u st cb => ⟨cb, by rw [he]; rfl⟩⟩
  obtain ⟨st, cb, rfl⟩ := h.buffers
  rfl

theorem clockRequest_alike {s t : State} (h : Alike c k s t) : AlikeOut (AlikeVal c k) (clockRequest s) (clockRequest t) :=
  oracle_alike (e := fun u => .clkReq (answerOfWord (replyAt u 0).error)) (h := h)

theorem clockRelease_alike {s t : State} (h : Alike c k s t) : AlikeOut (AlikeVal c k) (clockRelease s) (clockRelease t) :=
  oracle_alike (e := fun u => .clkRel (answerOfWord (replyAt u 0).error)) (h := h)

theorem busWrite_alike {kind : BusKind} {bytes : List Byte} {s t : State} (h : Alike c k s t) :
    AlikeOut (AlikeVal c k) (busWrite kind bytes s) (busWrite kind bytes t) :=
  oracle_alike (e := fun u => .bus kind bytes (answerOfWord (replyAt u 0).error) (sentPart bytes (replyAt u 0))) (h := h)

theorem readPixel_alike {a i : Nat} {s t : State} (h : Alike c k s t) :
    AlikeOut (AlikeVal c k) (readPixel a i s) (readPixel a i t) := by
  unfold readPixel
  rw [h.cfg, h.cfg']
  exact (memRead_alike h).bind fun x x' hx => (memRead_alike hx.2).bind fun y y' hy => (memRead_alike hy.2).bind fun z z' hz =>
    ⟨by rw [hx.1, hy.1, hz.1], hz.2⟩

/-! #### The GPIO transport -/

theorem layoutWrites_alike {a i : Nat} {w : List Byte} : ∀ (chs : List Channel) {s t : State}, Alike c k s t →
    AlikeOut (Alike c k) (layoutWrites a i w chs s) (layoutWrites a i w chs t)
  | [], _, _, h => h
  | ch :: rest, s, t, h => by
    simp only [layoutWrites, h.cfg, h.cfg']
    exact (memWrite_alike h).bind fun _ _ h => layoutWrites_alike rest h

theorem layoutPixel_alike {a i : Nat} {s t : State} (h : Alike c k s t) :
    AlikeOut (Alike c k) (layoutPixel a i s) (layoutPixel a i t) := by
  refine (readPixel_alike h).bind fun x y hx => ?_
  rw [hx.1, hx.2.cfg, hx.2.cfg']
  exact layoutWrites_alike _ hx.2

theorem layoutFrom_alike {a : Nat} : ∀ (n : Nat) {i : Nat} {s t : State}, Alike c k s t →
    AlikeOut (Alike c k) (layoutFrom a i n s) (layoutFrom a i n t)
  | 0, _, _, _, h => h
  | n + 1, _, _, _, h => (layoutPixel_alike h).bind fun _ _ h => layoutFrom_alike n h

theorem burstEnter_alike {a nb : Nat} {s t : State} (h : Alike c k s t) :
    AlikeOut (Alike c k) (burstEnter a nb s) (burstEnter a nb t) := by
  refine rel_ite (R := AlikeOut _) (fun _ => h.map fun u => setPhase .clkRel { u with g := { u.g with nb := nb } }) fun _ => ?_
  refine (memRead_alike (h.map fun u => { u with g := { u.g with nb := nb, j := 0, i := 7, c := 0, phase := .burst } })).bind
    fun x y hx => ?_
  rw [hx.1]
  exact hx.2.map fun u => { drew u with
    cycle := u.cycle + Config.freeNat u.draws
    g := { u.g with b := x.1, start := u.cycle + Config.freeNat u.draws, sent := [x.1] } }

theorem burstAdvance_alike {a : Nat} {s t : State} (h : Alike c k s t) :
    AlikeOut (Alike c k) (burstAdvance a s) (burstAdvance a t) := by
  have h0 := h
  obtain ⟨st, cb, rfl⟩ := h0.buffers
  refine rel_ite (R := AlikeOut _) (p := s.g.c = slotLen s.cfg s.g.nb s.g.j s.g.i) (fun _ => ?_) fun _ => h
  refine rel_ite (R := AlikeOut _) (p := s.g.i > 0)
    (fun _ => h.map fun u => { u with g := { u.g with c := 0, i := u.g.i - 1 } }) fun _ => ?_
  refine rel_ite (R := AlikeOut _) (p := s.g.j + 1 < s.g.nb) (fun _ => ?_)
    fun _ => h.map fun u => leaveBurst { u with g := { u.g with c := 0 } }
  refine (memRead_alike (h.map fun u => { u with g := { u.g with c := 0, j := u.g.j + 1, i := 7 } })).bind fun x y hx => ?_
  rw [hx.1]
  exact hx.2.map fun u => { u with g := { u.g with b := x.1, sent := u.g.sent ++ [x.1] } }

theorem burstCycle_alike {a : Nat} {s t : State} (h : Alike c k s t) : AlikeOut (Alike c k) (burstCycle a s) (burstCycle a t) :=
  ticked_alike h fun _ _ h => burstAdvance_alike (h.map burstLevel)

theorem burstRun_alike {a : Nat} : ∀ (fuel : Nat) {s t : State}, Alike c k s t →
    AlikeOut (Alike c k) (burstRun a fuel s) (burstRun a fuel t)
  | 0, _, _, h => h
  | fuel + 1, s, t, h => by
    simp only [burstRun]
    rw [show t.g = s.g by obtain ⟨st, cb, rfl⟩ := h.buffers; rfl]
    exact rel_ite (R := AlikeOut _) (fun _ => (burstCycle_alike h).bind fun _ _ h => burstRun_alike fuel h) fun _ => h

theorem burst_alike {a nb : Nat} {s t : State} (h : Alike c k s t) : AlikeOut (Alike c k) (burst a nb s) (burst a nb t) := by
  unfold burst
  rw [h.cfg, h.cfg']
  exact (burstEnter_alike h).bind fun _ _ h => burstRun_alike _ h

theorem gpioRelease_alike {s t : State} (h : Alike c k s t) : AlikeOut (Alike c k) (gpioRelease s) (gpioRelease t) := by
  refine (clockRelease_alike h).bind fun x y hx => ?_
  rw [hx.1]
  split
  · exact complete_alike (hx.2.map fun u => setPhase .done { u with clkReq := false })
  · exact complete_alike (hx.2.map fun u => setPhase .done { drew u with clkReq := Config.freeBit u.draws })

theorem gpioTransmit_alike {a n : Nat} {s t : State} (h : Alike c k s t) :
    AlikeOut (Alike c k) (gpioTransmit a n s) (gpioTransmit a n t) := by
  have h0 := h
  obtain ⟨st, cb, rfl⟩ := h0.buffers
  exact (burst_alike (h.map fun u => setMask true { u with clkReq := true })).bind fun _ _ h => gpioRelease_alike (h.map (setMask false))

/-- UPDATE_RGB.GPIO does not look at the SPI buffers. -/
theorem gpioRgb_alike {a n : Nat} {s t : State} (h : Alike c k s t) : AlikeOut (Alike c k) (gpioRgb a n s) (gpioRgb a n t) := by
  refine (layoutFrom_alike n (h.map fun u => setPhase .layout (setState .transmitting u))).bind fun u v h => ?_
  refine (clockRequest_alike (h.map (setPhase .clkReq))).bind fun x y hx => ?_
  rw [hx.1]
  split
  · exact complete_alike hx.2
  · exact gpioTransmit_alike hx.2

/-! #### The SPI transport -/

/-- The frames of pixel `i`, written to STAGE, make it alike up to the next pixel (R119). -/
theorem Alike.staged {i : Nat} {bs : List Byte} {s t : State} (h : Alike c (8 * (stride c * i)) s t)
    (hb : bs.length = 8 * stride c) (hi : 8 * (stride c * (i + 1)) ≤ stageBytes c) :
    Alike c (8 * (stride c * (i + 1))) { s with stage := overwrite s.stage (8 * (stride c * i)) bs }
      { t with stage := overwrite t.stage (8 * (stride c * i)) bs } := by
  have hnext : 8 * (stride c * (i + 1)) = 8 * (stride c * i) + bs.length := by rw [hb, Nat.mul_succ, Nat.mul_add]
  rw [hnext] at hi ⊢
  refine ⟨h.cfg, ?_, ?_, ?_, ?_⟩
  · obtain ⟨st, cb, rfl⟩ := h.buffers
    exact ⟨_, _, rfl⟩
  · exact (overwrite_length (h.size ▸ hi)).trans h.size
  · exact (overwrite_length (h.size' ▸ hi)).trans h.size'
  · have hs := h.size
    have ht := h.size'
    exact (overwrite_take (by omega)).trans (by rw [h.upTo, overwrite_take (by omega)])

theorem encodePixel_alike {a i : Nat} {s t : State} (h : Alike c (8 * (stride c * i)) s t)
    (hi : 8 * (stride c * (i + 1)) ≤ stageBytes c) :
    AlikeOut (Alike c (8 * (stride c * (i + 1)))) (encodePixel a i s) (encodePixel a i t) := by
  refine (readPixel_alike (h.map fun u => { u with sI := i })).bind fun x y hx => ?_
  rw [hx.1, hx.2.cfg, hx.2.cfg']
  exact hx.2.staged (by simp) hi

theorem encodeFrom_alike {a : Nat} : ∀ (n : Nat) {i : Nat} {s t : State}, Alike c (8 * (stride c * i)) s t →
    8 * (stride c * (i + n)) ≤ stageBytes c →
    AlikeOut (Alike c (8 * (stride c * (i + n)))) (encodeFrom a i n s) (encodeFrom a i n t)
  | 0, _, _, _, h, _ => h
  | n + 1, i, _, _, h, hi => by
    have hle : stride c * (i + 1) ≤ stride c * (i + (n + 1)) := Nat.mul_le_mul_left _ (by omega)
    have hpixel := (Nat.mul_le_mul_left 8 hle).trans hi
    rw [show i + (n + 1) = i + 1 + n by omega] at hi ⊢
    exact (encodePixel_alike h hpixel).bind fun _ _ h => encodeFrom_alike n h hi

theorem latch_alike {s t : State} (h : Alike c k s t) : AlikeOut (AlikeVal c k) (latch s) (latch t) := by
  unfold latch
  rw [h.cfg, h.cfg']
  exact (enterState_alike h).bind fun _ _ h => busWrite_alike h

theorem dataThenLatch_alike {bytes : List Byte} {s t : State} (h : Alike c k s t) :
    AlikeOut (AlikeVal c k) (dataThenLatch bytes s) (dataThenLatch bytes t) :=
  (enterState_alike h).bind fun _ _ h => (busWrite_alike h).bind fun _ _ hx => (latch_alike hx.2).bind fun _ _ hy =>
    ⟨by rw [hx.1, hy.1], hy.2⟩

/-- UPDATE_RGB.SPI sends of STAGE what it has encoded there (R118, R119). -/
theorem spiRgb_alike {a n : Nat} {s t : State} (hs : c.transport = .spi) (h : Alike c 0 s t) :
    AlikeOut (Alike c 0) (spiRgb a n s) (spiRgb a n t) := by
  unfold spiRgb
  rw [h.cfg, h.cfg']
  refine rel_ite (R := AlikeOut _) (fun _ => finish_alike h) fun hn => ?_
  have hle : 8 * (stride c * (0 + n)) ≤ stageBytes c := by
    rw [stageBytes, hs, Nat.zero_add, ← Nat.mul_assoc]
    exact Nat.mul_le_mul_left _ (Nat.not_lt.mp hn)
  refine (encodeFrom_alike n (h.map fun u => { setState .encoding u with sI := 0 }) hle).bind fun u v h => ?_
  have hst : v.stage.take (8 * stride c * n) = u.stage.take (8 * stride c * n) := by
    have := h.upTo
    rwa [Nat.zero_add, ← Nat.mul_assoc] at this
  rw [h.cfg, h.cfg', hst]
  refine (dataThenLatch_alike h).bind fun x y hx => ?_
  rw [hx.1]
  exact complete_alike hx.2.forget

theorem channelStart_alike {j : Nat} {s t : State} (h : Alike c k s t) :
    AlikeOut (Alike c k) (channelStart j s) (channelStart j t) :=
  rel_ite (R := AlikeOut _) (fun _ => h.map (setState .encoding)) fun _ => enterState_alike h

/-- A channel writes CHBUF as a whole before it sends it (R124). -/
theorem channelSend_alike {a j : Nat} {s t : State} (h : Alike c k s t) :
    AlikeOut (AlikeVal c k) (channelSend a j s) (channelSend a j t) := by
  refine (channelStart_alike (h.map fun u => { u with sJ := j })).bind fun u v h => (memRead_alike h).bind fun x y hx => ?_
  rw [hx.1, hx.2.cfg, hx.2.cfg']
  exact dataThenLatch_alike (hx.2.map fun u => { u with chbuf := ser c x.1 })

theorem channelsDone_alike {j : Nat} {s t : State} (h : Alike c k s t) :
    AlikeOut (Alike c k) (channelsDone j s) (channelsDone j t) :=
  rel_ite (R := AlikeOut _) (fun _ => finish_alike h) fun _ => complete_alike h

theorem channelsFrom_alike {a : Nat} : ∀ (n : Nat) {j : Nat} {s t : State}, Alike c k s t →
    AlikeOut (Alike c k) (channelsFrom a j n s) (channelsFrom a j n t)
  | 0, _, _, _, h => channelsDone_alike h
  | n + 1, _, _, _, h => by
    refine (channelSend_alike h).bind fun x y hx => ?_
    rw [hx.1]
    split
    · exact complete_alike hx.2
    · exact complete_alike hx.2
    · exact channelsFrom_alike n hx.2

/-! #### The instructions -/

theorem accept_alike {tr : Transport} {len : Nat → Nat} {s t : State} {run : Nat → Nat → State → Out State} (h : Alike c k s t)
    (hrun : c.transport = tr → ∀ a n {u v : State}, Alike c k u v → AlikeOut (Alike c k) (run a n u) (run a n v)) :
    AlikeOut (Alike c k) (accept tr len s run) (accept tr len t run) := by
  have hcfg := h.cfg
  have h' := h
  obtain ⟨st, cb, rfl⟩ := h'.buffers
  refine rel_ite (R := AlikeOut _) (p := s.cfg.transport ≠ tr) (fun _ => rfl) fun ht => ?_
  refine rel_ite (R := AlikeOut _) (p := s.status.ready = false) (fun _ => rfl) fun _ => ?_
  refine rel_ite (R := AlikeOut _) (p := s.status.state ≠ .idle) (fun _ => rfl) fun _ => ?_
  refine rel_ite (R := AlikeOut _) (p := operandA s + len (operandN s) > addressSpace) (fun _ => rfl) fun _ => ?_
  exact hrun (hcfg ▸ not_not.mp ht) _ _ (h.map fun u => { u with race := .over (operandA s) (len (operandN s)) })

theorem command_alike {i : Instr} {s t : State} (hi : IsCommand i) (h : Alike c 0 s t) :
    AlikeOut (Alike c 0) (exec i s) (exec i t) := by
  have hcfg : t.cfg = s.cfg := h.cfg'.trans h.cfg.symm
  rcases hi with rfl | rfl | rfl | rfl
  · show AlikeOut _ (accept _ (rgbRange s.cfg) _ _) (accept _ (rgbRange t.cfg) _ _)
    rw [hcfg]
    exact accept_alike h fun _ _ _ _ _ h => gpioRgb_alike h
  · show AlikeOut _ (accept _ (channelsRange s.cfg) s fun _ _ u => .next (finish .unsupported 0 u))
      (accept _ (channelsRange t.cfg) t fun _ _ u => .next (finish .unsupported 0 u))
    rw [hcfg]
    exact accept_alike h fun _ _ _ _ _ h => finish_alike h
  · show AlikeOut _ (accept _ (rgbRange s.cfg) _ _) (accept _ (rgbRange t.cfg) _ _)
    rw [hcfg]
    exact accept_alike h fun hs _ _ _ _ h => spiRgb_alike hs h
  · show AlikeOut _ (accept _ (channelsRange s.cfg) _ _) (accept _ (channelsRange t.cfg) _ _)
    rw [hcfg]
    exact accept_alike h fun _ _ n _ _ h => channelsFrom_alike n (h.map fun u => { u with sJ := 0 })

theorem exec_alike {s t : State} (h : Alike c 0 s t) (i : Instr) : AlikeOut (Alike c 0) (exec i s) (exec i t) := by
  cases i with
  | rd r => exact duringInstr_alike h (.rd r)
  | wrAddr v => exact duringInstr_alike h (.wrAddr v)
  | wrCount v => exact duringInstr_alike h (.wrCount v)
  | wrRo r v => exact duringInstr_alike h (.wrRo r v)
  | reservedCmd w => rfl
  | wrCmd w =>
    rw [exec_wrCmd, exec_wrCmd, h.cfg, h.cfg']
    rcases decodeCmd_command_or_reserved c.transport w with hc | hc
    · exact command_alike hc h
    · rw [hc]; rfl
  | updateRgbGpio => exact command_alike (.inl rfl) h
  | updateChannelsGpio => exact command_alike (.inr (.inl rfl)) h
  | updateRgbSpi => exact command_alike (.inr (.inr (.inl rfl))) h
  | updateChannelsSpi => exact command_alike (.inr (.inr (.inr rfl))) h

end

end Sys2Proof.Machine

namespace Sys2Proof.Proofs

open Sys2Proof.Machine

/-- Settles O12: the move a step carries out keeps the invariant, and choosing it does not touch what the invariant speaks of. -/
theorem everyStepKeepsTheInvariant : Obligations.EveryStepKeepsTheInvariant := by
  intro s t hs h
  obtain ⟨hwf, hm⟩ := step_next h
  obtain ⟨o, p, he⟩ := nextMove_state s
  rw [he] at hm
  exact Inv.of_runMove (s := { s with others := o, program := p }) (hs.outside ..) hwf hm

/-- Settles O9: on the course of a command neither the block nor another agent writes READY, and only INIT ends the boot. -/
theorem noInstructionChangesReady : Obligations.NoInstructionChangesReady :=
  fun _ _ _ _ h => (exec_sameInstance h).2

/-- Settles O10: each move leaves CFG as it is. -/
theorem noStepWritesTheConfiguration : Obligations.NoStepWritesTheConfiguration := by
  intro s t h
  obtain ⟨-, hm⟩ := step_next h
  obtain ⟨o, p, he⟩ := nextMove_state s
  exact (runMove_cfg hm).trans (by rw [he])

/-- Settles O11. -/
theorem resetMeetsTheInvariant : Obligations.ResetMeetsTheInvariant := inv_resetWith

/-- Settles O7: the step is the reset, and every register but ADDR, COUNT and STATUS shows the configuration, which it keeps. -/
theorem resetLeavesTheTabledValues : Obligations.ResetLeavesTheTabledValues := by
  intro s rest hw ho hb hp
  refine ⟨_, step_reset hw ho hb hp, rfl, rfl, rfl, statusWord_reset, List.length_replicate, List.length_replicate, rfl, rfl, rfl,
    rfl, rfl, rfl, rfl, rfl, rfl, rfl, rfl, rfl, rfl, rfl, rfl, rfl, fun r ha hc hs => ?_⟩
  exact regWord_of_cfg (by rfl) ha hc hs

/-- Settles O8: INIT is the first step, and it ends in `initDone` exactly where every required handle is found. -/
theorem initResolvesTheHandles : Obligations.InitResolvesTheHandles := by
  intro s hw ho hb
  obtain ⟨r, k, he⟩ := resolveAll_eq (requiredHandles s.cfg) s
  refine ⟨_, step_init hw ho hb, ?_⟩
  rw [he]
  simp only [handles_found_iff]
  split
  · refine ⟨rfl, rfl, rfl, rfl, rfl, rfl, rfl, rfl, rfl, statusWord_initDone _, ?_⟩
    rw [initDone_pin]
    cases s.cfg.transport <;> simp
  · exact ⟨rfl, rfl, rfl, rfl, rfl, rfl, rfl, rfl, rfl, statusWord_initFailed _, rfl⟩

/-- Settles O13, register by register: the packed words are read back field by field. -/
theorem registerLoadReturnsItsValue : Obligations.RegisterLoadReturnsItsValue := by
  intro s r
  refine ⟨regWord s r, rfl, ?_⟩
  cases r with
  | cmd => rfl
  | addr => rfl
  | count => rfl
  | status => exact statusWord_fields s.status
  | cfg0 => exact cfg0Word_fields s.cfg
  | busFreq => rfl
  | frames =>
    cases ht : s.cfg.transport with
    | gpio => simp only [regWord, framesWord, ht, if_true]
    | spi => exact framesWord_fields ht
  | maxPix => rfl
  | tHigh =>
    cases ht : s.cfg.transport with
    | gpio =>
      simp only [regWord, tHighWord, ht, if_true]
      exact ⟨BitVec.extractLsb'_append_eq_right, BitVec.extractLsb'_append_eq_left⟩
    | spi => simp [regWord, tHighWord, ht]
  | tPer =>
    cases ht : s.cfg.transport with
    | gpio =>
      simp only [regWord, tPerWord, ht, if_true]
      exact ⟨BitVec.extractLsb'_append_eq_right, BitVec.extractLsb'_append_eq_left⟩
    | spi => simp [regWord, tPerWord, ht]
  | cpuHz => rfl

/-- Settles O14. -/
theorem registerStoreWritesOnlyItsRegister : Obligations.RegisterStoreWritesOnlyItsRegister :=
  fun _ _ => ⟨rfl, rfl, rfl, rfl⟩

/-- Settles O16: a reserved word decodes to RESERVED_CMD, another to a row of its transport, whose acceptance makes the other checks. -/
theorem commandStoreChecksInOrder : Obligations.CommandStoreChecksInOrder := by
  intro s c
  refine ⟨rfl, ?_⟩
  rw [exec_wrCmd]
  split
  · next hr => rw [decodeCmd_of_reserved hr]; rfl
  · next hr =>
    rcases not_reservedWord_iff.mp hr with rfl | rfl <;> cases ht : s.cfg.transport
    · exact accept_checks ht (m := s.cfg.recordBytes * s.count.toNat) (by simp only [rgbRange, ht])
    · exact accept_checks ht (m := if s.count.toNat > s.cfg.maxPixels.toNat then 0 else s.cfg.recordBytes * s.count.toNat)
        (by simp only [rgbRange, ht])
    · exact accept_checks (len := channelsRange s.cfg) (run := fun _ _ s1 => .next (finish .unsupported 0 s1)) (m := 0) ht
        (by simp only [channelsRange, ht])
    · exact accept_checks ht (m := s.count.toNat) (by simp only [channelsRange, ht])

/-- Settles O20: a load that comes at a micro-step gets the word shown there, and none comes while STATE is IDLE. -/
theorem secondAgentSeesTheRunningState : Obligations.SecondAgentSeesTheRunningState := by
  refine ⟨fun s d ho => ⟨updateRgbSpi_statusLoad ho, updateChannelsSpi_statusLoad ho, updateRgbGpio_statusLoad ho⟩,
    fun i s t hi h => ?_⟩
  obtain ⟨a, n, u, r, d, hc, rfl⟩ := exec_course hi h
  obtain ⟨-, new, hl, hv⟩ := hc.seen
  exact ⟨new, hl, fun v hm => (hv v hm).imp fun st ⟨⟨hne, hg⟩, hw⟩ => ⟨hne, hw, hg⟩⟩

/-- Settles O49: the two runs stay alike, for an UPDATE_RGB.SPI sends only the bytes of STAGE it has encoded. -/
theorem oldBufferContentsNeverShow : Obligations.OldBufferContentsNeverShow :=
  fun i _ _ _ hs ht => (exec_alike ⟨rfl, ⟨_, _, rfl⟩, hs, ht, rfl⟩ i).erase

end Sys2Proof.Proofs
end

section
/-! PROOFS. The statements of the family of 20_memory.md: frame groups, the in-place layout and UPDATE_RGB.GPIO alone, what the commands
leave unchanged, races, and host memory between commands. -/

namespace Sys2Proof.Machine

/-! ### The frames of a run of wire bytes (R72, R116) -/

theorem ser_getElem? (c : Cfg) (v : Byte) {k : Nat} (hk : k < 8) :
    (ser c v)[k]? = some (if v.getLsbD (7 - k) then c.oneFrame else c.zeroFrame) := by
  simp [ser, hk]

/-- Frame `k` of wire byte `m` is frame 8m + k of the run (R72). -/
theorem serAll_getElem? (c : Cfg) (ws : List Byte) {m k : Nat} (hm : m < ws.length) (hk : k < 8) :
    (serAll c ws)[8 * m + k]? = (ser c (ws.getD m 0))[k]? := by
  have hws : ws = (List.range ws.length).map fun i => ws.getD i 0 := by
    refine List.ext_getElem (by simp) fun i hi _ => ?_
    simp [hi]
  have hser : serAll c ws = (List.range ws.length).flatMap fun i => ser c (ws.getD i 0) := by
    conv_lhs => rw [serAll, hws]
    rw [List.flatMap_map]
  rw [hser]
  exact flatMap_range_get _ 8 (fun _ => ser_length c _) _ _ _ hm hk

/-! ### The layout alone (R84, R85) -/

theorem wireStream_eq_nil_iff (c : Cfg) (m : List Host.Cell) (a n : Nat) : wireStream c m a n = [] ↔ n = 0 := by
  rw [← List.length_eq_zero_iff, wireStream_length, Nat.mul_eq_zero, or_iff_right (stride_pos c).ne']

/-- Memory `m'` is `m` with the wire stream of its `n` pixels at `a` in [a, a + STRIDE·n), every other byte as it was (R84, R85). -/
def WireStreamLeft (c : Cfg) (a n : Nat) (m m' : List Host.Cell) : Prop :=
  ∀ x, memGet m' x = if a ≤ x ∧ x < a + stride c * n then (wireStream c m a n).getD (x - a) 0 else memGet m x

/-- `u` is `s` after LAYOUT_INPLACE on its memory: the wire stream in place, its reads and writes in TRACE, no race. -/
structure LaidOut (a n : Nat) (s u : State) : Prop where
  same : u = { s with mem := u.mem, trace := s.trace ++ layoutEvents s.cfg s.mem a n, race := u.race }
  notRaced : u.race.raced = []
  mem : WireStreamLeft s.cfg a n s.mem u.mem

/-- A range whose bytes can all be written lies in the address space. -/
theorem BytesWritable.le_addressSpace {s : State} {a k : Nat} (h : BytesWritable s a k) (hk : 0 < k) : a + k ≤ addressSpace := by
  have := admitsWrite_lt (h (k - 1) (by omega))
  omega

theorem layoutMem_wireStreamLeft {c : Cfg} (hwf : cfgWf c = true) (hg : c.transport = .gpio) {a n : Nat} {m : List Host.Cell}
    (hm : memWf m = true) (hlt : 0 < stride c * n → a + stride c * n ≤ addressSpace) :
    WireStreamLeft c a n m (layoutMem c a 0 n m) := by
  intro x
  rcases Nat.eq_zero_or_pos n with rfl | hn
  · rw [if_neg (by omega)]; rfl
  · have hget := (layoutMem_get hwf hg a n 0 m hm (by rw [Nat.zero_add]; exact hlt (Nat.mul_pos (stride_pos c) hn))).2 x
    rw [Nat.mul_zero, Nat.add_zero, Nat.zero_add] at hget
    rw [hget]
    split
    · rw [wireStream_getD _ _ _ _ _ (by omega)]
    · rfl

/-- After the layout the wire stream can be read where it was written. -/
theorem LaidOut.readable {a n : Nat} {s u : State} (h : LaidOut a n s u) (hw : BytesWritable s a (stride s.cfg * n)) {j : Nat}
    (hj : j < (wireStream s.cfg s.mem a n).length) :
    admitsRead u (a + j) = true ∧ memGet u.mem (a + j) = (wireStream s.cfg s.mem a n).getD j 0 := by
  rw [wireStream_length] at hj
  refine ⟨?_, ?_⟩
  · rw [← admitsRead_of_admitsWrite (hw j hj)]
    exact admitsRead_congr (by rw [h.same]) (by rw [h.same]) _
  · rw [h.mem, if_pos ⟨Nat.le_add_right a j, Nat.add_lt_add_left hj a⟩, Nat.add_sub_cancel_left]

/-! ### What the commands leave alone (R54) -/

/-- A completed command was accepted, so the instance is of its transport (R65, R144). -/
theorem accept_transport {t : Transport} {len : Nat → Nat} {s u : State} {run : Nat → Nat → State → Out State}
    (h : accept t len s run = .next u) : s.cfg.transport = t :=
  (accept_accepted fun r hr => by rw [hr] at h; cases h).1

/-- A completed UPDATE_RGB.GPIO, on a well-formed instance (R106, R112). -/
theorem updateRgbGpio_gpioDone {s t : State} (hwf : cfgWf s.cfg = true) (h : exec .updateRgbGpio s = .next t) :
    GpioDone (operandA s) (operandA s + stride s.cfg * operandN s)
      { s with race := .over (operandA s) (rgbRange s.cfg (operandN s)) } t :=
  (gpioRgb_sat (by exact hwf) (by exact accept_transport h)).of_next (accept_next h)

/-- UPDATE_CHANNELS.GPIO is `finish` and nothing else (R108). -/
theorem updateChannelsGpio_next {s t : State} (h : exec .updateChannelsGpio s = .next t) :
    t = finish .unsupported 0 { s with race := .over (operandA s) (channelsRange s.cfg (operandN s)) } := by
  change execUpdateChannelsGpio s = _ at h
  cases accept_next h
  rfl

theorem updateRgbSpi_keeps {s t : State} (h : exec .updateRgbSpi s = .next t) :
    SpiKeeps { s with race := .over (operandA s) (rgbRange s.cfg (operandN s)) } t ∧ t.chbuf = s.chbuf ∧ t.sJ = s.sJ := by
  obtain ⟨hk, -, -, hchbuf, hsJ, -⟩ := (spiRgb_sat (by exact accept_transport h)).of_next (accept_next h)
  exact ⟨hk, hchbuf, hsJ⟩

theorem updateChannelsSpi_keeps {s t : State} (h : exec .updateChannelsSpi s = .next t) :
    SpiKeeps { s with race := .over (operandA s) (channelsRange s.cfg (operandN s)) } t ∧ t.stage = s.stage ∧ t.sI = s.sI := by
  obtain ⟨hk, -, -, hstage, hsI, -⟩ := (channelsFrom_sat _).of_next (accept_next (run := spiChannels) h)
  exact ⟨(SpiKeeps.of_engine { s with race := .over _ _ } s.status.state s.stage s.chbuf s.sI 0).trans hk, hstage, hsI⟩

/-! ### A racy read (R59) -/

/-- Another agent's store to an admitted byte of the running command's range (R59). -/
theorem duringOp_memStore_raced {s : State} {x : Word} (v : Byte) (ha : admitsWrite s x.toNat = true)
    (hc : s.race.covers x.toNat = true) : duringOp (.memStore x v) s = .next (storeRaced s x.toNat v) := by
  simp only [duringOp, ha, if_true, agentStored, hc]

/-- And alone before a micro-step. -/
theorem tick_memStore_raced {s : State} {x : Word} {v : Byte} (ha : admitsWrite s x.toNat = true)
    (hc : s.race.covers x.toNat = true) (ho : s.others = [⟨0, .memStore x v⟩]) :
    tick s = .next { storeRaced s x.toNat v with others := [] } := by
  simp only [tick, ho, runDue, duringOp_memStore_raced v ha hc, andThen_next]

theorem memRead_of_tick {a : Nat} {s u : State} (ht : tick s = .next u) (ha : admitsRead u a = true) :
    memRead a s = .next (readValue u a, afterRead u a (readValue u a)) := by
  simp only [memRead, ht, andThen_next, ha, if_true]

/-- One more byte overwritten. -/
theorem heldAt_snoc (r : Race) (raced : List Nat) (a x : Nat) (b : Byte) :
    ({ r with raced := raced, held := r.held ++ [(a, b)] } : Race).heldAt x = r.heldAt x ++ if a = x then [b] else [] := by
  by_cases h : a = x <;> simp [Race.heldAt, h]

/-- A read returns the byte there or one the address held during the command. -/
theorem readValue_mem (s : State) (a : Nat) : readValue s a ∈ memGet s.mem a :: s.race.heldAt a := by
  unfold readValue
  split
  · exact freePick_mem _ _ (List.cons_ne_nil _ _)
  · exact List.mem_cons_self

/-! ### UPDATE_RGB.GPIO alone (R106) -/

/-- UPDATE_RGB.GPIO from the answer of its clock request on (R106). -/
def gpioAnswered (a n : Nat) (ans : Answer) (s : State) : Out State :=
  match ans with
  | .fail e => complete .clockControlFailure e s
  | .ok => gpioTransmit a n s

theorem gpioRgb_eq (a n : Nat) (s : State) :
    gpioRgb a n s = andThen (layoutInplace a n (setPhase .layout (setState .transmitting s))) fun u =>
      andThen (clockRequest (setPhase .clkReq u)) fun x => gpioAnswered a n x.1 x.2 := rfl

/-- The clock released (R106). -/
theorem gpioRelease_ok_alone {s : State} (ho : Alone s) (hrel : (replyAt s 0).error = 0) :
    gpioRelease s = .next (finish .ok 0 (setPhase .done { emit (.clkRel .ok) (tookReply s) with clkReq := false })) := by
  unfold gpioRelease
  rw [clockRelease_alone ho, andThen_next, answerOfWord_eq_ok.mpr hrel]
  exact complete_alone (by exact ho)

section

variable {s : State} {a n : Nat} (hwf : cfgWf s.cfg = true) (hg : s.cfg.transport = .gpio) (ho : Alone s) (hr : s.race.raced = [])

include hwf hg ho hr

section

variable {ws : List Byte} (hlen : ws.length = stride s.cfg * n)
  (hws : ∀ j, j < ws.length → admitsRead s (a + j) = true ∧ memGet s.mem (a + j) = ws.getD j 0)

include hlen hws

/-- Steps 3 to 5 of UPDATE_RGB.GPIO with the wire stream `ws` in memory: mask, burst, unmask (R106). -/
theorem gpioTransmit_alone :
    ∃ g t0 draws, s.cycle ≤ t0 ∧ gpioTransmit a n s = gpioRelease { s with
      pin := if ws = [] then s.pin else .low
      irqMask := false
      clkReq := true
      cycle := if ws = [] then s.cycle else t0 + burstLength s.cfg ws.length
      draws := draws
      g := g
      trace := s.trace ++ [.mask true] ++ burstEvents ws a t0 ++ [.mask false] } := by
  obtain ⟨g, t0, draws, ht0, -, hb⟩ := burst_alone (s := setMask true { s with clkReq := true }) hwf hg ho hr hws
  refine ⟨g, t0, draws, ht0, ?_⟩
  unfold gpioTransmit
  rw [← hlen, hb]
  rfl

/-- Steps 3 to 6 with the clock released (R106). -/
theorem gpioTransmit_ok_alone (hrel : (replyAt s 0).error = 0) :
    ∃ g t0 draws, s.cycle ≤ t0 ∧ gpioTransmit a n s = .next { s with
      status := { s.status with result := .ok, state := .idle, detail := 0 }
      g := g
      pin := if ws = [] then s.pin else .low
      irqMask := false
      clkReq := false
      trace := s.trace ++ [.mask true] ++ burstEvents ws a t0 ++ [.mask false, .clkRel .ok, .done .ok 0]
      replies := s.replies.drop 1
      asked := s.asked + 1
      draws := draws
      cycle := if ws = [] then s.cycle else t0 + burstLength s.cfg ws.length
      race := .empty } := by
  obtain ⟨g, t0, draws, ht0, htr⟩ := gpioTransmit_alone hwf hg ho hr hlen hws
  rw [gpioRelease_ok_alone (by exact ho) (by exact hrel), finish_of_not_raced (by exact hr)] at htr
  refine ⟨{ g with phase := .done }, t0, draws, ht0, htr.trans ?_⟩
  simp [emit, tookReply, setPhase]

end

section

variable (hm : memWf s.mem = true) (ha : RecordsReadable s a n) (hw : BytesWritable s a (stride s.cfg * n))

include hm ha hw

/-- LAYOUT_INPLACE reads each record before it is overwritten (R84, R85). -/
theorem layoutInplace_alone : ∃ u, layoutInplace a n s = .next u ∧ LaidOut a n s u := by
  obtain ⟨held, h⟩ := layoutFrom_alone (k := n) (i := 0) hwf ho hr (fun j _ hj => ha j (by omega)) fun j _ hj b hb => by
    have hle := Nat.mul_le_mul_left (stride s.cfg) (show j + 1 ≤ n by omega)
    rw [Nat.mul_succ] at hle
    rw [Nat.add_assoc]
    exact hw _ (by omega)
  rw [layoutEventsFrom_eq hwf hg] at h
  exact ⟨_, h, rfl, hr, layoutMem_wireStreamLeft hwf hg hm hw.le_addressSpace⟩

/-- Alone, UPDATE_RGB.GPIO is the layout up to the answer of its clock request (R106). -/
theorem gpioRgb_alone :
    ∃ u, LaidOut a n (setPhase .layout (setState .transmitting s)) u ∧
      gpioRgb a n s = gpioAnswered a n (answerOfWord (replyAt s 0).error)
        (emit (.clkReq (answerOfWord (replyAt s 0).error)) (tookReply (setPhase .clkReq u))) := by
  obtain ⟨u, hu, hlaid⟩ := layoutInplace_alone (s := setPhase .layout (setState .transmitting s)) hwf hg ho hr hm ha hw
  have hou : u.others = [] := by rw [hlaid.same]; exact ho
  have hrep : replyAt (setPhase .clkReq u) 0 = replyAt s 0 := replyAt_congr (by rw [hlaid.same]; rfl) (by rw [hlaid.same]; rfl) 0
  refine ⟨u, hlaid, ?_⟩
  rw [gpioRgb_eq, hu, andThen_next, clockRequest_alone (by exact hou), andThen_next, hrep]

/-- UPDATE_RGB.GPIO with its clock granted and released (R106). -/
theorem gpioRgb_ok_alone (h0 : (replyAt s 0).error = 0) (h1 : (replyAt s 1).error = 0) :
    ∃ m g t0 draws, WireStreamLeft s.cfg a n s.mem m ∧ s.cycle ≤ t0 ∧ gpioRgb a n s = .next { s with
      status := { s.status with result := .ok, state := .idle, detail := 0 }
      g := g
      pin := if wireStream s.cfg s.mem a n = [] then s.pin else .low
      irqMask := false
      clkReq := false
      trace := s.trace ++ layoutEvents s.cfg s.mem a n ++ [.clkReq .ok, .mask true] ++
        burstEvents (wireStream s.cfg s.mem a n) a t0 ++ [.mask false, .clkRel .ok, .done .ok 0]
      mem := m
      replies := s.replies.drop 2
      asked := s.asked + 2
      draws := draws
      cycle := if wireStream s.cfg s.mem a n = [] then s.cycle else t0 + burstLength s.cfg (stride s.cfg * n)
      race := .empty } := by
  obtain ⟨u, hlaid, hrun⟩ := gpioRgb_alone hwf hg ho hr hm ha hw
  rw [answerOfWord_eq_ok.mpr h0] at hrun
  have hsame := hlaid.same
  have hrel : (replyAt u 1).error = 0 := by rw [hsame]; exact h1
  obtain ⟨g, t0, draws, ht0, htr⟩ := gpioTransmit_ok_alone (s := emit (.clkReq .ok) (tookReply (setPhase .clkReq u))) (n := n)
    (ws := wireStream s.cfg s.mem a n)
    (by rw [hsame]; exact hwf) (by rw [hsame]; exact hg) (by rw [hsame]; exact ho) hlaid.notRaced
    (by rw [wireStream_length, hsame]; rfl) (fun _ hj => hlaid.readable hw hj)
    ((congrArg Reply.error (replyAt_tookReply u 0)).trans hrel)
  refine ⟨u.mem, g, t0, draws, hlaid.mem, by rw [hsame] at ht0; exact ht0, hrun.trans (htr.trans ?_)⟩
  rw [hsame, wireStream_length]
  simp

end

end

/-- From the clock's answer on the command leaves host memory alone (R106, R112). -/
theorem gpioAnswered_keeps (lo hi a n : Nat) (ans : Answer) (s : State) :
    Sat (gpioAnswered a n ans s) (GpioKeeps lo hi s) fun _ => True := by
  cases ans with
  | fail e =>
    refine (complete_sat (lo := lo) (hi := hi) _ _ s).mono (fun t ht => ?_) fun _ h => h
    obtain ⟨u, hu, -, rfl⟩ := ht
    exact hu.toGpio.trans (finish_gpioKeeps lo hi _ _ u)
  | ok =>
    have hmask : ∀ (v clk : Bool) (u : State), GpioKeeps lo hi u (setMask v { u with clkReq := clk }) := fun v clk u =>
      ⟨Keeps.of_same rfl rfl rfl rfl rfl rfl rfl rfl rfl rfl rfl rfl rfl, rfl, rfl, rfl, rfl, fun _ _ _ => rfl⟩
    refine ((burst_sat (lo := lo) (hi := hi) _).mono (fun _ h => h) fun _ _ => trivial).bind fun u hu => ?_
    exact (gpioRelease_sat (lo := lo) (hi := hi) _).mono
      (fun t ht => (((hmask true true s).trans hu.toGpioKeeps).trans (hmask false u.clkReq u)).trans ht.1) fun _ h => h

/-- An UPDATE_RGB.GPIO that runs leaves the wire stream in memory, whatever the clock answers (R84, R179). -/
theorem updateRgbGpio_mem {s : State} (h : GpioRgbRuns s) (hm : memWf s.mem = true) :
    ∃ t, exec .updateRgbGpio s = .next t ∧ WireStreamLeft s.cfg (operandA s) (operandN s) s.mem t.mem := by
  obtain ⟨⟨hg, hready, hidle, hrange⟩, hwf, ho, hread, hwrite⟩ := h
  rw [show exec .updateRgbGpio s = _ from accept_of_takes hg hready hidle hrange]
  obtain ⟨u, ⟨hsame, hnr, hmem⟩, hrun⟩ := gpioRgb_alone (s := { s with race := .over (operandA s) (rgbRange s.cfg (operandN s)) })
    (a := operandA s) (n := operandN s) hwf hg ho rfl hm hread hwrite
  obtain ⟨_, _, -, hruns⟩ := gpioRgb_runs (s := { s with race := .over (operandA s) (rgbRange s.cfg (operandN s)) })
    (a := operandA s) (n := operandN s) hwf hread hwrite
  have ht := hruns.alone s.addr s.count s.loads
  rw [← show s.others = [] from ho] at ht
  refine ⟨_, ht, fun x => ?_⟩
  have hkeeps := (gpioAnswered_keeps 0 0 _ _ _ _).of_next (hrun.symm.trans ht)
  exact (hkeeps.mem ⟨by rw [hsame]; exact ho, hnr⟩ x (by omega)).trans (hmem x)

/-! ### An agent's moves between commands (R57, R178) -/

theorem step_op {s : State} {op : AgentOp} {rest : List ProgItem} (hw : wellConstructed s = true) (ho : Alone s)
    (hb : s.boot = .complete) (hp : s.program = .op op :: rest) : step s = agentOp exec op { s with program := rest } := by
  have hm : nextMove s = (.op op, { s with others := ageOthers s.others, program := rest }) := by
    simp only [nextMove, ho, hb, hp]
  rw [step_of_wellConstructed hw, hm, ageOthers_alone ho]
  rfl

theorem step_memLoad {s : State} {x : Word} {rest : List ProgItem} (hw : wellConstructed s = true) (ho : Alone s)
    (hb : s.boot = .complete) (hp : s.program = .op (.memLoad x) :: rest) (ha : admitsRead s x.toNat = true) :
    step s = .next { s with program := rest, hostReads := s.hostReads ++ [(x.toNat, memGet s.mem x.toNat)] } :=
  (step_op hw ho hb hp).trans (if_pos ha)

theorem step_memStore {s : State} {x : Word} {v : Byte} {rest : List ProgItem} (hw : wellConstructed s = true) (ho : Alone s)
    (hb : s.boot = .complete) (hp : s.program = .op (.memStore x v) :: rest) (ha : admitsWrite s x.toNat = true) :
    step s = .next { s with program := rest, mem := memPut s.mem x.toNat v } :=
  (step_op hw ho hb hp).trans (if_pos ha)

/-- The store of command word 1 at REG_BASE (R64, R80). -/
theorem decode_store_updateRgb (t : Transport) (base : Word) : decode t base (.bus (.store base (bytesOfWord 1))) = .ok (.wrCmd 1) := by
  simp only [decode, decodeAccess, BitVec.sub_self]
  rfl

/-- A program's store of word 1 to CMD on a GPIO instance is UPDATE_RGB.GPIO (R65, R144). -/
theorem step_updateRgbGpio {s : State} {rest : List ProgItem} (hw : wellConstructed s = true) (ho : Alone s)
    (hb : s.boot = .complete) (hg : s.cfg.transport = .gpio)
    (hp : s.program = .op (.present (.bus (.store s.cfg.regBase (bytesOfWord 1)))) :: rest) :
    step s = exec .updateRgbGpio { s with program := rest } := by
  rw [step_op hw ho hb hp]
  simp only [agentOp, decode_store_updateRgb, exec_wrCmd, hg]
  rfl

theorem wellConstructed_congr {s t : State} (hc : t.cfg = s.cfg) (hp : t.peers = s.peers) :
    wellConstructed t = wellConstructed s := by
  simp only [wellConstructed, handlesExclusive, hc, hp]

/-! ### Where the bytes of memory come from (R59, R60) -/

/-- Byte `b` at `x` is the one memory held in `s`, or a write in `new` put it there, or a store of the other agents of `s`. -/
def WrittenTo (s : State) (new : List Event) (x : Nat) (b : Byte) : Prop :=
  b = memGet s.mem x ∨ .memW x b ∈ new ∨ ∃ tm ∈ s.others, ∃ y : Word, y.toNat = x ∧ tm.op = .memStore y b

theorem WrittenTo.mono {s : State} {new new' : List Event} {x : Nat} {b : Byte} (h : WrittenTo s new x b) (hsub : new ⊆ new') :
    WrittenTo s new' x b :=
  h.imp_right fun h => h.imp_left fun h => hsub h

/-- Every byte of memory in `t`, and every byte overwritten during the command, is accounted for. -/
structure Accounted (s : State) (new : List Event) (t : State) : Prop where
  memOk : MemOk t
  nodup : t.race.raced.Nodup
  now : ∀ x, WrittenTo s new x (memGet t.mem x)
  held : ∀ x, ∀ b ∈ t.race.heldAt x, WrittenTo s new x b

section

variable {s t u : State} {new new' : List Event}

theorem Accounted.mono (h : Accounted s new t) (hsub : new ⊆ new') : Accounted s new' t :=
  { h with now := fun x => (h.now x).mono hsub, held := fun x b hb => (h.held x b hb).mono hsub }

theorem Accounted.congr (h : Accounted s new t) (hm : u.mem = t.mem) (hr : u.race = t.race) : Accounted s new u :=
  ⟨h.memOk.congr hm (by rw [hr]), by rw [hr]; exact h.nodup, by rw [hm]; exact h.now, by rw [hr]; exact h.held⟩

theorem Accounted.put (h : Accounted s new t) {a : Nat} {v : Byte} (hv : WrittenTo s new a v) (x : Nat) :
    WrittenTo s new x (memGet (memPut t.mem a v) x) := by
  rw [memGet_memPut h.memOk.1]
  split
  · next hx => rw [hx]; exact hv
  · exact h.now x

/-- A store that notes the byte it overwrites. -/
theorem Accounted.storeNoted (h : Accounted s new t) {a : Nat} {v : Byte} (hv : WrittenTo s new a v) (ha : a < addressSpace) :
    Accounted s new (storeNoted t a v) where
  memOk := ⟨memWf_memPut h.memOk.1 ha, h.memOk.2⟩
  nodup := h.nodup
  now := h.put hv
  held := fun x b hb => by
    rw [storeNoted_race, heldAt_snoc, List.mem_append] at hb
    rcases hb with hb | hb
    · exact h.held x b hb
    · split at hb
      · next hx => rw [List.mem_singleton.mp hb, ← hx]; exact h.now a
      · cases hb

/-- Another agent's store (R59). -/
theorem Accounted.agentStored (h : Accounted s new t) {a : Nat} {v : Byte} (hv : WrittenTo s new a v) (ha : a < addressSpace) :
    Accounted s new (agentStored t a v) := by
  unfold Machine.agentStored
  split
  · refine Accounted.storeNoted (t := { t with race := { t.race with raced := t.race.raced.insert a } })
      ⟨⟨h.memOk.1, fun b hb => ?_⟩, h.nodup.insert, h.now, h.held⟩ hv ha
    rcases List.mem_insert_iff.mp hb with rfl | hb
    · exact ha
    · exact h.memOk.2 b hb
  · exact ⟨⟨memWf_memPut h.memOk.1 ha, h.memOk.2⟩, h.nodup, h.put hv, h.held⟩

theorem Accounted.duringOp (h : Accounted s new t) {op : AgentOp} (hop : ∃ tm ∈ s.others, tm.op = op)
    (hn : duringOp op t = .next u) : Accounted s new u := by
  cases op with
  | present code =>
    simp only [Machine.duringOp] at hn
    split at hn
    · obtain ⟨-, hm, hr⟩ := duringInstr_next hn
      exact h.congr hm hr
    · cases hn
  | memLoad a =>
    simp only [Machine.duringOp] at hn
    split at hn
    · obtain ⟨-, hm, hr⟩ := agentLoaded_spec t a.toNat
      cases hn
      exact h.congr hm hr
    · cases hn
  | memStore a v =>
    simp only [Machine.duringOp] at hn
    split at hn
    · next ha =>
      obtain ⟨tm, htm, hop⟩ := hop
      cases hn
      exact h.agentStored (.inr (.inr ⟨tm, htm, a, rfl, hop⟩)) (admitsWrite_lt ha)
    · cases hn
  | remap rs => cases hn; exact h.congr rfl rfl

theorem Accounted.runDue : ∀ {ops : List Timed} {t : State}, Accounted s new t →
    (∀ tm ∈ ops, ∃ tm' ∈ s.others, tm'.op = tm.op) →
    runDue ops t = .next u → Accounted s new u
  | [], _, h, _, hn => by cases hn; exact h.congr rfl rfl
  | ⟨0, op⟩ :: rest, _, h, hops, hn => by
    obtain ⟨t', h1, h2⟩ := andThen_eq_next hn
    exact (h.duringOp (hops _ List.mem_cons_self) h1).runDue (fun tm htm => hops tm (List.mem_cons_of_mem _ htm)) h2
  | ⟨d + 1, op⟩ :: rest, _, h, _, hn => by cases hn; exact h.congr rfl rfl

theorem tick_trace (h : tick s = .next t) : t.trace = s.trace := by
  have hf := (tick_next h).1.fields
  simp only [hf]

/-- What the other agents have still to do they had to do before. -/
theorem Acted.op_mem (h : Acted s t) {tm : Timed} (htm : tm ∈ t.others) : ∃ tm' ∈ s.others, tm'.op = tm.op := by
  obtain ⟨-, done, hops, -⟩ := h
  rw [← List.mem_map, hops]
  exact List.mem_append_right _ (List.mem_map_of_mem htm)

/-- Along the course of a command every byte is accounted for. -/
theorem Course.accounted {P : EngineState → Prop} {a n : Nat} (hm : memWf s.mem = true)
    (h : Course P { s with race := .over a n } t) : ∃ new, t.trace = s.trace ++ new ∧ Accounted s new t := by
  induction h with
  | refl => exact ⟨[], by simp, ⟨hm, by simp [Race.over]⟩, List.nodup_nil, fun _ => .inl rfl, fun _ _ hb => by cases hb⟩
  | tick hc _ ht ih =>
    obtain ⟨new, htr, hacc⟩ := ih
    exact ⟨new, (tick_trace ht).trans htr, hacc.runDue (fun _ htm => hc.acted.op_mem htm) ht⟩
  | block _ hb ih =>
    obtain ⟨new, htr, hacc⟩ := ih
    obtain ⟨new', htr'⟩ := hb.2
    exact ⟨new ++ new', by rw [← htr', htr, List.append_assoc],
      (hacc.mono (List.subset_append_left ..)).congr (by rw [hb.1]) (by rw [hb.1])⟩
  | @write t a v _ ha ih =>
    obtain ⟨new, htr, hacc⟩ := ih
    refine ⟨new ++ [.memW a v], by rw [emit_trace, storeNoted_trace, htr, List.append_assoc], ?_⟩
    exact ((hacc.mono (List.subset_append_left ..)).storeNoted (.inr (.inl (by simp))) (admitsWrite_lt ha)).congr rfl rfl

/-- A free pick is one of the bytes, or the other one where there are none. -/
theorem freePick_mem_cons (k : Nat) (bs : List Byte) (o : Byte) : freePick k bs o ∈ o :: bs := by
  rcases eq_or_ne bs [] with rfl | h
  · simp [freePick]
  · exact List.mem_cons_of_mem _ (freePick_mem k o h)

/-- Settling the races picks among bytes that are accounted for. -/
theorem Accounted.settleMem (h : Accounted s new t) (k x : Nat) :
    WrittenTo s new x (memGet (settleMem t.race t.race.raced k t.mem) x) := by
  by_cases hx : x ∈ t.race.raced
  · obtain ⟨j, hj⟩ := memGet_settleMem_mem (r := t.race) (k := k) h.memOk.1 h.memOk.2 h.nodup hx
    rw [hj]
    rcases List.mem_cons.mp (freePick_mem_cons j (t.race.written t.mem x) (memGet t.mem x)) with hb | hb
    · rw [hb]; exact h.now x
    · rcases List.mem_append.mp (List.mem_of_mem_drop hb) with hb | hb
      · exact h.held x _ hb
      · rw [List.mem_singleton.mp hb]; exact h.now x
  · rw [memGet_settleMem_ne hx]
    exact h.now x

/-- Every byte a completed command leaves is accounted for (R60, R177). -/
theorem exec_writtenTo {i : Instr} (hi : IsCommand i) (hm : memWf s.mem = true) (h : exec i s = .next t) :
    ∃ new, t.trace = s.trace ++ new ∧ ∀ x, WrittenTo s new x (memGet t.mem x) := by
  obtain ⟨a, n, u, r, d, hc, rfl⟩ := exec_course hi h
  obtain ⟨new, htr, hacc⟩ := hc.accounted hm
  refine ⟨new ++ [.done r (d.truncate 16)], by rw [finish_trace, htr, List.append_assoc], fun x => ?_⟩
  exact (hacc.settleMem u.draws x).mono (List.subset_append_left ..)

end

/-! ### Two stores of other agents to one byte of a running command (R60, R177) -/

/-- How far two stores of other agents to `x`, of `v` and then of `w`, have come in `t` since a command was accepted in `s`: the last
of them comes at the `j`-th micro-step from now, or both have been made. -/
inductive TwoStores (s : State) (x : Word) (v w : Byte) (t : State) : Nat → Prop
  | both (d e : Nat) (others : t.others = [⟨d, .memStore x v⟩, ⟨e, .memStore x w⟩]) (mem : t.mem = s.mem)
      (raced : t.race.raced = []) (held : t.race.held = []) : TwoStores s x v w t (d + e + 1)
  | second (e : Nat) (others : t.others = [⟨e, .memStore x w⟩]) (mem : t.mem = memPut s.mem x.toNat v)
      (raced : t.race.raced = [x.toNat]) (held : t.race.held = [(x.toNat, memGet s.mem x.toNat)]) : TwoStores s x v w t (e + 1)
  | made (others : t.others = []) (mem : t.mem = memPut (memPut s.mem x.toNat v) x.toNat w) (raced : t.race.raced = [x.toNat])
      (held : t.race.held = [(x.toNat, memGet s.mem x.toNat), (x.toNat, memGet (memPut s.mem x.toNat v) x.toNat)]) :
      TwoStores s x v w t 0

/-- The same, on the way of a command that leaves CFG and the admission alone and has `x` in its range. -/
structure Racing (s : State) (x : Word) (v w : Byte) (j : Nat) (t : State) : Prop where
  cfg : t.cfg = s.cfg
  regions : t.regions = s.regions
  covers : t.race.covers x.toNat = true
  stores : TwoStores s x v w t j

/-- `o` answers, and `Q` holds of what it answers. -/
def Yields {σ : Type} (o : Out σ) (Q : σ → Prop) : Prop := ∃ y, o = .next y ∧ Q y

theorem Yields.next {σ : Type} {y : σ} {Q : σ → Prop} (h : Q y) : Yields (.next y) Q := ⟨y, rfl, h⟩

theorem Yields.bind {σ τ : Type} {o : Out σ} {f : σ → Out τ} {Q' : σ → Prop} {Q : τ → Prop} (h : Yields o Q')
    (hf : ∀ y, Q' y → Yields (f y) Q) : Yields (andThen o f) Q := by
  obtain ⟨y, rfl, hy⟩ := h
  exact hf y hy

section

variable {s t : State} {x : Word} {v w : Byte} {j : Nat}

theorem TwoStores.congr {u : State} (h : TwoStores s x v w t j) (ho : u.others = t.others) (hm : u.mem = t.mem)
    (hr : u.race = t.race) : TwoStores s x v w u j := by
  cases h with
  | both d e h1 h2 h3 h4 => exact .both d e (ho.trans h1) (hm.trans h2) (by rw [hr, h3]) (by rw [hr, h4])
  | second e h1 h2 h3 h4 => exact .second e (ho.trans h1) (hm.trans h2) (by rw [hr, h3]) (by rw [hr, h4])
  | made h1 h2 h3 h4 => exact .made (ho.trans h1) (hm.trans h2) (by rw [hr, h3]) (by rw [hr, h4])

theorem Racing.block {u : State} (h : Racing s x v w j t) (hb : BlockOnly t u) : Racing s x v w j u := by
  obtain ⟨hcfg, hregions, hcovers, hstores⟩ := h
  rw [hb.1]
  exact ⟨hcfg, hregions, hcovers, hstores.congr rfl rfl rfl⟩

theorem Racing.read (h : Racing s x v w j t) (a : Nat) : admitsRead t a = admitsRead s a := admitsRead_congr h.cfg h.regions a

theorem BlockOnly.afterRead (s : State) (a : Nat) (b : Byte) : BlockOnly s (afterRead s a b) := by
  refine .event (.memR a b) (afterRead_trace ..) ?_
  unfold Machine.afterRead drew emit
  split <;> rfl

section

variable (hw : admitsWrite s x.toNat = true)

include hw

/-- With the first store made, the second is made now or comes one micro-step nearer. -/
theorem runDue_second {e : Nat} (hcfg : t.cfg = s.cfg) (hregions : t.regions = s.regions)
    (hcovers : t.race.covers x.toNat = true) (hm : t.mem = memPut s.mem x.toNat v) (hr : t.race.raced = [x.toNat])
    (hh : t.race.held = [(x.toNat, memGet s.mem x.toNat)]) :
    Yields (runDue [⟨e, .memStore x w⟩] t) (Racing s x v w e) := by
  cases e with
  | zero =>
    refine Yields.bind ⟨_, duringOp_memStore_raced w ((admitsWrite_congr hcfg hregions _).trans hw) hcovers, rfl⟩ fun _ hu => ?_
    subst hu
    refine .next ⟨hcfg, hregions, hcovers, .made rfl ?_ ?_ ?_⟩
    · rw [← hm]; rfl
    · simp [hr]
    · simp [hh, hm]
  | succ e => exact .next ⟨hcfg, hregions, hcovers, .second e rfl hm hr hh⟩

theorem Racing.tick (h : Racing s x v w j t) : Yields (tick t) (Racing s x v w (j - 1)) := by
  obtain ⟨hcfg, hregions, hcovers, hstores⟩ := h
  unfold Machine.tick
  cases hstores with
  | both d e ho hm hr hh =>
    rw [ho]
    cases d with
    | zero =>
      refine Yields.bind ⟨_, duringOp_memStore_raced v ((admitsWrite_congr hcfg hregions _).trans hw) hcovers, rfl⟩ fun _ hu => ?_
      subst hu
      rw [Nat.add_sub_cancel, Nat.zero_add]
      exact runDue_second hw hcfg hregions hcovers (by simp [hm]) (by simp [hr]) (by simp [hh, hm])
    | succ d =>
      refine .next ⟨hcfg, hregions, hcovers, ?_⟩
      rw [Nat.add_sub_cancel, Nat.add_right_comm]
      exact .both d e rfl hm hr hh
  | second e ho hm hr hh => rw [ho]; exact runDue_second hw hcfg hregions hcovers hm hr hh
  | made ho hm hr hh => rw [ho]; exact .next ⟨hcfg, hregions, hcovers, .made rfl hm hr hh⟩

/-- A micro-step after which the block changes its own state only. -/
theorem Racing.ticked {τ : Type} {f : State → Out τ} {p : τ → State} (h : Racing s x v w j t)
    (hf : ∀ u, Racing s x v w (j - 1) u → Yields (f u) fun y => BlockOnly u (p y)) :
    Yields (andThen (Machine.tick t) f) fun y => Racing s x v w (j - 1) (p y) :=
  (h.tick hw).bind fun _ hu => (hf _ hu).imp fun _ ⟨hy, hb⟩ => ⟨hy, hu.block hb⟩

theorem Racing.memRead {a : Nat} (h : Racing s x v w j t) (ha : admitsRead s a = true) :
    Yields (memRead a t) fun y => Racing s x v w (j - 1) y.2 :=
  h.ticked hw fun _ hu => ⟨_, if_pos ((hu.read a).trans ha), .afterRead ..⟩

theorem Racing.enterState {st : EngineState} (h : Racing s x v w j t) :
    Yields (enterState st t) fun y => Racing s x v w (j - 1) y :=
  h.ticked (p := id) hw fun _ _ => .next .quiet

theorem Racing.busWrite {kind : BusKind} {bytes : List Byte} (h : Racing s x v w j t) :
    Yields (busWrite kind bytes t) fun y => Racing s x v w (j - 1) y.2 :=
  h.ticked hw fun _ _ => .next (.event _)

theorem Racing.readPixel {a i : Nat} (h : Racing s x v w j t)
    (ha : ∀ k, k < 3 → admitsRead s (recordAddr s.cfg a i k) = true) :
    Yields (readPixel a i t) fun y => Racing s x v w (j - 3) y.2 := by
  unfold Machine.readPixel
  rw [h.cfg]
  exact (h.memRead hw (ha 0 (by omega))).bind fun _ h => (h.memRead hw (ha 1 (by omega))).bind fun _ h =>
    (h.memRead hw (ha 2 (by omega))).bind fun _ h => .next h

theorem Racing.encodeFrom {a : Nat} : ∀ {k i j : Nat} {t : State}, Racing s x v w j t →
    (∀ m, m < i + k → ∀ b, b < 3 → admitsRead s (recordAddr s.cfg a m b) = true) →
    Yields (encodeFrom a i k t) fun y => Racing s x v w (j - 3 * k) y := by
  intro k
  induction k with
  | zero => exact fun h _ => .next h
  | succ k ih =>
    intro i j t h ha
    refine Yields.bind (Q' := Racing s x v w (j - 3)) ?_ fun u hu => ?_
    · have h0 : Racing s x v w j { t with sI := i } := h.block .quiet
      exact (h0.readPixel hw (ha i (by omega))).bind fun y hy => .next (hy.block .quiet)
    · have := ih (i := i + 1) hu fun m hm => ha m (by omega)
      rwa [Nat.sub_sub, Nat.add_comm 3] at this

theorem Racing.dataThenLatch {bytes : List Byte} (h : Racing s x v w j t) :
    Yields (dataThenLatch bytes t) fun y => Racing s x v w (j - 4) y.2 :=
  (h.enterState hw).bind fun _ h => (h.busWrite hw).bind fun _ h =>
    Yields.bind ((h.enterState hw).bind fun _ h => h.busWrite hw) fun _ h => .next h

/-- UPDATE_RGB.SPI makes 3n + 5 micro-steps before `finish`: both stores are made by then (R118, assumption log 7). -/
theorem Racing.spiRgb {a n : Nat} (h : Racing s x v w j t) (hj : j ≤ 3 * n + 5)
    (hn : n ≤ s.cfg.maxPixels.toNat) (ha : RecordsReadable s a n) :
    Yields (spiRgb a n t) fun y => ∃ u r d, Racing s x v w 0 u ∧ y = finish r d u := by
  unfold Machine.spiRgb
  rw [h.cfg, if_neg (Nat.not_lt.mpr hn)]
  have h0 : Racing s x v w j { setState .encoding t with sI := 0 } := h.block .quiet
  refine (h0.encodeFrom hw (k := n) fun m hm => ha m (by omega)).bind fun u hu => ?_
  refine (hu.dataThenLatch hw).bind fun y hy => (hy.tick hw).bind fun u hu => .next ⟨u, _, _, ?_, rfl⟩
  rwa [show j - 3 * n - 4 - 1 = 0 by omega] at hu

end

/-- What `finish` leaves where both stores were made: one of the two bytes, and every other byte as it was (R60, R177). -/
theorem Racing.finish {r : ResultCode} {d : Word} (hm : memWf s.mem = true) (hx : x.toNat < addressSpace)
    (h : Racing s x v w 0 t) : (memGet (finish r d t).mem x.toNat = v ∨ memGet (finish r d t).mem x.toNat = w) ∧
      ∀ y, y ≠ x.toNat → memGet (finish r d t).mem y = memGet s.mem y := by
  obtain ⟨-, -, -, hstores⟩ := h
  generalize hj : 0 = j at hstores
  cases hstores with
  | both => cases hj
  | second => cases hj
  | made ho hmem hr hh =>
    have hwf := memWf_memPut (v := v) hm hx
    have hwritten : t.race.written t.mem x.toNat = [v, w] := by
      simp [Race.written, Race.heldAt, hh, hmem, memGet_memPut hm, memGet_memPut hwf]
    have hfin : (Machine.finish r d t).mem = settleMem t.race [x.toNat] t.draws t.mem := by rw [← hr]; rfl
    rw [hfin]
    refine ⟨?_, fun y hy => ?_⟩
    · obtain ⟨k, hk⟩ := memGet_settleMem_mem (r := t.race) (as := [x.toNat]) (k := t.draws) (m := t.mem)
        (by rw [hmem]; exact memWf_memPut hwf hx) (by simpa using hx) (List.nodup_singleton _) List.mem_cons_self
      rw [hk, hwritten]
      exact List.mem_pair.mp (freePick_mem k _ (List.cons_ne_nil _ _))
    · rw [memGet_settleMem_ne (by simpa using hy), hmem, memGet_memPut_ne _ _ hy, memGet_memPut_ne _ _ hy]

end

end Sys2Proof.Machine

namespace Sys2Proof.Proofs

open Sys2Proof.Machine

/-- Settles O25. -/
theorem frameGroupOfWireByte : Obligations.FrameGroupOfWireByte :=
  fun c ws _ _ hm hk => ⟨(serAll_getElem? c ws hm hk).trans (ser_getElem? c _ hk), serAll_length c ws⟩

/-- Settles O27: the layout alone reads each record before it is overwritten. -/
theorem layoutInPlaceLeavesTheWireStream : Obligations.LayoutInPlaceLeavesTheWireStream := by
  intro s a n hwf hg hm ho hr ha hw
  obtain ⟨u, hu, hlaid⟩ := layoutInplace_alone hwf hg ho hr hm ha hw
  exact ⟨u, hu, hlaid.mem, by rw [hlaid.same]⟩

/-- Settles O34. -/
theorem gpioCommandFrame : Obligations.GpioCommandFrame := by
  intro s t hwf ho
  refine ⟨fun h => ?_, fun h => ?_⟩
  · have hd := updateRgbGpio_gpioDone hwf h
    have hq := quiet_accepted ho (operandA s) (rgbRange s.cfg (operandN s))
    obtain ⟨-, haddr, hcount, hloads, hreads, hregions⟩ := hd.alone hq
    exact ⟨hd.mem hq, hd.cfg, haddr, hcount, hd.stage, hd.chbuf, hd.sI, hd.sJ, hd.ready, hloads, hreads, hregions⟩
  · obtain rfl := updateChannelsGpio_next h
    rw [finish_of_not_raced (by rfl)]
    exact ⟨rfl, rfl, rfl, rfl, rfl, rfl, rfl, rfl, rfl, rfl, rfl, rfl, rfl, rfl, rfl, rfl⟩

/-- Settles O44: both commands keep what `SpiKeeps` says, and each the buffer and the counter of the other. -/
theorem spiCommandFrame : Obligations.SpiCommandFrame := by
  intro i s t hi ho h
  obtain ⟨a, n, hk, hown⟩ : ∃ a n, SpiKeeps { s with race := .over a n } t ∧
      (i = .updateRgbSpi → t.chbuf = s.chbuf ∧ t.sJ = s.sJ) ∧ (i = .updateChannelsSpi → t.stage = s.stage ∧ t.sI = s.sI) := by
    rcases hi with rfl | rfl
    · obtain ⟨hk, hown⟩ := updateRgbSpi_keeps h
      exact ⟨_, _, hk, fun _ => hown, nofun⟩
    · obtain ⟨hk, hown⟩ := updateChannelsSpi_keeps h
      exact ⟨_, _, hk, nofun, fun _ => hown⟩
  have hq := quiet_accepted ho a n
  obtain ⟨-, haddr, hcount, hloads, hreads, hregions⟩ := hk.alone hq
  exact ⟨hk.mem hq, hk.pin, hk.irqMask, hk.clkReq, hk.g, haddr, hcount, hk.cfg, hk.ready, hloads, hreads, hregions, hown⟩

/-- Settles O50: the read picks among the byte stored and the one byte the address held before. -/
theorem racyReadReturnsAWrittenByte : Obligations.RacyReadReturnsAWrittenByte := by
  intro s lo len a v hm hrace hlo hhi hread hwrite
  refine ⟨fun ho => ?_, fun ho => ?_⟩
  · have ht := tick_memStore_raced hwrite (by simp [hrace, Race.over, Race.covers, hlo, hhi]) ho
    have hmem : memGet (memPut s.mem a.toNat v) a.toNat = v := by rw [memGet_memPut hm, if_pos rfl]
    refine ⟨_, _, memRead_of_tick ht hread, ?_, ?_, ?_⟩
    · have hheld : (storeRaced s a.toNat v).race.heldAt a.toNat = [memGet s.mem a.toNat] := by
        rw [storeRaced_race, heldAt_snoc, if_pos rfl, hrace]; rfl
      have hb := readValue_mem { storeRaced s a.toNat v with others := [] } a.toNat
      rw [storeRaced_mem, hmem, hheld, List.mem_pair] at hb
      exact hb.symm
    · rw [afterRead_mem]; exact hmem
    · rw [afterRead_trace]; rfl
  · exact ⟨_, memRead_alone ho (by rw [hrace]; rfl) hread, rfl, rfl⟩

/-- Settles O31: the layout, the burst of the wire stream it left, and the release, one after the other. -/
theorem gpioRgbSendsTheWireStream : Obligations.GpioRgbSendsTheWireStream := by
  intro s ⟨⟨hg, hready, hidle, hrange⟩, hwf, ho, hread, hwrite⟩ hm h0 h1
  rw [show exec .updateRgbGpio s = _ from accept_of_takes hg hready hidle hrange]
  obtain ⟨m, g, t0, draws, hmem, ht0, hrun⟩ := gpioRgb_ok_alone
    (s := { s with race := .over (operandA s) (rgbRange s.cfg (operandN s)) }) (a := operandA s) (n := operandN s)
    hwf hg ho rfl hm hread hwrite h0 h1
  refine ⟨_, t0, hrun, ht0, by simp [hready], rfl, hmem, ?_, rfl, rfl, fun hn => ?_, rfl, rfl, rfl, rfl, rfl, rfl, rfl, rfl, rfl, rfl,
    rfl⟩
  · simp only [wireStream_eq_nil_iff]
  · exact if_neg (mt (wireStream_eq_nil_iff ..).mp hn.ne')

/-- Settles O52: a completed UPDATE_RGB.GPIO leaves the machine as a load finds it: the admission, the program and the wire stream. -/
theorem hostAgentSeesMemoryBetweenCommands : Obligations.HostAgentSeesMemoryBetweenCommands := by
  intro s x rest hw ho hb hm
  refine ⟨step_memLoad hw ho hb, fun v hp ha => ⟨_, step_memStore hw ho hb hp ha, rfl, ?_, fun y hy => memGet_memPut_ne _ _ hy⟩,
    fun hp hruns hlo hhi => ?_⟩
  · rw [memGet_memPut hm, if_pos rfl]
  · obtain ⟨t, ht, hmem⟩ := updateRgbGpio_mem (s := { s with program := .op (.memLoad x) :: rest }) hruns hm
    have hd := updateRgbGpio_gpioDone (by exact hruns.2.1) ht
    obtain ⟨hq, -, -, -, hreads, hregions⟩ := hd.alone (quiet_accepted ho ..)
    have hx : admitsRead t x.toNat = true := by
      rw [← admitsRead_of_admitsWrite (hruns.2.2.2.2 (x.toNat - operandA s) (by omega)), Nat.add_sub_of_le hlo]
      exact admitsRead_congr hd.cfg hregions _
    refine ⟨t, _, (step_updateRgbGpio hw ho hb hruns.1.1 hp).trans ht, step_memLoad
      ((wellConstructed_congr hd.cfg hd.peers).trans hw) hq.1 (hd.boot.trans hb) hd.program hx, ?_⟩
    rw [hreads, hmem, if_pos ⟨hlo, hhi⟩]
    rfl



/-- Settles O51: along a command's course every byte, and every byte overwritten, is accounted for, and settling picks among these; two
stores that come within the 3n + 5 micro-steps of an UPDATE_RGB.SPI are both made, and are all that was written to their byte. -/
theorem racedByteEndsWithAWrittenByte : Obligations.RacedByteEndsWithAWrittenByte := by
  refine ⟨fun i s t hi hm h => exec_writtenTo hi hm h, ?_⟩
  rintro s x v w d e ⟨⟨hg, hready, hidle, hrange⟩, -, hcap, hread⟩ hm hlo hhi hw ho hde
  rw [show exec .updateRgbSpi s = _ from accept_of_takes hg hready hidle hrange]
  have hstart : Racing s x v w (d + e + 1)
      { s with race := .over (operandA s) (rgbRange s.cfg (operandN s)) } :=
    ⟨rfl, rfl, by simp [Race.over, Race.covers, hlo, hhi], .both d e ho rfl rfl rfl⟩
  obtain ⟨_, ht, u, r, dt, hu, rfl⟩ := hstart.spiRgb (a := operandA s) (n := operandN s) hw (by omega) hcap hread
  exact ⟨_, ht, hu.finish hm (admitsWrite_lt hw)⟩

end Sys2Proof.Proofs
end

section
/-! PROOFS. The statements of the family of 30_encoding.md: the codes and what they decode to, the step of a decoded instruction, the
refusals of the command rows, the placement of a channel in the wire stream, and the latched operands of a running command. -/

namespace Sys2Proof

/-! ### The bytes of a word (R49, R80) -/

@[simp] theorem bytesOfWord_length (v : Word) : (bytesOfWord v).length = 4 := rfl

theorem wordOfBytes_bytesOfWord (v : Word) : wordOfBytes (bytesOfWord v) = v := by
  show v.extractLsb' 24 8 ++ v.extractLsb' 16 8 ++ v.extractLsb' 8 8 ++ v.extractLsb' 0 8 = v
  rw [BitVec.extractLsb'_append_extractLsb'_eq_extractLsb' (show 24 = 16 + 8 from rfl),
    BitVec.extractLsb'_append_extractLsb'_eq_extractLsb' (show 16 = 8 + 8 from rfl),
    BitVec.extractLsb'_append_extractLsb'_eq_extractLsb' (show 8 = 0 + 8 from rfl)]
  exact BitVec.extractLsb'_eq_self

theorem bytesOfWord_wordOfBytes {data : List Byte} (h : data.length = 4) : bytesOfWord (wordOfBytes data) = data := by
  obtain ⟨b0, b1, b2, b3, rfl⟩ : ∃ b0 b1 b2 b3, data = [b0, b1, b2, b3] := List.length_eq_four.mp h
  show [(b3 ++ b2 ++ b1 ++ b0).extractLsb' 0 8, (b3 ++ b2 ++ b1 ++ b0).extractLsb' 8 8, (b3 ++ b2 ++ b1 ++ b0).extractLsb' 16 8,
    (b3 ++ b2 ++ b1 ++ b0).extractLsb' 24 8] = _
  simp only [BitVec.extractLsb'_append_eq_of_le, Nat.le_refl, Nat.reduceLeDiff, Nat.reduceSub, Nat.sub_self,
    BitVec.extractLsb'_append_eq_right, BitVec.extractLsb'_eq_self]

/-! ### The accesses of the window (R24, R141) -/

/-- The register at word offset `k` has byte offset 4k (R24). -/
theorem offset_of_regOfIndex {k : Nat} {r : Reg} (h : regOfIndex k = some r) : r.offset.toNat = 4 * k := by
  unfold regOfIndex at h
  split at h <;> cases h <;> rfl

theorem checkAccess_offset (r : Reg) : checkAccess r.offset 4 = .ok r := by cases r <;> rfl

/-- `check_access` admits the accesses of 4 bytes at a register's offset, and no others (R141). -/
theorem checkAccess_eq_ok_iff {off : Word} {w : Nat} {r : Reg} : checkAccess off w = .ok r ↔ w = 4 ∧ off = r.offset := by
  refine ⟨fun h => ?_, fun ⟨hw, ho⟩ => by rw [hw, ho, checkAccess_offset]⟩
  unfold checkAccess at h
  split_ifs at h with hw ha
  split at h
  · next hr =>
    cases h
    have := offset_of_regOfIndex hr
    exact ⟨not_not.mp hw, BitVec.eq_of_toNat_eq (by omega)⟩
  · cases h

/-! ### Decoding (R63 to R66, R80) -/

theorem decode_load (t : Transport) (base : Word) (r : Reg) : decode t base (.bus (.load (base + r.offset) 4)) = .ok (.rd r) := by
  simp only [decode, decodeAccess, Laws.CodeShape.offset_of_addr, checkAccess_offset]

theorem decode_store (t : Transport) (base : Word) (r : Reg) (v : Word) :
    decode t base (.bus (.store (base + r.offset) (bytesOfWord v))) = .ok (storeInstr r v) := by
  simp only [decode, decodeAccess, Laws.CodeShape.offset_of_addr, bytesOfWord_length, checkAccess_offset, wordOfBytes_bytesOfWord]

/-- What decodes to a load is RD of a register at that register's address (R140). -/
theorem decode_load_eq_ok {t : Transport} {base a : Word} {w : Nat} {i : Instr} (h : decode t base (.bus (.load a w)) = .ok i) :
    ∃ r : Reg, i = .rd r ∧ w = 4 ∧ a = base + r.offset := by
  simp only [decode, decodeAccess] at h
  split at h
  · next r hr =>
    obtain ⟨hw, ho⟩ := checkAccess_eq_ok_iff.mp hr
    exact ⟨r, (Except.ok.inj h).symm, hw, by rw [← ho]; bv_omega⟩
  · cases h

/-- And a store the store of a word to a register at that register's address (R142 to R144). -/
theorem decode_store_eq_ok {t : Transport} {base a : Word} {data : List Byte} {i : Instr}
    (h : decode t base (.bus (.store a data)) = .ok i) :
    ∃ (r : Reg) (v : Word), i = storeInstr r v ∧ data = bytesOfWord v ∧ a = base + r.offset := by
  simp only [decode, decodeAccess] at h
  split at h
  · next r hr =>
    obtain ⟨hl, ho⟩ := checkAccess_eq_ok_iff.mp hr
    exact ⟨r, wordOfBytes data, (Except.ok.inj h).symm, (bytesOfWord_wordOfBytes hl).symm, by rw [← ho]; bv_omega⟩
  · cases h

theorem storeInstr_of_readOnly {r : Reg} (h : r.readOnly = true) (v : Word) : storeInstr r v = .wrRo r v := by
  cases r with
  | cmd | addr | count => cases h
  | _ => rfl

theorem storeInstr_wf (t : Transport) (r : Reg) (v : Word) : (storeInstr r v).wf t = true := by cases r <;> rfl

theorem encode_storeInstr (base : Word) (r : Reg) (v : Word) :
    encode base (storeInstr r v) = .bus (.store (base + r.offset) (bytesOfWord v)) := by cases r <;> rfl

theorem decodeCmd_wf (t : Transport) (c : Word) : (decodeCmd t c).wf t = true := by
  by_cases hc : reservedWord c = true
  · rw [Machine.decodeCmd_of_reserved hc]; exact hc
  · rcases Machine.not_reservedWord_iff.mp hc with rfl | rfl <;> cases t <;> rfl

theorem encode_decodeCmd (t : Transport) (base c : Word) : encode base (decodeCmd t c) = .cmd c := by
  by_cases hc : reservedWord c = true
  · rw [Machine.decodeCmd_of_reserved hc]; rfl
  · rcases Machine.not_reservedWord_iff.mp hc with rfl | rfl <;> cases t <;> rfl

/-- The code of a well-formed instruction decodes to it: a command row's on its own transport (R63 to R65), RESERVED_CMD's for a reserved
word (R66), and an access's at its register (R80). -/
theorem decode_encode {t : Transport} (base : Word) {i : Instr} (h : i.wf t = true) : decode t base (encode base i) = .ok i := by
  cases i with
  | updateRgbGpio | updateChannelsGpio =>
    obtain rfl : t = .gpio := eq_of_beq h
    rfl
  | updateRgbSpi | updateChannelsSpi =>
    obtain rfl : t = .spi := eq_of_beq h
    rfl
  | reservedCmd c => exact congrArg Except.ok (Machine.decodeCmd_of_reserved h t)
  | rd r => exact decode_load t base r
  | wrAddr v => exact decode_store t base .addr v
  | wrCount v => exact decode_store t base .count v
  | wrRo r v => exact (decode_store t base r v).trans (congrArg Except.ok (storeInstr_of_readOnly h v))
  | wrCmd c => exact decode_store t base .cmd c

end Sys2Proof

namespace Sys2Proof.Machine

/-! ### The step of the program's next access (R78, R80, R144) -/

/-- With no other agent due and init run, the next move is the program's next operation, the other agents one step nearer. -/
theorem step_op_of_not_due {s : State} {op : AgentOp} {rest : List ProgItem} (hw : wellConstructed s = true)
    (ho : ∀ tm ∈ s.others.head?, 0 < tm.delay) (hb : s.boot = .complete) (hp : s.program = .op op :: rest) :
    step s = agentOp exec op { s with program := rest, others := ageOthers s.others } := by
  have hm : nextMove s = (.op op, { s with others := ageOthers s.others, program := rest }) := by
    match hs : s.others with
    | [] => simp only [nextMove, hs, hb, hp]
    | ⟨0, _⟩ :: _ => rw [hs] at ho; exact absurd (ho _ rfl) (lt_irrefl 0)
    | ⟨_ + 1, _⟩ :: _ => simp only [nextMove, hs, hb, hp]
  rw [step_of_wellConstructed hw, hm]
  rfl

/-! ### Acceptance refuses by name (R65, R144, R145) -/

section

variable {t : Transport} {len : Nat → Nat} {s : State} {run : Nat → Nat → State → Out State}

theorem accept_of_wrongTransport (h : s.cfg.transport ≠ t) : accept t len s run = .refused .wrongTransport := if_pos h

theorem accept_of_notReady (ht : s.cfg.transport = t) (hr : s.status.ready = false) : accept t len s run = .refused .notReady := by
  simp only [accept, ht, hr, ne_eq, not_true, if_false, if_true]

theorem accept_of_busy (ht : s.cfg.transport = t) (hr : s.status.ready = true) (hi : s.status.state ≠ .idle) :
    accept t len s run = .refused .busy := by
  simp only [accept, ht, hr, hi, ne_eq, not_true, not_false_eq_true, Bool.true_eq_false, if_false, if_true]

end

/-- UPDATE_CHANNELS.GPIO accepted is `finish` and nothing else (R108). -/
theorem exec_updateChannelsGpio (s : State) :
    exec .updateChannelsGpio s = accept .gpio (channelsRange s.cfg) s fun _ _ u => .next (finish .unsupported 0 u) := rfl

/-- A command is an acceptance on the one transport it is well formed on (R65, R144). -/
theorem exec_command {i : Instr} (hi : IsCommand i) (s : State) :
    ∃ t len run, (i.wf s.cfg.transport = true ↔ s.cfg.transport = t) ∧ exec i s = accept t len s run := by
  rcases hi with rfl | rfl | rfl | rfl
  · exact ⟨.gpio, _, _, beq_iff_eq, rfl⟩
  · exact ⟨.gpio, _, _, beq_iff_eq, exec_updateChannelsGpio s⟩
  · exact ⟨.spi, _, _, beq_iff_eq, rfl⟩
  · exact ⟨.spi, _, _, beq_iff_eq, rfl⟩

theorem exec_of_wrongTransport {i : Instr} {s : State} (hi : IsCommand i) (h : i.wf s.cfg.transport = false) :
    exec i s = .refused .wrongTransport := by
  obtain ⟨t, len, run, hwf, he⟩ := exec_command hi s
  rw [he, accept_of_wrongTransport fun ht => by rw [hwf.mpr ht] at h; cases h]

/-! ### The frame group of a wire byte (R72, R87) -/

theorem serAll_group (c : Cfg) (ws : List Byte) {m : Nat} (hm : m < ws.length) :
    ((serAll c ws).drop (8 * m)).take 8 = ser c (ws.getD m 0) := by
  refine List.ext_getElem? fun k => ?_
  rcases Nat.lt_or_ge k 8 with hk | hk
  · rw [List.getElem?_take_of_lt hk, List.getElem?_drop, serAll_getElem? c ws hm hk]
  · rw [List.getElem?_take_eq_none hk, List.getElem?_eq_none (by rw [ser_length]; exact hk)]

/-- The wire byte at STRIDE·i + ORDER[c] is channel c of pixel i (R87). -/
theorem wireStream_channel {c : Cfg} (h : cfgWf c = true) (m : List Host.Cell) (a : Nat) {n i : Nat} {ch : Channel} (hi : i < n)
    (hc : ch ∈ channels c) :
    (wireStream c m a n)[stride c * i + order c ch]? = some (channelValue (pixelAt c m a i) ch) := by
  rw [wireStream_get c m a n i _ hi (order_lt h hc), wireOf_get h _ hc]

/-! ### Accesses of other agents hidden (R67, R142) -/

theorem Sat.any {σ : Type} (o : Out σ) : Sat o (fun _ => True) fun _ => True := by cases o <;> trivial

/-- Outcomes alike are one outcome seen through `f` and `g`, if these agree on the states that come out. -/
theorem SimOut.mapStates_eq {o o' : Out State} {f g : State → State} {Q Q' : State → Prop} (h : SimOut Sim o o')
    (hq : Sat o Q fun r => Q r.left) (hq' : Sat o' Q' fun r => Q' r.left) (hfg : ∀ {x y}, Sim x y → Q x → Q' y → f x = g y) :
    mapStates f o = mapStates g o' := by
  rcases o with x | (⟨a, s⟩ | ⟨a, s⟩) | r <;> rcases o' with y | (⟨b, t⟩ | ⟨b, t⟩) | r'
  case next.next => exact congrArg Host.Outcome.next (hfg h hq hq')
  case fault.stuckRead.fault.stuckRead =>
    obtain ⟨rfl, h⟩ := h
    exact congrArg (fun l => Host.Outcome.fault (Fault.stuckRead a l)) (hfg h hq hq')
  case fault.stuckWrite.fault.stuckWrite =>
    obtain ⟨rfl, h⟩ := h
    exact congrArg (fun l => Host.Outcome.fault (Fault.stuckWrite a l)) (hfg h hq hq')
  case refused.refused => exact congrArg Host.Outcome.refused h
  all_goals exact False.elim h

theorem Sim.hidden {s t : State} (h : Sim s t) : hideAccesses s = hideAccesses t := by
  obtain ⟨⟨a, n, l, o, rfl⟩, -, -⟩ := h
  rfl

/-- A command's run does not see register accesses. -/
def Blind (run : State → Out State) : Prop := ∀ {s t : State}, Sim s t → SimOut Sim (run s) (run t)

/-- Acceptance does not look at the other agents (R144). -/
theorem accept_sim {t : Transport} {len : Nat → Nat} {s : State} {run : Nat → Nat → State → Out State} {o o' : List Timed}
    (hrun : ∀ a n, Blind (run a n)) (ho : Accesses { s with others := o }) (ho' : Accesses { s with others := o' }) :
    SimOut Sim (accept t len { s with others := o } run) (accept t len { s with others := o' } run) := by
  refine SimOut.ite (fun _ => rfl) fun _ => SimOut.ite (fun _ => rfl) fun _ => SimOut.ite (fun _ => rfl) fun _ =>
    SimOut.ite (fun _ => rfl) fun _ => hrun _ _ ⟨⟨s.addr, s.count, s.loads, o', rfl⟩, ho, ho'⟩

theorem spiChannels_sim {a n : Nat} : Blind (spiChannels a n) :=
  fun h => channelsFrom_sim (h.map (fun u => { u with sJ := 0 }))

theorem exec_sim {i : Instr} (hi : IsCommand i) {s : State} {o o' : List Timed} (ho : Accesses { s with others := o })
    (ho' : Accesses { s with others := o' }) : SimOut Sim (exec i { s with others := o }) (exec i { s with others := o' }) := by
  rcases hi with rfl | rfl | rfl | rfl
  · exact accept_sim (fun _ _ => gpioRgb_sim) ho ho'
  · rw [exec_updateChannelsGpio, exec_updateChannelsGpio]
    exact accept_sim (fun _ _ => finish_sim) ho ho'
  · exact accept_sim (fun _ _ => spiRgb_sim) ho ho'
  · exact accept_sim (fun _ _ => spiChannels_sim) ho ho'

/-! ### A command keeps what it keeps also where it is stuck (R153) -/

/-- What `o` yields, and the state a fault of it leaves, keep of `s` what every command keeps. -/
def KeptBy {τ : Type} (s : State) (o : Out τ) (p : τ → State) : Prop := Sat o (fun x => Keeps s (p x)) fun f => Keeps s f.left

section

variable {σ τ : Type} {s s' : State}

theorem KeptBy.bind {o : Out σ} {f : σ → Out τ} {p : σ → State} {q : τ → State} (h : KeptBy s o p)
    (hf : ∀ x, KeptBy (p x) (f x) q) : KeptBy s (andThen o f) q :=
  Sat.bind h fun x hx => (hf x).mono (fun _ hy => hx.trans hy) fun _ hy => hx.trans hy

/-- A change before it of what `Keeps` does not speak of. -/
theorem KeptBy.after {o : Out τ} {p : τ → State} (hs : Keeps s s') (h : KeptBy s' o p) : KeptBy s o p :=
  h.mono (fun _ hx => hs.trans hx) fun _ hf => hs.trans hf

theorem keeps_setPhase (p : GpioPhase) (s : State) : Keeps s (setPhase p s) :=
  .of_same rfl rfl rfl rfl rfl rfl rfl rfl rfl rfl rfl rfl rfl

theorem keeps_setState (st : EngineState) (s : State) : Keeps s (setState st s) :=
  .of_same rfl rfl rfl rfl rfl rfl rfl rfl rfl rfl rfl rfl rfl

theorem complete_kept (r : ResultCode) (d : Word) (s : State) : KeptBy s (complete r d s) id :=
  (complete_sat (lo := 0) (hi := 0) r d s).mono (fun _ ⟨u, hu, _, ht⟩ => ht ▸ hu.toKeeps.trans (finish_keeps r d u)) fun _ h => h

theorem readPixel_kept (a i : Nat) (s : State) : KeptBy s (readPixel a i s) Prod.snd :=
  (readPixel_sat (lo := 0) (hi := 0) s).mono (fun _ h => h.toKeeps) fun _ h => h.toKeeps

theorem layoutWrites_kept (a i : Nat) (w : List Byte) (chs : List Channel) (s : State) : KeptBy s (layoutWrites a i w chs s) id := by
  induction chs generalizing s with
  | nil => exact Keeps.refl s
  | cons ch rest ih =>
    exact KeptBy.bind (p := id) ((memWrite_sat s (Nat.le_refl _) (Nat.lt_succ_self _)).mono (fun _ h => h.toKeeps)
      fun _ h => h.toKeeps) ih

theorem layoutFrom_kept (a i k : Nat) (s : State) : KeptBy s (layoutFrom a i k s) id := by
  induction k generalizing i s with
  | zero => exact Keeps.refl s
  | succ k ih =>
    exact KeptBy.bind (p := id) ((readPixel_kept a i s).bind fun x => layoutWrites_kept ..) fun u => ih (i + 1) u

theorem gpioTransmit_kept (a n : Nat) (s : State) : KeptBy s (gpioTransmit a n s) id := by
  have h0 : Keeps s (setMask true { s with clkReq := true }) := .of_same rfl rfl rfl rfl rfl rfl rfl rfl rfl rfl rfl rfl rfl
  refine KeptBy.after h0 (KeptBy.bind (p := id) ((burst_sat (lo := 0) (hi := 0) _).mono (fun _ h => h.toKeeps) fun _ h => h.toKeeps)
    fun u => ?_)
  have h1 : Keeps u (setMask false u) := .of_same rfl rfl rfl rfl rfl rfl rfl rfl rfl rfl rfl rfl rfl
  exact KeptBy.after h1 ((gpioRelease_sat (lo := 0) (hi := 0) _).mono (fun _ h => h.1.toKeeps) fun _ h => h)

theorem gpioRgb_kept (a n : Nat) (s : State) : KeptBy s (gpioRgb a n s) id := by
  refine KeptBy.after ((keeps_setState .transmitting s).trans (keeps_setPhase .layout _)) ((layoutFrom_kept a 0 n _).bind fun u => ?_)
  refine KeptBy.after (keeps_setPhase .clkReq u) (KeptBy.bind (p := Prod.snd)
    ((clockRequest_sat _).mono (fun _ h => h.2.toKeeps) fun _ h => h) fun x => ?_)
  split
  · exact complete_kept ..
  · exact gpioTransmit_kept ..

theorem dataThenLatch_kept (bytes : List Byte) (s : State) : KeptBy s (dataThenLatch bytes s) Prod.snd :=
  (dataThenLatch_sat s).mono (fun _ h => h.1.toKeeps) fun _ h => h

theorem spiRgb_kept (a n : Nat) (s : State) : KeptBy s (spiRgb a n s) id := by
  unfold spiRgb
  split
  · exact finish_keeps _ _ s
  · refine KeptBy.after (SpiKeeps.of_engine s .encoding s.stage s.chbuf 0 s.sJ).toKeeps (KeptBy.bind (p := id)
      ((encodeFrom_sat _).mono (fun _ h => h.1.toKeeps) fun _ h => h.toKeeps) fun u => ?_)
    exact (dataThenLatch_kept _ u).bind fun x => complete_kept _ _ x.2

theorem channelSend_kept (a j : Nat) (s : State) : KeptBy s (channelSend a j s) Prod.snd := by
  refine KeptBy.after (SpiKeeps.of_engine s s.status.state s.stage s.chbuf s.sI j).toKeeps (KeptBy.bind (p := id)
    ((channelStart_sat _).mono (fun _ h => h.1.toKeeps) fun _ h => h) fun u => KeptBy.bind (p := Prod.snd)
    ((memRead_sat (lo := 0) (hi := 0) u).mono (fun _ h => h.toKeeps) fun _ h => h.toKeeps) fun x => ?_)
  exact KeptBy.after (SpiKeeps.of_engine x.2 x.2.status.state x.2.stage _ x.2.sI x.2.sJ).toKeeps (dataThenLatch_kept ..)

theorem channelsFrom_kept (a j k : Nat) (s : State) : KeptBy s (channelsFrom a j k s) id := by
  induction k generalizing j s with
  | zero => exact (channelsDone_sat s).mono (fun _ h => h.1.toKeeps) fun _ h => h
  | succ k ih =>
    refine (channelSend_kept a j s).bind fun x => ?_
    split
    · exact complete_kept ..
    · exact complete_kept ..
    · exact ih ..

theorem spiChannels_kept (a n : Nat) (s : State) : KeptBy s (spiChannels a n s) id :=
  KeptBy.after (SpiKeeps.of_engine s s.status.state s.stage s.chbuf s.sI 0).toKeeps (channelsFrom_kept ..)

end

/-! ### The first micro-step of a command -/

/-- From `s`, `op` begins with a micro-step, after a change of the block's own state at most. -/
def Begins {τ : Type} (op : State → Out τ) (s : State) : Prop :=
  ∃ (t : State) (f : State → Out τ), t.cfg = s.cfg ∧ ∀ a n l o, op (put a n l o s) = andThen (tick (put a n l o t)) f

section

variable {σ τ : Type} {s s' : State}

theorem Begins.bind {op : State → Out σ} (h : Begins op s) (f : σ → Out τ) : Begins (fun u => andThen (op u) f) s := by
  obtain ⟨t, g, hc, ht⟩ := h
  exact ⟨t, fun u => andThen (g u) f, hc, fun a n l o => by simp only [ht, andThen_assoc]⟩

/-- A change of the block's own state before. -/
theorem Begins.after {op op' : State → Out τ} (h : Begins op s') (hc : s'.cfg = s.cfg)
    (he : ∀ a n l o, op' (put a n l o s) = op (put a n l o s')) : Begins op' s := by
  obtain ⟨t, f, hc', ht⟩ := h
  exact ⟨t, f, hc'.trans hc, fun a n l o => (he a n l o).trans (ht a n l o)⟩

theorem begins_tick (f : State → Out τ) (s : State) : Begins (fun u => andThen (tick u) f) s := ⟨s, f, rfl, fun _ _ _ _ => rfl⟩

theorem memRead_begins (a : Nat) (s : State) : Begins (memRead a) s := begins_tick _ s

theorem readPixel_begins (a i : Nat) (s : State) : Begins (readPixel a i) s :=
  ((memRead_begins (recordAddr s.cfg a i 0) s).bind fun x => andThen (memRead (recordAddr s.cfg a i 1) x.2) fun y =>
    andThen (memRead (recordAddr s.cfg a i 2) y.2) fun z => .next ((x.1, y.1, z.1), z.2)).after rfl fun _ _ _ _ => rfl

theorem gpioRgb_begins (a n : Nat) (s : State) : Begins (gpioRgb a n) s := by
  cases n with
  | zero =>
    exact ((begins_tick _ (setPhase .clkReq (setPhase .layout (setState .transmitting s)))).bind _).after rfl fun _ _ _ _ => rfl
  | succ k =>
    exact ((((readPixel_begins a 0 (setPhase .layout (setState .transmitting s))).bind _).bind (layoutFrom a 1 k)).bind _).after rfl
      fun _ _ _ _ => rfl

theorem dataThenLatch_begins (bytes : List Byte) (s : State) : Begins (dataThenLatch bytes) s :=
  ((begins_tick _ s).bind _).after rfl fun _ _ _ _ => rfl

theorem spiRgb_begins {a n : Nat} {s : State} (hn : n ≤ s.cfg.maxPixels.toNat) : Begins (spiRgb a n) s := by
  have hcap : ¬ n > s.cfg.maxPixels.toNat := Nat.not_lt.mpr hn
  cases n with
  | zero =>
    exact ((dataThenLatch_begins (s.stage.take (8 * stride s.cfg * 0)) { setState .encoding s with sI := 0 }).bind _).after rfl
      fun _ _ _ _ => if_neg hcap
  | succ k =>
    exact ((((readPixel_begins a 0 { setState .encoding s with sI := 0 }).bind _).bind (encodeFrom a 1 k)).bind _).after rfl
      fun _ _ _ _ => if_neg hcap

theorem spiChannels_begins {a n : Nat} (s : State) (hn : 0 < n) : Begins (spiChannels a n) s := by
  obtain ⟨k, rfl⟩ := Nat.exists_eq_succ_of_ne_zero hn.ne'
  exact (((memRead_begins (a + 0) (setState .encoding { s with sJ := 0 })).bind _).bind _).after rfl fun _ _ _ _ => rfl

end

/-! ### An access that lands while a command runs (R67, R142) -/

/-- With the access of another agent due after `d` micro-steps, the run from `s` comes to what it comes to without it, but that ADDR, COUNT
and the loads are as the access leaves them. -/
def LandsAt (run : State → Out State) (d : Nat) (s : State) : Prop :=
  ∀ (x : AgentOp) (a n : Word) (l : List (Reg × Word)) (F : State → State),
    (∀ w, Lands s.cfg x w s.addr s.count s.loads a n l) → (∀ u, F (put s.addr s.count s.loads [] u) = put a n l [] u) →
    run { s with others := [⟨d, x⟩] } = mapStates F (run s)

theorem put_of_alone {s : State} (ho : Alone s) : put s.addr s.count s.loads [] s = s := by
  rw [← ho]; rfl

/-- Alone, all that comes out of a run has ADDR, COUNT and the loads it began with. -/
theorem KeptBy.put_alone {o : Out State} {s : State} (h : KeptBy s o id) (hq : Quiet s) :
    Sat o (fun x => x = put s.addr s.count s.loads [] x) fun r => r.left = put s.addr s.count s.loads [] r.left := by
  have key : ∀ x, Keeps s x → x = put s.addr s.count s.loads [] x := fun x hk => by
    obtain ⟨⟨ho, -⟩, ha, hn, hl, -⟩ := hk.alone hq
    rw [← ha, ← hn, ← hl]
    exact (put_of_alone ho).symm
  exact h.mono key fun r => key r.left

theorem mapStates_id (o : Out State) : mapStates id o = o := by
  rcases o with x | (⟨a, s⟩ | ⟨a, s⟩) | r <;> rfl

/-- A run alone takes other values of ADDR, COUNT and the loads along, and is otherwise the same. -/
theorem run_put_alone {run : State → Out State} {s : State} (hb : Blind run) (hk : ∀ u, KeptBy u (run u) id) (hq : Quiet s)
    {a n : Word} {l : List (Reg × Word)} {F : State → State} (hF : ∀ u, F (put s.addr s.count s.loads [] u) = put a n l [] u) :
    run (put a n l [] s) = mapStates F (run s) := by
  have hsim : Sim s (put a n l [] s) := ⟨⟨a, n, l, [], rfl⟩, by simp [Accesses, hq.1], by simp [Accesses, put]⟩
  have hkept : Sat (run (put a n l [] s)) (fun y => y = put a n l [] y) fun r => r.left = put a n l [] r.left :=
    (hk _).put_alone ⟨rfl, hq.2⟩
  have hagree : ∀ {x y}, Sim x y → x = put s.addr s.count s.loads [] x → y = put a n l [] y → F x = id y := by
    rintro x _ ⟨⟨a', n', l', o', rfl⟩, -, -⟩ hx hy
    exact ((congrArg F hx).trans (hF x)).trans hy.symm
  rw [← mapStates_id (run (put a n l [] s))]
  exact ((hb hsim).mapStates_eq ((hk s).put_alone hq) hkept hagree).symm

/-- A store that is due at once lands at the first micro-step. -/
theorem Begins.landsAt {run : State → Out State} {s : State} (h : Begins run s) (hb : Blind run) (hk : ∀ u, KeptBy u (run u) id)
    (hq : Quiet s) : LandsAt run 0 s := by
  obtain ⟨t, f, hc, ht⟩ := h
  intro x a n l F hx hF
  have hdue : tick (put s.addr s.count s.loads [⟨0, x⟩] t) = tick (put a n l [] t) := by
    show andThen (duringOp x _) (runDue []) = _
    rw [hx _ _ _ hc rfl]
    rfl
  calc run { s with others := [⟨0, x⟩] } = andThen (tick (put s.addr s.count s.loads [⟨0, x⟩] t)) f := ht ..
    _ = run (put a n l [] s) := by rw [hdue, ht]
    _ = mapStates F (run s) := run_put_alone hb hk hq hF

/-- And later, if the run goes through that micro-step. -/
theorem Runs.landsAt {run : State → Out State} {s t : State} {ws : List Word} (h : Runs run id s t ws) (ho : Alone s) {d : Nat}
    (hd : d < ws.length) : LandsAt run d s := by
  intro x a n l F hx hF
  have halone := h.alone s.addr s.count s.loads
  rw [put_of_alone ho] at halone
  calc run { s with others := [⟨d, x⟩] } = .next (put a n l [] t) := h.lands _ _ _ _ _ _ _ _ _ (List.getElem?_eq_getElem hd) (hx _)
    _ = mapStates F (run s) := by rw [halone]; exact congrArg Host.Outcome.next (hF t).symm

/-- An accepted command is its run. -/
theorem accept_landsAt {t : Transport} {len : Nat → Nat} {s : State} {run : Nat → Nat → State → Out State} {d : Nat}
    (h : Takes t (len (operandN s)) s)
    (hr : LandsAt (run (operandA s) (operandN s)) d { s with race := .over (operandA s) (len (operandN s)) }) :
    LandsAt (fun u => accept t len u run) d s := by
  obtain ⟨ht, hready, hidle, hrange⟩ := h
  intro x a n l F hx hF
  show accept t len { s with others := [⟨d, x⟩] } run = mapStates F (accept t len s run)
  rw [accept_of_takes ht hready hidle hrange, accept_of_takes (s := { s with others := [⟨d, x⟩] }) ht hready hidle hrange]
  exact hr x a n l F hx hF

/-- An access whose code decodes to `i` lands where `i` goes through. -/
theorem lands_of_decode {c : Cfg} {code : Code} {i : Instr} {a n a' n' : Word} {l l' : List (Reg × Word)}
    (hd : decode c.transport c.regBase code = .ok i) (hi : ∀ u o, duringInstr i (put a n l o u) = .next (put a' n' l' o u)) (w : Word) :
    Lands c (.present code) w a n l a' n' l' := by
  rintro u o rfl -
  simp only [duringOp]
  rw [show decode (put a n l o u).cfg.transport (put a n l o u).cfg.regBase code = .ok i from hd]
  exact hi u o

/-- So a store to ADDR, or to COUNT, changes that register and nothing else. -/
theorem LandsAt.stores {run : State → Out State} {d : Nat} {s : State} (h : LandsAt run d s) (v : Word) :
    run { s with others := [wordStore s.cfg d 4 v] } = mapStates (fun t => { t with addr := v }) (run s) ∧
      run { s with others := [wordStore s.cfg d 8 v] } = mapStates (fun t => { t with count := v }) (run s) :=
  ⟨h _ v s.count s.loads _ (lands_of_decode (decode_store _ _ .addr v) fun _ _ => rfl) fun _ => rfl,
    h _ s.addr v s.loads _ (lands_of_decode (decode_store _ _ .count v) fun _ _ => rfl) fun _ => rfl⟩

theorem updateRgbSpi_landsAt {s : State} {d : Nat} (ho : Alone s) (hcap : operandN s ≤ s.cfg.maxPixels.toNat)
    (ht : Takes .spi (rgbRange s.cfg (operandN s)) s) (hd : d = 0 ∨ (SpiRgbRuns s ∧ d ≤ 3 * operandN s + 4)) :
    LandsAt (exec .updateRgbSpi) d s := by
  refine accept_landsAt ht ?_
  rcases hd with rfl | ⟨⟨-, -, -, hread⟩, hd⟩
  · exact (spiRgb_begins (by exact hcap)).landsAt spiRgb_sim (spiRgb_kept _ _) (quiet_accepted ho ..)
  · obtain ⟨t, hr⟩ := spiRgb_runs (s := { s with race := .over (operandA s) (rgbRange s.cfg (operandN s)) }) hcap hread
    exact hr.landsAt ho (by simp; omega)

theorem updateChannelsSpi_landsAt {s : State} {d : Nat} (ho : Alone s) (hn : 0 < operandN s)
    (ht : Takes .spi (channelsRange s.cfg (operandN s)) s)
    (hd : d = 0 ∨ (SpiChannelsRuns s ∧ ChannelsOk s (operandN s) ∧ d < 6 * operandN s)) : LandsAt (exec .updateChannelsSpi) d s := by
  refine accept_landsAt ht ?_
  rcases hd with rfl | ⟨⟨-, -, hread⟩, hok, hd⟩
  · exact (spiChannels_begins _ hn).landsAt spiChannels_sim (spiChannels_kept _ _) (quiet_accepted ho ..)
  · obtain ⟨t, hr⟩ := spiChannels_runs (s := { s with race := .over (operandA s) (channelsRange s.cfg (operandN s)) }) hn hread hok
    exact hr.landsAt ho (by simp; omega)

theorem updateRgbGpio_landsAt {s : State} {d : Nat} (ho : Alone s) (ht : Takes .gpio (rgbRange s.cfg (operandN s)) s)
    (hd : d = 0 ∨ (GpioRgbRuns s ∧ d ≤ (3 + stride s.cfg) * operandN s)) : LandsAt (exec .updateRgbGpio) d s := by
  refine accept_landsAt ht ?_
  rcases hd with rfl | ⟨⟨-, hwf, -, hread, hwrite⟩, hd⟩
  · exact (gpioRgb_begins ..).landsAt gpioRgb_sim (gpioRgb_kept _ _) (quiet_accepted ho ..)
  · obtain ⟨t, k, hk, hr⟩ := gpioRgb_runs (s := { s with race := .over (operandA s) (rgbRange s.cfg (operandN s)) }) hwf hread hwrite
    exact hr.landsAt ho (by rw [List.length_replicate]; exact hd.trans_lt hk)

end Sys2Proof.Machine

namespace Sys2Proof.Proofs

open Sys2Proof.Machine

/-- Settles O1, instruction by instruction. -/
theorem decodeOfEncodeIsTheInstruction : Obligations.DecodeOfEncodeIsTheInstruction :=
  fun _ base _ h => decode_encode base h

/-- Settles O2: a command word decodes to its row, and an access that `check_access` admits to that of the register at its address. -/
theorem encodeOfDecodeIsTheCode : Obligations.EncodeOfDecodeIsTheCode := by
  intro t base code i h
  cases code with
  | cmd c =>
    obtain rfl := Except.ok.inj h
    exact ⟨decodeCmd_wf t c, encode_decodeCmd t base c⟩
  | bus access =>
    cases access with
    | load a w =>
      obtain ⟨r, rfl, rfl, rfl⟩ := decode_load_eq_ok h
      exact ⟨rfl, rfl⟩
    | store a data =>
      obtain ⟨r, v, rfl, rfl, rfl⟩ := decode_store_eq_ok h
      exact ⟨storeInstr_wf t r v, encode_storeInstr base r v⟩

/-- Settles O3: ten literal codes, each evaluated. -/
theorem writtenOutCodesDecode : Obligations.WrittenOutCodesDecode :=
  ⟨rfl, rfl, rfl, rfl, rfl, rfl, rfl, rfl, rfl, rfl⟩

/-- Settles O5. -/
theorem stepRunsTheDecodedInstruction : Obligations.StepRunsTheDecodedInstruction := by
  intro s code i rest hw ho hb hp hd
  rw [step_op_of_not_due hw ho hb hp]
  simp only [agentOp, hd]

/-- Settles O17: acceptance makes the refusals of every command row, and WR.RO its own at the three writable registers. -/
theorem commandRowsRefuse : Obligations.CommandRowsRefuse := by
  intro s
  refine ⟨fun hs => ?_, fun hg => ?_, fun v => ⟨rfl, rfl, rfl⟩, fun i hwf hi => ?_⟩
  · exact ⟨exec_of_wrongTransport (.inl rfl) (by rw [hs]; rfl), exec_of_wrongTransport (.inr (.inl rfl)) (by rw [hs]; rfl)⟩
  · exact ⟨exec_of_wrongTransport (.inr (.inr (.inl rfl))) (by rw [hg]; rfl),
      exec_of_wrongTransport (.inr (.inr (.inr rfl))) (by rw [hg]; rfl)⟩
  · obtain ⟨t, len, run, ht, he⟩ := exec_command hi s
    rw [he]
    exact ⟨accept_of_notReady (ht.mp hwf), accept_of_busy (ht.mp hwf)⟩

/-- Settles O22: ORDER places the channel in its pixel's record, the record in the stream, and the byte's frames in the frames. -/
theorem wireByteHoldsItsChannel : Obligations.WireByteHoldsItsChannel := by
  intro c m a n i ch hwf hi hc
  have hbyte := wireStream_channel hwf m a hi hc
  obtain ⟨hlt, hget⟩ := List.getElem?_eq_some_iff.mp hbyte
  refine ⟨hbyte, ?_, wireStream_length c m a n⟩
  rw [serAll_group c _ hlt, List.getD_eq_getElem _ _ hlt, hget]

/-- Settles O21: the run of a command does not see register accesses, and a store that lands at one of its micro-steps is all they do. -/
theorem runningCommandHasLatchedItsOperands : Obligations.RunningCommandHasLatchedItsOperands := by
  refine ⟨fun i s ops hi hops => ?_, fun s d v ho => ⟨fun hcap ht hd => ?_, fun hn ht hd => ?_, fun ht hd => ?_⟩⟩
  · exact (exec_sim hi hops (by simp [Accesses])).mapStates_eq (.any _) (.any _) fun h _ _ => h.hidden
  · exact (updateRgbSpi_landsAt ho hcap ht hd).stores v
  · exact (updateChannelsSpi_landsAt ho hn ht hd).stores v
  · exact (updateRgbGpio_landsAt ho ht hd).stores v

end Sys2Proof.Proofs
end

section
/-! PROOFS. The statements of the family of 40_pixel_model.md: the white wire byte, and the wire stream both transports emit. -/

namespace Sys2Proof.Machine

/-! ### The white wire byte (R86, R117) -/

theorem white_mem_channels {c : Cfg} (h : c.hasWhite = true) : .white ∈ channels c := by
  simp [channels, h]

/-- The frame group of a zero byte is eight zero frames (R116, R117). -/
theorem ser_zero (c : Cfg) : ser c 0 = List.replicate 8 c.zeroFrame := rfl

/-! ### What the wire stream depends on (R83, R138) -/

theorem order_congr {c d : Cfg} (hr : c.ordR = d.ordR) (hg : c.ordG = d.ordG) (hb : c.ordB = d.ordB) (hw : c.ordW = d.ordW) :
    order c = order d := by
  funext ch
  cases ch <;> simp only [order, hr, hg, hb, hw]

/-- Of the configuration, the wire stream depends on the white bit, ORDER and the record size alone. -/
theorem wireStream_congr {c d : Cfg} (hwhite : c.hasWhite = d.hasWhite) (horder : order c = order d)
    (hrecord : c.recordBytes = d.recordBytes) : wireStream c = wireStream d := by
  have hpixel : pixelAt c = pixelAt d := by
    funext m a i
    simp only [pixelAt, recordAddr, hrecord]
  have hwire : wireOf c = wireOf d := by
    funext p
    simp only [wireOf, channels, stride, hwhite, horder]
  funext m a n
  simp only [wireStream, hpixel, hwire]

/-! ### The bursts and the DATA writes of a trace (R43) -/

/-- The start cycle and the wire bytes of a burst. -/
def burstOf : Event → Option (Nat × List Byte)
  | .burst t b => some (t, b)
  | _ => none

/-- The bytes of a DATA write. -/
def dataOf : Event → Option (List Byte)
  | .bus .data b _ _ => some b
  | _ => none

theorem burstOf_of_isMem {e : Event} (h : isMem e = true) : burstOf e = none := by
  cases e <;> trivial

theorem dataOf_of_isMem {e : Event} (h : isMem e = true) : dataOf e = none := by
  cases e <;> trivial

theorem isMem_of_mem_recordReads {c : Cfg} {m : List Host.Cell} {a i : Nat} {e : Event} (h : e ∈ recordReads c m a i) :
    isMem e = true := by
  simp only [recordReads, List.mem_cons, List.not_mem_nil, or_false] at h
  rcases h with rfl | rfl | rfl <;> rfl

theorem isMem_of_mem_recordWrites {c : Cfg} {m : List Host.Cell} {a i : Nat} {e : Event} (h : e ∈ recordWrites c m a i) :
    isMem e = true := by
  obtain ⟨_, -, rfl⟩ := List.mem_map.mp h
  rfl

theorem isMem_of_mem_encodeEvents {c : Cfg} {m : List Host.Cell} {a n : Nat} {e : Event} (h : e ∈ encodeEvents c m a n) :
    isMem e = true := by
  obtain ⟨_, -, he⟩ := List.mem_flatMap.mp h
  exact isMem_of_mem_recordReads he

theorem isMem_of_mem_layoutEvents {c : Cfg} {m : List Host.Cell} {a n : Nat} {e : Event} (h : e ∈ layoutEvents c m a n) :
    isMem e = true := by
  obtain ⟨_, -, he⟩ := List.mem_flatMap.mp h
  exact (List.mem_append.mp he).elim isMem_of_mem_recordReads isMem_of_mem_recordWrites

theorem bursts_layoutEvents (c : Cfg) (m : List Host.Cell) (a n : Nat) : (layoutEvents c m a n).filterMap burstOf = [] :=
  List.filterMap_eq_nil_iff.mpr fun _ he => burstOf_of_isMem (isMem_of_mem_layoutEvents he)

theorem datas_encodeEvents (c : Cfg) (m : List Host.Cell) (a n : Nat) : (encodeEvents c m a n).filterMap dataOf = [] :=
  List.filterMap_eq_nil_iff.mpr fun _ he => dataOf_of_isMem (isMem_of_mem_encodeEvents he)

/-- The burst of at least one wire byte is one Burst event after its reads (R102, R106). -/
theorem bursts_burstEvents {ws : List Byte} (hne : ws ≠ []) (a t0 : Nat) : (burstEvents ws a t0).filterMap burstOf = [(t0, ws)] := by
  have hreads : ((List.range ws.length).map fun j => Event.memR (a + j) (ws.getD j 0)).filterMap burstOf = [] := by
    simp [burstOf]
  rw [burstEvents, if_neg hne, List.filterMap_append, hreads]
  rfl

/-! ### UPDATE_RGB.SPI alone (R118, R119, R122) -/

theorem encodeEvents_eq_range' (c : Cfg) (m : List Host.Cell) (a n : Nat) :
    (List.range' 0 n).flatMap (recordReads c m a) = encodeEvents c m a n := by
  rw [← List.range_eq_range']
  rfl

/-- ENCODE_STAGE alone puts the frames of the wire stream at the start of STAGE (R119). -/
theorem encodeStage_alone {a n : Nat} {s : State} (ho : Alone s) (hr : s.race.raced = []) (ha : RecordsReadable s a n)
    (hsize : 8 * (stride s.cfg * n) ≤ s.stage.length) :
    ∃ sI, encodeStage a n s = .next { s with
      sI := sI
      trace := s.trace ++ encodeEvents s.cfg s.mem a n
      stage := serAll s.cfg (wireStream s.cfg s.mem a n) ++ s.stage.drop (8 * (stride s.cfg * n)) } := by
  obtain ⟨sI, h⟩ := encodeFrom_alone (s := { s with sI := 0 }) (Nat.zero_add n) ho hr ha s.stage rfl hsize
  rw [encodeEvents_eq_range'] at h
  exact ⟨sI, h⟩

/-- The state an UPDATE_RGB.SPI within its capacity leaves, alone, where its encoder stopped at `sI` (R118). -/
def spiRgbLeft (a n sI : Nat) (s : State) : State :=
  let frames := serAll s.cfg (wireStream s.cfg s.mem a n)
  let result := rgbSpiResult (answerOfWord (replyAt s 0).error) (answerOfWord (replyAt s 1).error)
  { s with
    status := { s.status with result := result.1, state := .idle, detail := result.2.truncate 16 }
    sI := sI
    stage := frames ++ s.stage.drop frames.length
    trace := s.trace ++ encodeEvents s.cfg s.mem a n ++ [busEvent .data frames (replyAt s 0),
      busEvent .reset (resetBytes s.cfg) (replyAt s 1), .done result.1 (result.2.truncate 16)]
    replies := s.replies.drop 2
    asked := s.asked + 2
    race := .empty }

/-- UPDATE_RGB.SPI within its capacity, whatever its two writes answer: ENCODE_STAGE, then what it staged as one DATA write. -/
theorem spiRgb_alone {a n : Nat} {s : State} (ho : Alone s) (hr : s.race.raced = []) (hcap : n ≤ s.cfg.maxPixels.toNat)
    (ha : RecordsReadable s a n) (hsize : 8 * (stride s.cfg * n) ≤ s.stage.length) :
    ∃ sI, spiRgb a n s = .next (spiRgbLeft a n sI s) := by
  obtain ⟨sI, henc⟩ := encodeStage_alone (s := setState .encoding s) ho hr ha hsize
  have hlen : (serAll s.cfg (wireStream s.cfg s.mem a n)).length = 8 * (stride s.cfg * n) := by
    rw [serAll_length, wireStream_length]
  have htake (rest : List Byte) : (serAll s.cfg (wireStream s.cfg s.mem a n) ++ rest).take (8 * stride s.cfg * n) =
      serAll s.cfg (wireStream s.cfg s.mem a n) := by
    rw [Nat.mul_assoc, ← hlen, List.take_left]
  refine ⟨sI, ?_⟩
  rw [spiRgb, if_neg (Nat.not_lt.mpr hcap), henc, andThen_next, dataThenLatch_alone (by exact ho), andThen_next,
    complete_alone (by exact ho), finish_of_not_raced (by exact hr)]
  simp only [spiRgbLeft, setState, htake, hlen, List.append_assoc]
  rfl

theorem datas_spiRgbLeft (a n sI : Nat) (s : State) :
    (spiRgbLeft a n sI s).trace.filterMap dataOf = s.trace.filterMap dataOf ++ [serAll s.cfg (wireStream s.cfg s.mem a n)] := by
  simp only [spiRgbLeft, List.filterMap_append, datas_encodeEvents, List.append_nil]
  rfl

/-- UPDATE_RGB.SPI makes one DATA write, of the frames of the wire stream (R118, R138). -/
theorem updateRgbSpi_datas {s : State} (h : SpiRgbRuns s) (hsize : s.stage.length = stageBytes s.cfg) :
    ∃ t, exec .updateRgbSpi s = .next t ∧ t.trace.filterMap dataOf =
      s.trace.filterMap dataOf ++ [serAll s.cfg (wireStream s.cfg s.mem (operandA s) (operandN s))] := by
  obtain ⟨⟨hspi, hready, hidle, hrange⟩, ho, hcap, hread⟩ := h
  have hfits : 8 * (stride s.cfg * operandN s) ≤ s.stage.length := by
    rw [hsize, stageBytes, hspi, ← Nat.mul_assoc]
    exact Nat.mul_le_mul_left _ hcap
  obtain ⟨sI, hrun⟩ := spiRgb_alone (s := { s with race := .over (operandA s) (rgbRange s.cfg (operandN s)) })
    ho rfl hcap hread hfits
  exact ⟨_, (accept_of_takes hspi hready hidle hrange).trans hrun, datas_spiRgbLeft ..⟩

/-- UPDATE_RGB.GPIO with its clock granted and released makes one burst, of the wire stream (R106, R138). -/
theorem updateRgbGpio_bursts {s : State} (h : GpioRgbRuns s) (hm : memWf s.mem = true) (hn : 0 < operandN s)
    (h0 : (replyAt s 0).error = 0) (h1 : (replyAt s 1).error = 0) :
    ∃ t t0, exec .updateRgbGpio s = .next t ∧ t.trace.filterMap burstOf =
      s.trace.filterMap burstOf ++ [(t0, wireStream s.cfg s.mem (operandA s) (operandN s))] := by
  obtain ⟨t, t0, ht, -, -, htrace, -⟩ := Proofs.gpioRgbSendsTheWireStream s h hm h0 h1
  have hne := mt (wireStream_eq_nil_iff s.cfg s.mem (operandA s) (operandN s)).mp hn.ne'
  refine ⟨t, t0, ht, ?_⟩
  rw [htrace]
  simp only [List.filterMap_append, bursts_layoutEvents, bursts_burstEvents hne, List.append_assoc]
  rfl

end Sys2Proof.Machine

namespace Sys2Proof.Proofs

open Sys2Proof.Machine

/-- Settles O23: it is the wire byte of the white channel, whose value is 0. -/
theorem whiteSlotIsZero : Obligations.WhiteSlotIsZero := by
  intro c m a n i hwf hwhite hi
  obtain ⟨hbyte, hgroup, -⟩ := wireByteHoldsItsChannel c m a n i .white hwf hi (white_mem_channels hwhite)
  exact ⟨hbyte, hgroup.trans (ser_zero c)⟩

/-- Settles O53: the two instances have the same wire stream, of which GPIO makes its burst and SPI the frames of its DATA write. -/
theorem transportsEmitTheSameWireStream : Obligations.TransportsEmitTheSameWireStream := by
  intro g p hg hp hm hsize hwhite hordR hordG hordB hordW hrecord hmem ha hn hpos hg0 hg1 _ _
  obtain ⟨tg, t0, htg, hbursts⟩ := updateRgbGpio_bursts hg hm hpos hg0 hg1
  obtain ⟨tp, htp, hdatas⟩ := updateRgbSpi_datas hp hsize
  rw [← wireStream_congr hwhite (order_congr hordR hordG hordB hordW) hrecord, ← hmem, ← ha, ← hn] at hdatas
  exact ⟨tg, tp, t0, _, htg, htp, hbursts, hdatas⟩

end Sys2Proof.Proofs
end

section
/-! PROOFS. The statements of the family of 41_gpio_transport.md: the closed form of the burst, the two clock failures of UPDATE_RGB.GPIO, its
results and mask pulses, where it can be stuck, and UPDATE_CHANNELS.GPIO. -/

namespace Sys2Proof.Machine

/-! ### The slots of a burst (R95 to R97, R104) -/

/-- No slot ends after the burst does. -/
theorem slotEnd_le_burstLength (c : Cfg) {nb k : Nat} (hk : k < 8 * nb) :
    slotStart c k + slotLen c nb (k / 8) (7 - k % 8) ≤ burstLength c nb := by
  have hlast := burstLength_last c (nb := nb) (by omega)
  rcases Nat.lt_or_ge (k + 1) (8 * nb) with hk1 | hk1
  · have hmono := slotStart_mono c (show k + 1 ≤ 8 * nb - 1 by omega)
    rw [slotStart_succ c hk1] at hmono
    omega
  · rw [show 8 * nb - 1 = k by omega] at hlast
    exact hlast.ge

/-- Each cycle of a burst is in one of its slots. -/
theorem exists_slot (c : Cfg) {nb t : Nat} (ht : t < burstLength c nb) :
    ∃ k x, k < 8 * nb ∧ x < slotLen c nb (k / 8) (7 - k % 8) ∧ t = slotStart c k + x := by
  have hupTo : ∀ m, m < 8 * nb → t < slotStart c m + slotLen c nb (m / 8) (7 - m % 8) →
      ∃ k x, k < 8 * nb ∧ x < slotLen c nb (k / 8) (7 - k % 8) ∧ t = slotStart c k + x := by
    intro m
    induction m with
    | zero => exact fun hm hlt => ⟨0, t, hm, by simpa [slotStart] using hlt, by simp [slotStart]⟩
    | succ m ih =>
      intro hm hlt
      rcases Nat.lt_or_ge t (slotStart c (m + 1)) with h | h
      · exact ih (by omega) (slotStart_succ c hm ▸ h)
      · exact ⟨m + 1, t - slotStart c (m + 1), hm, by omega, by omega⟩
  have hnb : 0 < nb := by
    rcases Nat.eq_zero_or_pos nb with rfl | h
    · cases ht
    · exact h
  exact hupTo (8 * nb - 1) (by omega) (burstLength_last c hnb ▸ ht)

/-! ### The burst machine and the closed form (R98 to R101) -/

/-- The closed form within slot `k`, `x` cycles after its start (R100, R103). -/
theorem pinAt_inSlot {c : Cfg} (hwf : cfgWf c = true) (hg : c.transport = .gpio) {ws : List Byte} {k x : Nat} (hk : k < 8 * ws.length)
    (hx : x < slotLen c ws.length (k / 8) (7 - k % 8)) :
    pinAt c ws (slotStart c k + x) = if x < highTime c (slotBit ws k) then .high else .low :=
  pinAt_slot hwf hg ws hk fun hk1 => by rw [slotStart_succ c hk1]; omega

/-- The last cycle of a slot is low: every high time is below TPER_CYC. -/
theorem pinAt_slotEnd {c : Cfg} (hwf : cfgWf c = true) (hg : c.transport = .gpio) {ws : List Byte} {k x : Nat} (hk : k < 8 * ws.length)
    (hx : x + 1 = slotLen c ws.length (k / 8) (7 - k % 8)) : pinAt c ws (slotStart c k + x) = .low := by
  have hhigh := highTime_le hwf hg (slotBit ws k)
  have hlen := slotLen_ge c ws.length (k / 8) (7 - k % 8)
  rw [pinAt_inSlot hwf hg hk (by omega), if_neg (by omega)]

/-- Cycle `t` of a burst that starts in `s`: the pin is at the level of the closed form, and the burst is left with its last cycle. -/
theorem burstRun_cycle {s : State} {a t : Nat} {ws : List Byte} (hwf : cfgWf s.cfg = true) (hg : s.cfg.transport = .gpio) (ho : Alone s)
    (hr : s.race.raced = []) (hne : ws ≠ [])
    (hws : ∀ j, j < ws.length → admitsRead s (a + j) = true ∧ memGet s.mem (a + j) = ws.getD j 0)
    (h0 : AtSlot s a ws 0 s) (ht : t < burstLength s.cfg ws.length) :
    ∃ u, burstRun a (t + 1) s = .next u ∧ u.pin = pinAt s.cfg ws t ∧ u.cycle = s.cycle + t + 1 ∧
      (u.g.phase = .burst ↔ t + 1 < burstLength s.cfg ws.length) := by
  obtain ⟨k, x, hk, hx, rfl⟩ := exists_slot s.cfg ht
  obtain ⟨v, hv, hat⟩ := burstRun_toSlot hwf hg ho hr hws h0 k hk
  have hend := slotEnd_le_burstLength s.cfg hk
  have hlen : slotLen v.cfg v.g.nb v.g.j v.g.i = slotLen s.cfg ws.length (k / 8) (7 - k % 8) := by
    rw [hat.cfg, hat.nb, hat.j, hat.i]
  have hcycle : v.cycle = s.cycle + slotStart s.cfg k := by rw [hat.same]
  rcases Nat.lt_or_ge (x + 1) (slotLen s.cfg ws.length (k / 8) (7 - k % 8)) with hin | hout
  · -- a cycle inside the slot
    have hrun := burstRun_inSlot (a := a) hat.c hat.phase (by rw [hat.same]; exact ho) (x + 1) (hlen ▸ hin)
    refine ⟨inSlot v (x + 1), by rw [Nat.add_assoc, burstRun_add, hv]; exact hrun, ?_, ?_, ?_⟩
    · rw [pinAt_inSlot hwf hg hk hx, ← hat.bit, ← hat.cfg]; rfl
    · rw [Nat.add_assoc, Nat.add_assoc, ← Nat.add_assoc s.cycle, ← hcycle]; rfl
    · exact iff_of_true hat.phase (by omega)
  · have hlast : x + 1 = slotLen s.cfg ws.length (k / 8) (7 - k % 8) := by omega
    rw [pinAt_slotEnd hwf hg hk hlast]
    rcases Nat.lt_or_ge (k + 1) (8 * ws.length) with hk1 | hk1
    · -- the last cycle of a slot that another follows
      obtain ⟨u, hu, hau⟩ := burstRun_nextSlot hwf hg ho hr hws hk1 hat
      have hsucc := slotStart_succ s.cfg hk1
      have hnext := slotEnd_le_burstLength s.cfg hk1
      have hpos := slotLen_ge s.cfg ws.length ((k + 1) / 8) (7 - (k + 1) % 8)
      have htper := highTime_le hwf hg true
      refine ⟨u, ?_, hau.pinLow (Nat.succ_pos k), ?_, iff_of_true hau.phase (by omega)⟩
      · rw [Nat.add_assoc, hlast, burstRun_add, hv]; exact hu
      · rw [hau.same]; simp only; omega
    · -- the last cycle of the burst
      have hD := burstLength_last s.cfg (List.length_pos_of_ne_nil hne)
      rw [show 8 * ws.length - 1 = k by omega] at hD
      obtain ⟨g, hphase, hrun⟩ := burstRun_whole hwf hg ho hr hne hws h0
      refine ⟨_, by rw [Nat.add_assoc, hlast, ← hD]; exact hrun, rfl, by simp only; omega, ?_⟩
      exact iff_of_false (by rw [hphase]; decide) (by omega)

/-! ### The clock failures of UPDATE_RGB.GPIO alone (R106, R107, R161) -/

theorem gpioRelease_fail_alone {s : State} (ho : Alone s) (hrel : (replyAt s 0).error ≠ 0) :
    gpioRelease s = .next (finish .clockControlFailure (replyAt s 0).error
      (setPhase .done { drew (emit (.clkRel (.fail (replyAt s 0).error)) (tookReply s)) with clkReq := Config.freeBit s.draws })) := by
  have hans : answerOfWord (replyAt s 0).error = .fail (replyAt s 0).error := if_neg hrel
  unfold gpioRelease
  rw [clockRelease_alone ho, andThen_next, hans]
  exact complete_alone (by exact ho)

/-- `u` is `s` after the layout, the granted clock, the burst of the wire stream from cycle `t0` and the unmask, the clock still to be
released (R106, steps 1 to 4). -/
structure BurstSent (a n t0 : Nat) (s u : State) : Prop where
  alone : Alone u
  notRaced : u.race.raced = []
  status : u.status = { s.status with state := .transmitting }
  irqMask : u.irqMask = false
  reply : replyAt u 0 = replyAt s 1
  start : s.cycle ≤ t0
  trace : u.trace = s.trace ++ layoutEvents s.cfg s.mem a n ++ [.clkReq .ok, .mask true] ++
    burstEvents (wireStream s.cfg s.mem a n) a t0 ++ [.mask false]

section

variable {s : State} {a n : Nat} (hwf : cfgWf s.cfg = true) (hg : s.cfg.transport = .gpio) (ho : Alone s) (hr : s.race.raced = [])
  (hm : memWf s.mem = true) (ha : RecordsReadable s a n) (hw : BytesWritable s a (stride s.cfg * n))

include hwf hg ho hr hm ha hw

/-- UPDATE_RGB.GPIO with its clock request failed: the layout is all it did (R106, R107). -/
theorem gpioRgb_requestFails_alone (h0 : (replyAt s 0).error ≠ 0) :
    ∃ m, WireStreamLeft s.cfg a n s.mem m ∧ gpioRgb a n s = .next { s with
      status := { s.status with result := .clockControlFailure, state := .idle, detail := (replyAt s 0).error.truncate 16 }
      g := { s.g with phase := .clkReq }
      trace := s.trace ++ layoutEvents s.cfg s.mem a n ++ [.clkReq (.fail (replyAt s 0).error),
        .done .clockControlFailure ((replyAt s 0).error.truncate 16)]
      mem := m
      replies := s.replies.drop 1
      asked := s.asked + 1
      race := .empty } := by
  obtain ⟨u, hlaid, hrun⟩ := gpioRgb_alone hwf hg ho hr hm ha hw
  rw [show answerOfWord (replyAt s 0).error = .fail (replyAt s 0).error from if_neg h0] at hrun
  have hsame := hlaid.same
  refine ⟨u.mem, hlaid.mem, hrun.trans ((complete_alone ?_).trans ?_)⟩
  · rw [hsame]; exact ho
  · rw [finish_of_not_raced (by exact hlaid.notRaced), hsame]
    simp

/-- UPDATE_RGB.GPIO with its clock granted, up to the release (R106). -/
theorem gpioRgb_granted_alone (h0 : (replyAt s 0).error = 0) :
    ∃ u t0, BurstSent a n t0 s u ∧ gpioRgb a n s = gpioRelease u := by
  obtain ⟨v, hlaid, hrun⟩ := gpioRgb_alone hwf hg ho hr hm ha hw
  rw [answerOfWord_eq_ok.mpr h0] at hrun
  have hsame := hlaid.same
  obtain ⟨g, t0, draws, ht0, htr⟩ := gpioTransmit_alone (s := emit (.clkReq .ok) (tookReply (setPhase .clkReq v))) (n := n)
    (ws := wireStream s.cfg s.mem a n) (by rw [hsame]; exact hwf) (by rw [hsame]; exact hg) (by rw [hsame]; exact ho) hlaid.notRaced
    (by rw [wireStream_length, hsame]; rfl) (fun _ hj => hlaid.readable hw hj)
  refine ⟨_, t0, ?_, hrun.trans htr⟩
  refine ⟨?_, hlaid.notRaced, ?_, rfl, ?_, ?_, ?_⟩
  · rw [hsame]; exact ho
  · rw [hsame]; rfl
  · exact (replyAt_tookReply v 0).trans (by rw [hsame]; rfl)
  · rw [hsame] at ht0; exact ht0
  · rw [hsame]; simp

end

/-! ### The results of the GPIO commands (R108, R113) -/

/-- From the clock's answer on an UPDATE_RGB.GPIO comes to OK or CLOCK_CONTROL_FAILURE (R106). -/
theorem gpioAnswered_result (a n : Nat) (ans : Answer) (s : State) :
    Sat (gpioAnswered a n ans s) (fun t => t.status.result = .ok ∨ t.status.result = .clockControlFailure) fun _ => True := by
  cases ans with
  | fail e =>
    refine (complete_sat (lo := 0) (hi := 0) _ _ s).mono (fun t ht => ?_) fun _ h => h
    obtain ⟨u, -, -, rfl⟩ := ht
    exact .inr rfl
  | ok =>
    refine Sat.bind (Sat.any _) fun u _ => (gpioRelease_sat (lo := 0) (hi := 0) _).mono (fun t ht => ?_) fun _ h => h
    obtain ⟨-, -, -, -, -, hres, -⟩ := ht
    exact hres.imp_left And.left

/-- The caller range of UPDATE_CHANNELS.GPIO is empty (R53), so no ADDR makes it pass 2^32. -/
theorem channelsRange_gpio_fits {s : State} (hg : s.cfg.transport = .gpio) :
    operandA s + channelsRange s.cfg (operandN s) ≤ addressSpace := by
  simp only [channelsRange, hg, operandA, addressSpace, Nat.add_zero]
  exact s.addr.isLt.le

/-! ### The SPI commands never change IRQ_MASK (R157) -/

/-- An event that is no change of IRQ_MASK. -/
abbrev NoMask (e : Event) : Prop := (isMask true e || isMask false e) = false

/-- TRACE grows from `s` to what `o` yields by no change of IRQ_MASK. -/
def MaskFree {τ : Type} (s : State) (o : Out τ) (p : τ → State) : Prop := Sat o (fun x => Grows NoMask s (p x)) fun _ => True

section

variable {σ τ : Type} {s s' : State}

theorem MaskFree.bind {o : Out σ} {f : σ → Out τ} {p : σ → State} {q : τ → State} (h : MaskFree s o p)
    (hf : ∀ x, MaskFree (p x) (f x) q) : MaskFree s (andThen o f) q :=
  Sat.bind h fun x hx => (hf x).mono (fun _ hy => hx.trans hy) fun _ h => h

/-- A change before it that leaves TRACE as it is. -/
theorem MaskFree.after {o : Out τ} {p : τ → State} (hs : s'.trace = s.trace) (h : MaskFree s' o p) : MaskFree s o p :=
  h.mono (fun _ hx => (Grows.of_eq hs).trans hx) fun _ h => h

theorem noMask_of_isMem {e : Event} (h : isMem e = true) : NoMask e := by
  cases e <;> trivial

theorem Grows.noMask (h : Grows (fun e => isMem e = true) s s') : Grows NoMask s s' := h.mono fun _ => noMask_of_isMem

theorem finish_noMask (r : ResultCode) (d : Word) (s : State) : Grows NoMask s (finish r d s) := .one (finish_trace r d s) rfl

theorem complete_maskFree (r : ResultCode) (d : Word) (s : State) : MaskFree s (complete r d s) id :=
  (complete_sat (lo := 0) (hi := 0) r d s).mono (fun _ ⟨u, _, hu, ht⟩ => ht ▸ (Grows.of_eq hu).trans (finish_noMask r d u))
    fun _ h => h

theorem dataThenLatch_maskFree (bytes : List Byte) (s : State) : MaskFree s (dataThenLatch bytes s) Prod.snd :=
  (dataThenLatch_sat s).mono (fun _ ⟨_, _, htrace, _⟩ => ⟨_, htrace, by simp [busEvent, isMask]⟩) fun _ h => h

theorem spiRgb_maskFree (a n : Nat) (s : State) : MaskFree s (spiRgb a n s) id := by
  unfold spiRgb
  split
  · exact finish_noMask _ _ s
  · have hencode : MaskFree s (encodeStage a n (setState .encoding s)) id :=
      MaskFree.after (s' := { setState .encoding s with sI := 0 }) rfl
        ((encodeFrom_sat _).mono (fun _ h => h.1.trace.noMask) fun _ _ => trivial)
    exact hencode.bind fun u => (dataThenLatch_maskFree _ u).bind fun x => complete_maskFree _ _ x.2

theorem channelStart_maskFree (j : Nat) (s : State) : MaskFree s (channelStart j s) id := by
  unfold channelStart
  split
  · exact Grows.of_eq rfl
  · exact (enterState_sat (lo := 0) (hi := 0) _ s).mono (fun _ ⟨_, _, hu, ht⟩ => ht ▸ Grows.of_eq hu) fun _ h => h

theorem channelSend_maskFree (a j : Nat) (s : State) : MaskFree s (channelSend a j s) Prod.snd := by
  refine MaskFree.after (s' := { s with sJ := j }) rfl ((channelStart_maskFree j _).bind fun u => MaskFree.bind (p := Prod.snd)
    ((memRead_sat (lo := 0) (hi := 0) u).mono (fun _ h => h.trace.noMask) fun _ _ => trivial) fun x => ?_)
  exact MaskFree.after (s' := { x.2 with chbuf := ser x.2.cfg x.1 }) rfl (dataThenLatch_maskFree ..)

theorem channelsFrom_maskFree (a j k : Nat) (s : State) : MaskFree s (channelsFrom a j k s) id := by
  induction k generalizing j s with
  | zero =>
    unfold channelsFrom channelsDone
    split
    · exact finish_noMask .ok 0 s
    · exact complete_maskFree .ok 0 s
  | succ k ih =>
    refine (channelSend_maskFree a j s).bind fun x => ?_
    split
    · exact complete_maskFree ..
    · exact complete_maskFree ..
    · exact ih ..

theorem spiChannels_maskFree (a n : Nat) (s : State) : MaskFree s (spiChannels a n s) id :=
  MaskFree.after (s' := { s with sJ := 0 }) rfl (channelsFrom_maskFree ..)

end

/-- The three commands that are no UPDATE_RGB.GPIO leave IRQ_MASK alone (R157). -/
theorem exec_maskFree {i : Instr} {s t : State} (hi : i = .updateChannelsGpio ∨ i = .updateRgbSpi ∨ i = .updateChannelsSpi)
    (h : exec i s = .next t) : t.irqMask = s.irqMask ∧ Grows NoMask s t := by
  rcases hi with rfl | rfl | rfl
  · obtain rfl := updateChannelsGpio_next h
    exact ⟨rfl, finish_noMask .unsupported 0 { s with race := .over _ _ }⟩
  · have hgrows := (spiRgb_maskFree ..).of_next (accept_next (run := spiRgb) h)
    exact ⟨(updateRgbSpi_keeps h).1.irqMask, hgrows⟩
  · have hgrows := (spiChannels_maskFree ..).of_next (accept_next (run := spiChannels) h)
    exact ⟨(updateChannelsSpi_keeps h).1.irqMask, hgrows⟩

/-! ### Where a burst is stuck (R99, R153) -/

/-- Every high time is below TPER_CYC, so once that many cycles of a slot have passed the pin is low. -/
theorem burstLevel_low {s : State} (hwf : cfgWf s.cfg = true) (hg : s.cfg.transport = .gpio) (h : InBurst s)
    (hc : s.cfg.tper.toNat ≤ s.g.c + 1) : (burstLevel s).pin = .low := by
  have hhigh : (if s.g.c = 0 then highTime s.cfg (s.g.b.getLsbD s.g.i) else s.g.h) < s.cfg.tper.toNat := by
    split
    · exact (highTime_le hwf hg _).2
    · next hne => exact h.high hne
  exact if_neg (by omega)

theorem InBurst.congr {s t : State} (h : InBurst s) (hg : t.g = s.g) (hc : t.cfg = s.cfg) : InBurst t := by
  obtain ⟨hphase, hbit, hbyte, hcount, hhigh⟩ := h
  rw [← hg] at hphase hbit hbyte hcount hhigh
  rw [← hc] at hcount hhigh
  exact ⟨hphase, hbit, hbyte, hcount, hhigh⟩

/-- A fault with the engine in BURST and the pin low. -/
def StuckLow (f : Fault) : Prop := f.left.g.phase = .burst ∧ f.left.pin = .low

/-- The end-of-slot part is stuck only at the read of a next byte, at the end of a slot. -/
theorem burstAdvance_stuckLow {a : Nat} {s : State} (hp : s.g.phase = .burst) (hlow : s.cfg.tper.toNat ≤ s.g.c → s.pin = .low) :
    Sat (burstAdvance a s) (fun _ => True) StuckLow := by
  unfold burstAdvance
  split
  · next hend =>
    split
    · trivial
    · split
      · refine Sat.bind (Q' := fun _ => True) ((memRead_sat (lo := 0) (hi := 0) _).mono (fun _ _ => trivial) fun f hf => ?_)
          fun _ _ => trivial
        exact ⟨by rw [hf.g]; exact hp, hf.pin.trans (hlow (hend ▸ slotLen_ge ..))⟩
      · trivial
  · trivial

theorem burstCycle_stuckLow {a : Nat} {s : State} (hwf : cfgWf s.cfg = true) (hg : s.cfg.transport = .gpio) (h : InBurst s) :
    Sat (burstCycle a s) (fun _ => True) StuckLow := by
  refine Sat.bind (tick_sat (lo := 0) (hi := 0) s) fun u hu => ?_
  have hin : InBurst u := h.congr hu.1.g hu.1.cfg
  have hcfg := hu.1.cfg
  exact burstAdvance_stuckLow hin.phase (burstLevel_low (hcfg ▸ hwf) (hcfg ▸ hg) hin)

theorem burstRun_stuckLow {a : Nat} : ∀ (fuel : Nat) {s : State}, cfgWf s.cfg = true → s.cfg.transport = .gpio →
    (s.g.phase = .burst → InBurst s) → Sat (burstRun a fuel s) (fun _ => True) StuckLow := by
  intro fuel
  induction fuel with
  | zero => exact fun _ _ _ => trivial
  | succ fuel ih =>
    intro s hwf hg h
    unfold burstRun
    split
    · next hp =>
      refine Sat.bind (((burstCycle_pos hwf hg (h hp)).and (burstCycle_stuckLow hwf hg (h hp))).mono (fun _ ht => ht.1)
        fun _ hf => hf.2) fun t ht => ?_
      obtain ⟨hcfg, -, ⟨hin, -⟩ | ⟨hleft, -⟩⟩ := ht
      · exact ih (hcfg ▸ hwf) (hcfg ▸ hg) fun _ => hin
      · exact ih (hcfg ▸ hwf) (hcfg ▸ hg) fun hburst => by rw [hleft] at hburst; cases hburst
    · trivial

/-- Burst entry leaves the engine in BURST, if the burst has a byte; it is stuck with the pin as it was (R98). -/
theorem burstEnter_inBurst {a nb : Nat} {s : State} (hwf : cfgWf s.cfg = true) (hg : s.cfg.transport = .gpio) :
    Sat (burstEnter a nb s) (fun t => t.cfg = s.cfg ∧ (t.g.phase = .burst → InBurst t))
      (fun f => f.left.g.phase = .burst ∧ f.left.pin = s.pin) := by
  unfold burstEnter
  split
  · exact ⟨rfl, nofun⟩
  · refine Sat.bind ((memRead_sat (lo := 0) (hi := 0) _).mono (fun _ h => h) fun f hf => ⟨by rw [hf.g], hf.pin⟩) fun x hx => ?_
    have htper := timing_wf hwf hg
    have hlen := slotLen_ge s.cfg nb 0 7
    refine ⟨hx.cfg, fun _ => ⟨by simp only [hx.g], by simp only [hx.g]; omega, by simp only [hx.g]; omega, ?_, ?_⟩⟩
    · simp only [hx.g, drew_cfg, hx.cfg]; omega
    · simp [hx.g]

/-- A burst is stuck in BURST, its pin as before it or low. -/
theorem burst_stuckLow {a nb : Nat} {s : State} (hwf : cfgWf s.cfg = true) (hg : s.cfg.transport = .gpio) :
    Sat (burst a nb s) (fun _ => True) (fun f => f.left.g.phase = .burst ∧ (f.left.pin = s.pin ∨ f.left.pin = .low)) := by
  refine Sat.bind ((burstEnter_inBurst hwf hg).mono (fun _ h => h) fun _ hf => ⟨hf.1, .inl hf.2⟩) fun t ht => ?_
  obtain ⟨hcfg, hin⟩ := ht
  exact (burstRun_stuckLow _ (hcfg ▸ hwf) (hcfg ▸ hg) hin).mono (fun _ h => h) fun _ hf => ⟨hf.1, .inr hf.2⟩

/-! ### Where UPDATE_RGB.GPIO is stuck (R153) -/

/-- `f` is a fault in the burst of an UPDATE_RGB.GPIO whose clock was granted in state `s`. -/
structure StuckInBurst (s : State) (f : Fault) : Prop where
  state : f.left.status.state = s.status.state
  phase : f.left.g.phase = .burst
  irqMask : f.left.irqMask = true
  clkReq : f.left.clkReq = true
  pin : f.left.pin = s.pin ∨ f.left.pin = .low

/-- From the clock's answer on only the burst of a granted one can be stuck (R153). -/
theorem gpioAnswered_stuck {a n : Nat} {ans : Answer} {s : State} (hwf : cfgWf s.cfg = true) (hg : s.cfg.transport = .gpio) :
    Sat (gpioAnswered a n ans s) (fun _ => True) fun f => StuckInBurst s f ∧ BurstStuck a (stride s.cfg * n) s f := by
  cases ans with
  | fail e => exact (complete_sat (lo := 0) (hi := 0) _ _ s).mono (fun _ _ => trivial) fun _ h => h
  | ok =>
    have hburst := (burst_sat (lo := 0) (hi := 0) (a := a) (nb := stride s.cfg * n) (setMask true { s with clkReq := true })).and
      ((burst_stuckLow (by exact hwf) (by exact hg)).and burst_stuck)
    refine Sat.bind (Q' := fun _ => True) (hburst.mono (fun _ _ => trivial) fun f hf => ?_)
      fun u _ => (gpioRelease_sat (lo := 0) (hi := 0) (setMask false u)).mono (fun _ _ => trivial) fun _ h => h
    obtain ⟨hk, ⟨hphase, hpin⟩, hstuck⟩ := hf
    exact ⟨⟨by rw [hk.status]; rfl, hphase, hk.irqMask, hk.clkReq, hpin⟩, hstuck.near (.of_eq rfl rfl rfl)⟩

/-- After its layout `u` and the clock's answer `x` the command is in TRANSMITTING, its pin as before (R106). -/
theorem StuckInBurst.of_asked {lo hi : Nat} {s u x : State} {e : Event} {f : Fault}
    (hu : MemStep lo hi (setPhase .layout (setState .transmitting s)) u) (hx : Asked (setPhase .clkReq u) e x)
    (h : StuckInBurst x f) : StuckInBurst (setState .transmitting s) f where
  state := by rw [h.state, hx.status]; exact congrArg Status.state hu.status
  phase := h.phase
  irqMask := h.irqMask
  clkReq := h.clkReq
  pin := h.pin.imp_left fun hp => hp.trans (hx.pin.trans hu.pin)

/-- A byte that a layout left readable is refused to the burst only after a remap. -/
theorem BurstStuck.remapped {a nb : Nat} {s u x : State} {f : Fault} (hsu : Acted s u)
    (hread : Remapped s u ∨ ∀ j, j < nb → admitsRead u (a + j) = true) (hux : Acted u x) (h : BurstStuck a nb x f) :
    Remapped s f.left := by
  obtain ⟨v, j, hxv, hj, hrefused, hleft⟩ := h
  have huv := hux.trans hxv
  have hsv : Remapped s v := by
    rcases hread with hread | hread
    · exact hread.trans huv
    · rcases huv.read (hread j hj) with hremap | hadmit
      · exact hsu.remapped hremap
      · rw [hadmit] at hrefused; cases hrefused
  rw [hleft]
  exact hsv.trans (.of_eq rfl rfl rfl)

/-- An UPDATE_RGB.GPIO is stuck in its layout, or in its burst after a remap, whatever the other agents do (R153). -/
theorem gpioRgb_stuck {a n : Nat} {s : State} (hwf : cfgWf s.cfg = true) (hg : s.cfg.transport = .gpio) :
    Sat (gpioRgb a n s) (fun _ => True) fun f =>
      MemStep a (a + stride s.cfg * n) (setPhase .layout (setState .transmitting s)) f.left ∨
        (StuckInBurst (setState .transmitting s) f ∧ Remapped s f.left) := by
  have hlayout := layoutFrom_sat (lo := a) (hi := a + stride s.cfg * n) (a := a) (k := n) (i := 0)
    (setPhase .layout (setState .transmitting s)) hwf (by simp) (by simp)
  rw [gpioRgb_eq]
  cases hl : layoutInplace a n (setPhase .layout (setState .transmitting s)) with
  | refused r => trivial
  | fault f => exact .inl (hlayout.of_fault hl)
  | next u =>
    have hu := hlayout.of_next hl
    obtain ⟨hsu, hread⟩ := layoutFrom_admits (s := setPhase .layout (setState .transmitting s)) hwf hl
    have hclock := (clockRequest_sat (F := fun _ => False) (setPhase .clkReq u)).and
      (clockRequest_goes (P := fun _ => True) (s := setPhase .clkReq u) trivial)
    rw [andThen_next]
    refine Sat.bind (hclock.mono (fun _ h => h) fun _ hf => hf.1.elim) fun x ⟨⟨_, hx⟩, hgo, _⟩ => ?_
    have hcfg : x.2.cfg = s.cfg := hx.cfg.trans hu.cfg
    refine (gpioAnswered_stuck (by rw [hcfg]; exact hwf) (by rw [hcfg]; exact hg)).mono (fun _ h => h) fun f hf => .inr ?_
    obtain ⟨hin, hstuck⟩ := hf
    refine ⟨hin.of_asked hu hx, ?_⟩
    rw [hcfg] at hstuck
    refine hstuck.remapped (s := s) (u := u) hsu (hread.imp_right fun h j hj => h j (by simp) ?_)
      (Acted.trans (.of_eq rfl rfl rfl) hgo.acted)
    rw [Nat.zero_add]; exact hj

theorem updateRgbGpio_stuck {s : State} {f : Fault} (hwf : cfgWf s.cfg = true) (h : exec .updateRgbGpio s = .fault f) :
    (∃ lo hi a n, MemStep lo hi (setPhase .layout (setState .transmitting { s with race := .over a n })) f.left) ∨
      (StuckInBurst (setState .transmitting s) f ∧ Remapped s f.left) := by
  obtain ⟨hg, -, -, -, hrun⟩ := accept_accepted (t := .gpio) (run := gpioRgb) fun r hr => by
    rw [show exec .updateRgbGpio s = _ from hr] at h; cases h
  rcases (gpioRgb_stuck (by exact hwf) (by exact hg)).of_fault (hrun.symm.trans h) with hlayout | ⟨hin, hremap⟩
  · exact .inl ⟨_, _, _, _, hlayout⟩
  · exact .inr ⟨⟨hin.state, hin.phase, hin.irqMask, hin.clkReq, hin.pin⟩, hremap⟩

/-- Without other agents there is no remap. -/
theorem not_remapped_of_alone {s t : State} (ho : Alone s) : ¬ Remapped s t := by
  rintro ⟨done, rs, hops, hrs⟩
  rw [ho, List.map_nil, List.nil_eq, List.append_eq_nil_iff] at hops
  rw [hops.1] at hrs
  cases hrs

/-! ### A remap between the layout and the burst (R153) -/

/-- A run that an agent's operation outwaits brings it nearer by its micro-steps. -/
theorem Runs.outwaited {τ : Type} {op : State → Out τ} {g : State → τ} {s t : State} {ws : List Word} (h : Runs op g s t ws) {d : Nat}
    {x : AgentOp} (ho : s.others = [⟨d + ws.length, x⟩]) : ∃ u, op s = .next (g u) ∧ u.others = [⟨d, x⟩] := by
  have hs : s = put s.addr s.count s.loads [⟨d + ws.length, x⟩] s := by rw [← ho]; rfl
  exact ⟨_, (congrArg op hs).trans (h.waits ..), rfl⟩

/-- The admission is gone before the next micro-step: it is empty and nobody acts, or an agent is about to empty it. -/
def Unmapped (s : State) : Prop := (s.others = [] ∧ s.regions = []) ∨ s.others = [⟨0, .remap []⟩]

theorem Unmapped.tick {s : State} (h : Unmapped s) : ∃ u, tick s = .next u ∧ u.regions = [] := by
  rcases h with ⟨ho, hregions⟩ | ho
  · exact ⟨s, tick_alone ho, hregions⟩
  · exact ⟨{ s with regions := [], others := [] }, by rw [Machine.tick, ho]; rfl, rfl⟩

theorem memRead_unmapped {s : State} (h : Unmapped s) (a : Nat) : ∃ left, memRead a s = .fault (.stuckRead a left) := by
  obtain ⟨u, hu, hregions⟩ := h.tick
  have hrefused : admitsRead u a = false := by simp [admitsRead, hregions]
  exact ⟨settle u, by simp [memRead, hu, hrefused]⟩

/-- A burst without admission is stuck at its first read. -/
theorem burst_unmapped {a nb : Nat} {s : State} (h : Unmapped s) (hnb : nb ≠ 0) : ∃ left, burst a nb s = .fault (.stuckRead a left) := by
  obtain ⟨left, hread⟩ := memRead_unmapped
    (s := { s with g := { s.g with nb := nb, j := 0, i := 7, c := 0, phase := .burst } }) h (a + 0)
  refine ⟨left, ?_⟩
  unfold burst burstEnter
  rw [if_neg hnb, hread]
  rfl

theorem gpioTransmit_unmapped {a n : Nat} {s : State} (h : Unmapped s) (hn : 0 < n) :
    ∃ left, gpioTransmit a n s = .fault (.stuckRead a left) := by
  obtain ⟨left, hburst⟩ := burst_unmapped (a := a) (s := setMask true { s with clkReq := true }) h
    (Nat.mul_pos (stride_pos s.cfg) hn).ne'
  exact ⟨left, by rw [gpioTransmit, hburst]; rfl⟩

/-- A clock request as an agent's remap comes due at it or right after it. -/
theorem clockRequest_unmapped {s : State} {d : Nat} (ho : s.others = [⟨d, .remap []⟩]) (hd : d = 0 ∨ d = 1) :
    ∃ u, clockRequest s = .next (answerOfWord (replyAt s 0).error, u) ∧ Unmapped u := by
  rcases hd with rfl | rfl
  · exact ⟨emit _ (tookReply { s with regions := [], others := [] }), by rw [clockRequest, Machine.tick, ho]; rfl, .inl ⟨rfl, rfl⟩⟩
  · exact ⟨emit _ (tookReply { s with others := [⟨0, .remap []⟩] }), by rw [clockRequest, Machine.tick, ho]; rfl, .inr rfl⟩

/-- An UPDATE_RGB.GPIO with its clock granted whose admission goes between the layout and the burst's first read is stuck there. -/
theorem gpioRgb_unmapped {a n d : Nat} {s : State} (hwf : cfgWf s.cfg = true) (hg : s.cfg.transport = .gpio)
    (ha : RecordsReadable s a n) (hw : BytesWritable s a (stride s.cfg * n)) (hn : 0 < n) (h0 : (replyAt s 0).error = 0)
    (ho : s.others = [⟨d, .remap []⟩]) (hd : d = (3 + stride s.cfg) * n ∨ d = (3 + stride s.cfg) * n + 1) :
    ∃ left, gpioRgb a n s = .fault (.stuckRead a left) ∧ StuckInBurst (setState .transmitting s) (.stuckRead a left) := by
  obtain ⟨e, rfl, he⟩ : ∃ e, d = e + (3 + stride s.cfg) * n ∧ (e = 0 ∨ e = 1) :=
    ⟨d - (3 + stride s.cfg) * n, by omega, by omega⟩
  obtain ⟨t, hruns, -⟩ := layoutFrom_runs (s := setPhase .layout (setState .transmitting s)) (a := a) (k := n) (i := 0)
    (fun j hj b hb => ha j (by omega) b hb) (fun j hj ch hch => by
      have hch' := order_lt hwf hch
      have hle := Nat.mul_le_mul_left (stride s.cfg) (show j + 1 ≤ n by omega)
      rw [Nat.mul_succ] at hle
      rw [wireAddr, Nat.add_assoc]
      exact hw _ (Nat.lt_of_lt_of_le (Nat.add_lt_add_left hch' _) hle))
  obtain ⟨u, hlayout, hou⟩ := hruns.outwaited (d := e) (x := .remap []) (by rw [List.length_replicate]; exact ho)
  have hu := (layoutFrom_sat (lo := a) (hi := a + stride s.cfg * n) (a := a) (k := n) (i := 0)
    (setPhase .layout (setState .transmitting s)) hwf (by simp) (by simp)).of_next hlayout
  obtain ⟨x, hclock, hx⟩ := clockRequest_unmapped (s := setPhase .clkReq u) hou he
  have hgranted : answerOfWord (replyAt (setPhase .clkReq u) 0).error = .ok :=
    answerOfWord_eq_ok.mpr ((congrArg Reply.error (hu.reply 0)).trans h0)
  rw [hgranted] at hclock
  obtain ⟨left, hstuck⟩ := gpioTransmit_unmapped (a := a) hx hn
  have hasked := ((clockRequest_sat (F := fun _ => False) _).of_next hclock).2
  have hcfg : x.cfg = s.cfg := hasked.cfg.trans hu.cfg
  refine ⟨left, ?_, ?_⟩
  · rw [gpioRgb_eq, layoutInplace, hlayout, andThen_next, id, hclock]
    exact hstuck
  · exact ((gpioAnswered_stuck (ans := .ok) (by rw [hcfg]; exact hwf) (by rw [hcfg]; exact hg)).of_fault hstuck).1.of_asked hu hasked

end Sys2Proof.Machine

namespace Sys2Proof.Proofs

open Sys2Proof.Machine

/-- Settles O28: burst entry stands at the start of slot 0, from which every cycle follows slot by slot. -/
theorem burstProducesTheClosedForm : Obligations.BurstProducesTheClosedForm := by
  intro s a ws hwf hg ho hr hne hws
  refine ⟨_, burstEnter_alone ho hr hne hws, fun t ht => ?_⟩
  exact burstRun_cycle (by exact hwf) (by exact hg) (by exact ho) (by exact hr) hne (by exact hws)
    (atSlot_zero rfl rfl rfl rfl rfl rfl rfl hne) ht

/-- Settles O29. -/
theorem slotsAreFixedLength : Obligations.SlotsAreFixedLength := by
  intro c nb k hnb hk
  refine ⟨slotStart_succ c, fun hlast => ?_, ?_, if_neg hnb.ne', if_pos rfl⟩
  · rw [burstLength_last c hnb, show 8 * nb - 1 = k by omega]
  · have hgap : 7 - k % 8 = 0 ∧ k / 8 + 1 < nb ↔ k % 8 = 7 ∧ k + 1 < 8 * nb := by omega
    simp only [slotLen, hgap]

/-- Settles O30. -/
theorem slotIsHighForItsBit : Obligations.SlotIsHighForItsBit :=
  fun _ _ _ _ hwf hg hk hx => pinAt_inSlot hwf hg hk hx

/-- Settles O32. -/
theorem gpioClockRequestFailure : Obligations.GpioClockRequestFailure := by
  intro s ⟨⟨hg, hready, hidle, hrange⟩, hwf, ho, hread, hwrite⟩ hm h0
  rw [show exec .updateRgbGpio s = _ from accept_of_takes hg hready hidle hrange]
  obtain ⟨m, hmem, hrun⟩ := gpioRgb_requestFails_alone
    (s := { s with race := .over (operandA s) (rgbRange s.cfg (operandN s)) }) (a := operandA s) (n := operandN s)
    hwf hg ho rfl hm hread hwrite h0
  exact ⟨_, hrun, by rw [← hready]; rfl, rfl, hmem, rfl, rfl, rfl⟩

/-- Settles O33: the burst was sent, and `finish` reports the release's error. -/
theorem gpioClockReleaseFailure : Obligations.GpioClockReleaseFailure := by
  intro s ⟨⟨hg, hready, hidle, hrange⟩, hwf, ho, hread, hwrite⟩ hm h0 h1
  rw [show exec .updateRgbGpio s = _ from accept_of_takes hg hready hidle hrange]
  obtain ⟨u, t0, hsent, hrun⟩ := gpioRgb_granted_alone
    (s := { s with race := .over (operandA s) (rgbRange s.cfg (operandN s)) }) (a := operandA s) (n := operandN s)
    hwf hg ho rfl hm hread hwrite h0
  have hreply : replyAt u 0 = replyAt s 1 := hsent.reply
  rw [gpioRelease_fail_alone hsent.alone (hreply ▸ h1), finish_of_not_raced (by exact hsent.notRaced), hreply] at hrun
  refine ⟨_, t0, hrun, hsent.start, ?_, ?_, hsent.irqMask⟩
  · simp [hsent.status, hready]
  · simp [hsent.trace]

/-- Settles O35. -/
theorem gpioResultSet : Obligations.GpioResultSet := by
  intro s t
  refine ⟨fun h => ?_, fun h => by rw [updateChannelsGpio_next h]; rfl⟩
  have hrun := accept_next (run := gpioRgb) h
  rw [gpioRgb_eq] at hrun
  obtain ⟨u, -, hrun⟩ := andThen_eq_next hrun
  obtain ⟨x, -, hrun⟩ := andThen_eq_next hrun
  exact (gpioAnswered_result _ _ _ _).of_next hrun

/-- Settles O26: with an empty caller range nothing but READY and STATE is left to check, and the run is `finish`. -/
theorem gpioChannelsIsUnsupported : Obligations.GpioChannelsIsUnsupported := by
  intro s hg hready hidle
  refine ⟨?_, by decide, by rw [exec_wrCmd, hg]; rfl⟩
  rw [exec_updateChannelsGpio, accept_of_takes hg hready hidle (channelsRange_gpio_fits hg), finish_of_not_raced (by rfl), ← hready]
  rfl

/-- Settles O36. -/
theorem maskPulsesOncePerGrantedBurst : Obligations.MaskPulsesOncePerGrantedBurst := by
  refine ⟨fun s t hwf hmask h => ?_, fun i s t hi h => ?_⟩
  · have hdone := updateRgbGpio_gpioDone hwf h
    obtain ⟨new, htrace, hpulse⟩ := hdone.trace
    have hclear := hdone.irqMask
    rw [show State.irqMask { s with race := _ } = false from hmask, ite_self] at hclear
    exact ⟨new, htrace, hclear, hpulse⟩
  · obtain ⟨hmask, new, htrace, hfree⟩ := exec_maskFree hi h
    exact ⟨new, htrace, hmask, List.filter_eq_nil_iff.mpr fun e he => by rw [hfree e he]; decide⟩

/-- Settles O37. -/
theorem gpioIsStuckOnlyInTheLayout : Obligations.GpioIsStuckOnlyInTheLayout := by
  intro s f hwf ho h
  rcases updateRgbGpio_stuck hwf h with ⟨lo, hi, a, n, hl⟩ | ⟨-, hremap⟩
  · exact ⟨by rw [hl.status]; rfl, by rw [hl.g]; rfl, hl.irqMask, hl.clkReq, hl.pin, hl.trace⟩
  · exact absurd hremap (not_remapped_of_alone ho)

/-- Settles O38: a burst is refused a byte its layout had written only after a remap, and one that falls between them does it. -/
theorem gpioIsStuckInTheBurstOnlyAfterARemap : Obligations.GpioIsStuckInTheBurstOnlyAfterARemap := by
  refine ⟨fun s f hwf hpin h => ?_, fun s d hruns hpin hn h0 ho hd => ?_⟩
  · rcases updateRgbGpio_stuck hwf h with ⟨lo, hi, a, n, hl⟩ | ⟨hin, hremap⟩
    · exact ⟨by rw [hl.status]; rfl, .inl ⟨by rw [hl.g]; rfl, hl.irqMask, hl.clkReq, hl.pin.trans hpin⟩⟩
    · exact ⟨hin.state, .inr ⟨hin.phase, hin.irqMask, hin.clkReq, hin.pin.elim (·.trans hpin) id, hremap⟩⟩
  · obtain ⟨⟨hg, hready, hidle, hrange⟩, hwf, -, hread, hwrite⟩ := hruns
    obtain ⟨left, hrun, hin⟩ := gpioRgb_unmapped (s := { s with race := .over (operandA s) (rgbRange s.cfg (operandN s)) })
      (a := operandA s) (n := operandN s) hwf hg hread hwrite hn h0 ho hd
    exact ⟨left, (accept_of_takes (s := s) hg hready hidle hrange).trans hrun, hin.state, hin.phase, hin.irqMask, hin.clkReq,
      hin.pin.elim (·.trans hpin) id⟩

end Sys2Proof.Proofs
end

section
/-! PROOFS. The statements of the family of 42_spi_transport.md: the frame lookup, UPDATE_RGB.SPI within and beyond its capacity,
UPDATE_CHANNELS.SPI with and without a failing channel, and where an SPI command is stuck. -/

namespace Sys2Proof.Machine

/-! ### The frame lookup (R116, R117) -/

theorem eq_one_or_zero_of_mem_ser {c : Cfg} {v f : Byte} (h : f ∈ ser c v) : f = c.oneFrame ∨ f = c.zeroFrame := by
  obtain ⟨k, -, rfl⟩ := List.mem_map.mp h
  split
  · exact .inl rfl
  · exact .inr rfl

/-! ### UPDATE_RGB.SPI alone (R118 to R123, R159) -/

/-- The caller range of an UPDATE_RGB.SPI beyond its capacity is empty (R53), so no ADDR makes it pass 2^32. -/
theorem rgbRange_overCapacity_fits {s : State} (hspi : s.cfg.transport = .spi) (hcap : s.cfg.maxPixels.toNat < operandN s) :
    operandA s + rgbRange s.cfg (operandN s) ≤ addressSpace := by
  simp only [rgbRange, hspi, gt_iff_lt, hcap, if_true, operandA, addressSpace, Nat.add_zero]
  exact s.addr.isLt.le

/-- The result of an UPDATE_RGB.SPI in its two error words (R159). -/
theorem rgbSpiResult_result (e e' : Word) : (rgbSpiResult (answerOfWord e) (answerOfWord e')).1 =
    if e = 0 ∧ e' = 0 then .ok else .busFailure := by
  by_cases he : e = 0
  · by_cases he' : e' = 0 <;> simp only [rgbSpiResult, answerOfWord, he, he', and_true, and_false, if_true, if_false]
  · simp only [rgbSpiResult, answerOfWord, he, false_and, if_false]

/-- Its detail: the DATA error wins (R159). -/
theorem rgbSpiResult_detail (e e' : Word) : (rgbSpiResult (answerOfWord e) (answerOfWord e')).2.truncate 16 =
    if e = 0 then e'.truncate 16 else e.truncate 16 := by
  by_cases he : e = 0
  · by_cases he' : e' = 0 <;> simp only [rgbSpiResult, answerOfWord, he, he', if_true, if_false]
  · simp only [rgbSpiResult, answerOfWord, he, if_false]

/-- STAGE has room for the frames of as many pixels as the capacity (R21). -/
theorem frames_le_stageBytes {c : Cfg} {n : Nat} (hspi : c.transport = .spi) (hcap : n ≤ c.maxPixels.toNat) :
    8 * (stride c * n) ≤ stageBytes c := by
  rw [stageBytes, hspi, ← Nat.mul_assoc]
  exact Nat.mul_le_mul_left _ hcap

theorem updateRgbSpi_alone {s : State} (h : SpiRgbRuns s) (hsize : s.stage.length = stageBytes s.cfg) :
    ∃ sI race, exec .updateRgbSpi s = .next (spiRgbLeft (operandA s) (operandN s) sI { s with race := race }) := by
  obtain ⟨⟨hspi, hready, hidle, hrange⟩, ho, hcap, hread⟩ := h
  obtain ⟨sI, hrun⟩ := spiRgb_alone (s := { s with race := .over (operandA s) (rgbRange s.cfg (operandN s)) })
    ho rfl hcap hread (hsize ▸ frames_le_stageBytes hspi hcap)
  exact ⟨sI, _, (accept_of_takes hspi hready hidle hrange).trans hrun⟩

/-! ### UPDATE_CHANNELS.SPI alone (R124, R125, R160) -/

/-- The end of an UPDATE_CHANNELS.SPI in `s` after `j` channels: their events, then Done (R124). -/
structure ChannelsEnded (j : Nat) (r : ResultCode) (d : Word) (s t : State) : Prop where
  same : t = { s with status := t.status, sJ := t.sJ, chbuf := t.chbuf, trace := t.trace, replies := t.replies, asked := t.asked,
                      race := t.race }
  status : t.status = { result := r, state := .idle, ready := s.status.ready, detail := d.truncate 16 }
  trace : t.trace = s.trace ++ (List.range j).flatMap (channelEvents s) ++ [.done r (d.truncate 16)]

/-- `finish` after `j` channels is the end of the command. -/
theorem ChannelsSent.ended {j : Nat} {race : Race} {s t : State}
    (h : ChannelsSent (operandA s) j { s with sJ := 0, race := race } t) (hr : race.raced = []) (r : ResultCode) (d : Word) :
    ChannelsEnded j r d s (finish r d t) := by
  have hquiet : t.race.raced = [] := by rw [h.same]; exact hr
  refine ⟨?_, ?_, ?_⟩
  · rw [finish_of_not_raced hquiet, h.same]
  · rw [← show t.status.ready = s.status.ready from h.ready]; rfl
  · rw [finish_trace, h.trace]; rfl

/-- A channel with a failed write ends the command, with the DATA error if there is one (R125, R160). -/
theorem channelsFrom_fails_alone {a j k : Nat} {s : State} (ho : Alone s) (hr : s.race.raced = [])
    (ha : admitsRead s (a + j) = true) (hfail : ¬ ((replyAt s 0).error = 0 ∧ (replyAt s 1).error = 0)) :
    channelsFrom a j (k + 1) s = .next (finish .busFailure
      (if (replyAt s 0).error = 0 then (replyAt s 1).error else (replyAt s 0).error) (channelLeft a j s)) := by
  rw [channelsFrom, channelSend_alone ho hr ha, andThen_next]
  by_cases h0 : (replyAt s 0).error = 0
  · have h1 : (replyAt s 1).error ≠ 0 := fun h1 => hfail ⟨h0, h1⟩
    simp only [answerOfWord, h0, h1, if_true, if_false]
    exact complete_alone ho
  · simp only [answerOfWord, h0, if_false]
    exact complete_alone ho

/-- An accepted UPDATE_CHANNELS.SPI whose first `j` channels are answered ok goes on with channel `j` (R124). -/
theorem updateChannelsSpi_sent {s : State} {j : Nat} (h : SpiChannelsRuns s) (hj : j ≤ operandN s) (hok : ChannelsOk s j) :
    ∃ race t, race.raced = [] ∧ ChannelsSent (operandA s) j { s with sJ := 0, race := race } t ∧
      exec .updateChannelsSpi s = channelsFrom (operandA s) j (operandN s - j) t := by
  obtain ⟨⟨hspi, hready, hidle, hrange⟩, ho, hread⟩ := h
  obtain ⟨t, hrun, hsent⟩ := channelsFrom_ok_alone
    (s := { s with sJ := 0, race := .over (operandA s) (channelsRange s.cfg (operandN s)) }) ho rfl hread j hj hok
  exact ⟨_, t, rfl, hsent, (accept_of_takes (run := spiChannels) hspi hready hidle hrange).trans hrun⟩

/-- With every write answered ok the command ends after its last channel, with OK (R124). -/
theorem updateChannelsSpi_ok {s : State} (h : SpiChannelsRuns s) (hok : ChannelsOk s (operandN s)) :
    ∃ t, exec .updateChannelsSpi s = .next t ∧ ChannelsEnded (operandN s) .ok 0 s t := by
  have ⟨_, ho, _⟩ := h
  obtain ⟨race, t, hraced, hsent, hrun⟩ := updateChannelsSpi_sent h (Nat.le_refl _) hok
  have ho' : Alone t := by rw [hsent.same]; exact ho
  rw [Nat.sub_self, channelsFrom, channelsDone_alone ho'] at hrun
  exact ⟨_, hrun, hsent.ended hraced .ok 0⟩

/-- At the first channel `j` with a failed write the command ends, after that channel's events (R125, R160). -/
theorem updateChannelsSpi_fails {s : State} {j : Nat} (h : SpiChannelsRuns s) (hj : j < operandN s) (hok : ChannelsOk s j)
    (hfail : ¬ ((replyAt s (2 * j)).error = 0 ∧ (replyAt s (2 * j + 1)).error = 0)) :
    ∃ t, exec .updateChannelsSpi s = .next t ∧ ChannelsEnded (j + 1) .busFailure
      (if (replyAt s (2 * j)).error = 0 then (replyAt s (2 * j + 1)).error else (replyAt s (2 * j)).error) s t := by
  have ⟨_, ho, hread⟩ := h
  obtain ⟨race, t, hraced, hsent, hrun⟩ := updateChannelsSpi_sent h hj.le hok
  have ho' : Alone t := by rw [hsent.same]; exact ho
  have hquiet : t.race.raced = [] := by rw [hsent.same]; exact hraced
  have hread' : admitsRead t (operandA s + j) = true := by
    rw [← hread j hj]
    exact admitsRead_congr (by rw [hsent.same]) (by rw [hsent.same]) _
  have h0 : replyAt t 0 = replyAt s (2 * j) := hsent.reply 0
  have h1 : replyAt t 1 = replyAt s (2 * j + 1) := hsent.reply 1
  obtain ⟨k, hk⟩ : ∃ k, operandN s - j = k + 1 := ⟨operandN s - j - 1, by omega⟩
  rw [hk, channelsFrom_fails_alone ho' hquiet hread' (by rw [h0, h1]; exact hfail), h0, h1] at hrun
  exact ⟨_, hrun, hsent.succ.ended hraced .busFailure _⟩

/-! ### Where an SPI command is stuck (R153) -/

theorem updateRgbSpi_stuck {s : State} {f : Fault} (h : exec .updateRgbSpi s = .fault f) :
    f.left.status.state = .encoding ∧ Pairs 0 s f.left := by
  have hsat : Sat (exec .updateRgbSpi s) (fun _ => True) fun f => f.left.status.state = .encoding ∧ Pairs 0 s f.left :=
    accept_sat fun hspi _ _ _ => (spiRgb_sat (s := { s with race := .over _ _ }) hspi).mono (fun _ _ => trivial) fun _ hf => hf
  exact hsat.of_fault h

theorem updateChannelsSpi_stuck {s : State} {f : Fault} (h : exec .updateChannelsSpi s = .fault f) :
    f.left.status.state = .encoding ∧ ∃ k, Pairs k s f.left := by
  have hsat : Sat (exec .updateChannelsSpi s) (fun _ => True)
      fun f => f.left.status.state = .encoding ∧ ∃ k, Pairs k s f.left :=
    accept_sat fun _ _ _ _ => (channelsFrom_sat _).mono (fun _ _ => trivial) fun _ hf => hf
  exact hsat.of_fault h

end Sys2Proof.Machine

namespace Sys2Proof.Proofs

open Sys2Proof.Machine

/-- Settles O41: it ends in `spiRgbLeft`, whatever its two writes answer. -/
theorem spiRgbSendsTheFramesThenTheReset : Obligations.SpiRgbSendsTheFramesThenTheReset := by
  intro s hruns hsize
  have ⟨⟨_, hready, _⟩, _⟩ := hruns
  obtain ⟨sI, race, hrun⟩ := updateRgbSpi_alone hruns hsize
  refine ⟨_, hrun, ⟨?_, ?_, ?_, rfl⟩, rfl, rfl, rfl, rfl, rfl, rfl, rfl, rfl, rfl, rfl, rfl, rfl⟩
  · rw [serAll_length, wireStream_length, Nat.mul_assoc]
  · simp only [spiRgbLeft, rgbSpiResult_result, rgbSpiResult_detail]; rfl
  · simp only [spiRgbLeft, rgbSpiResult_result, rgbSpiResult_detail, ← hready]; rfl

/-- Settles O42. -/
theorem spiChannelsSendsEachChannel : Obligations.SpiChannelsSendsEachChannel := by
  intro s hruns hok
  have ⟨⟨_, hready, _⟩, _⟩ := hruns
  obtain ⟨t, hrun, hsame, hstatus, htrace⟩ := updateChannelsSpi_ok hruns hok
  rw [hready] at hstatus
  refine ⟨t, hrun, hstatus, htrace, ?_⟩
  rw [hsame]
  exact ⟨rfl, rfl, rfl, rfl, rfl, rfl, rfl, rfl, rfl, rfl, rfl, rfl⟩

/-- Settles O43. -/
theorem spiChannelsStopsAtTheFailingChannel : Obligations.SpiChannelsStopsAtTheFailingChannel := by
  intro s j hruns hj hok hfail
  have ⟨⟨_, hready, _⟩, _⟩ := hruns
  obtain ⟨t, hrun, hsame, hstatus, htrace⟩ := updateChannelsSpi_fails hruns hj hok hfail
  rw [hready] at hstatus
  exact ⟨t, hrun, ⟨hstatus, htrace⟩, by rw [hsame]⟩

/-- Settles O47. -/
theorem spiResultSet : Obligations.SpiResultSet := by
  intro s t
  refine ⟨fun h => ?_, fun h => ?_⟩
  · obtain ⟨-, -, -, -, -, -, hresult, -⟩ := (spiRgb_sat (by exact accept_transport h)).of_next (accept_next h)
    rcases hresult with ⟨hok | hcap, -⟩ | hbus
    · exact .inl hok
    · exact .inr (.inl hcap)
    · exact .inr (.inr hbus)
  · obtain ⟨-, -, -, -, -, -, hresult, -⟩ := (channelsFrom_sat _).of_next (accept_next (run := spiChannels) h)
    exact hresult.imp_left And.left

/-- Settles O48. -/
theorem spiIsStuckOnlyWhileEncoding : Obligations.SpiIsStuckOnlyWhileEncoding := by
  intro i s f hi h
  rcases hi with rfl | rfl
  · obtain ⟨hstate, -, new, htrace, hlabels, -⟩ := updateRgbSpi_stuck h
    exact ⟨hstate, new, 0, htrace, hlabels, fun _ => rfl⟩
  · obtain ⟨hstate, k, -, new, htrace, hlabels, -⟩ := updateChannelsSpi_stuck h
    exact ⟨hstate, new, k, htrace, hlabels, fun hi => by cases hi⟩

/-- Settles O24. -/
theorem serIsEightFramesByBit : Obligations.SerIsEightFramesByBit :=
  fun c v => ⟨ser_length c v, fun _ hf => eq_one_or_zero_of_mem_ser hf, fun _ hk => ser_getElem? c v hk⟩

/-- Settles O40: with an empty caller range nothing but READY and STATE is left to check, and the run is `finish`. -/
theorem spiCapacityIsRejectedBeforeAnyEffect : Obligations.SpiCapacityIsRejectedBeforeAnyEffect := by
  intro s hspi hready hidle hcap
  have hrun := accept_of_takes (run := spiRgb) hspi hready hidle (rgbRange_overCapacity_fits hspi hcap)
  rw [spiRgb, if_pos (by exact hcap), finish_of_not_raced (by rfl)] at hrun
  rw [← hready]
  exact hrun

end Sys2Proof.Proofs
end

section
/-! PROOFS. The statements of the family of 43_reset_latch.md: the reset-frame count, and the reset write after every DATA write. -/

namespace Sys2Proof.Machine

/-! ### The reset-frame count (R129, R130) -/

theorem resetFrameCount_mono : Monotone resetFrameCount := fun _ _ h =>
  Nat.succ_le_succ (Nat.div_le_div_right (Nat.add_le_add_right (Nat.mul_le_mul_left 3 h) _))

theorem resetFrameCount_pos (f : Nat) : 1 ≤ resetFrameCount f := Nat.succ_pos _

/-- The quotient is rounded up, so it is 0 at frequency 0 only. -/
theorem resetFrameCount_eq_one_iff {f : Nat} : resetFrameCount f = 1 ↔ f = 0 := by
  unfold resetFrameCount
  omega

/-- The 8·RESET_FRAMES bit times of a reset write, in microseconds times the bus frequency: rounding up makes the quotient's frames at
least 6 microseconds, and the frame added makes them more. -/
theorem six_microseconds_lt_resetFrameCount (f : Nat) : 6 * f < 8 * resetFrameCount f * 1000000 := by
  unfold resetFrameCount
  omega

/-- The bound is the count at the highest 32-bit bus frequency. -/
theorem resetFrames_le (c : Cfg) : resetFrames c ≤ 3223 :=
  calc resetFrames c
    _ ≤ resetFrameCount (2 ^ 32 - 1) := resetFrameCount_mono (Nat.le_pred_of_lt c.busFreqHz.isLt)
    _ = 3223 := by decide

/-! ### The pairs of an SPI command (R131, R132) -/

theorem WriteOk.bytes_of_reset {c : Cfg} {bytes sent : List Byte} {ans : Answer} (h : WriteOk c (.bus .reset bytes ans sent)) :
    bytes = resetBytes c := (h .reset bytes ans sent rfl).2 rfl

/-- The pairs of an SPI command, of which UPDATE_RGB.SPI makes at most one. -/
theorem spiCommand_pairs_le_one_of_rgb {i : Instr} {s t : State} (hi : i = .updateRgbSpi ∨ i = .updateChannelsSpi)
    (h : exec i s = .next t) : ∃ k, (i = .updateRgbSpi → k ≤ 1) ∧ Pairs k s t := by
  rcases hi with rfl | rfl
  · obtain ⟨k, hk, hp⟩ := updateRgbSpi_pairs h
    exact ⟨k, fun _ => hk, hp⟩
  · obtain ⟨k, hp⟩ := updateChannelsSpi_pairs h
    exact ⟨k, nofun, hp⟩

end Sys2Proof.Machine

namespace Sys2Proof.Proofs

open Sys2Proof.Machine

/-- Settles O45: every completed SPI command made DATA and RESET pairs, and in a pair the reset write is LATCH's. -/
theorem resetWriteFollowsEveryDataWrite : Obligations.ResetWriteFollowsEveryDataWrite := by
  intro i s t hi h
  obtain ⟨k, hle, -, new, htrace, hlabels, hok⟩ := spiCommand_pairs_le_one_of_rgb hi h
  exact ⟨new, k, htrace, hlabels, fun _ _ _ he => (hok _ he).bytes_of_reset, hle⟩

/-- Settles O39. -/
theorem resetFrameCountProperties : Obligations.ResetFrameCountProperties := by
  refine ⟨fun c => ⟨rfl, resetFrameCount_pos _, resetFrames_le c, resetFrameCount_eq_one_iff, fun hf => ⟨?_, ?_⟩⟩,
    fun _ _ h => resetFrameCount_mono h⟩
  · have hne : resetFrames c ≠ 1 := fun h1 => hf.ne' (resetFrameCount_eq_one_iff.mp h1)
    exact lt_of_le_of_ne (resetFrameCount_pos _) hne.symm
  · exact six_microseconds_lt_resetFrameCount _

end Sys2Proof.Proofs
end

section
/-! PROOFS. The statements of the family of 44_interface.md: the accesses of the window, stores to read-only registers, the completion of
an accepted command store, and command stores of other agents while a command runs. -/

namespace Sys2Proof

/-! ### The accesses of the window (R24, R141, R143) -/

theorem exists_regOfIndex {k : Nat} (h : k ≤ 10) : ∃ r, regOfIndex k = some r := by
  interval_cases k <;> exact ⟨_, rfl⟩

/-- The registers are the aligned words up to 0x28 (R24). -/
theorem exists_offset_iff {off : Word} : (∃ r : Reg, off = r.offset) ↔ off.toNat % 4 = 0 ∧ off.toNat ≤ 0x28 := by
  constructor
  · rintro ⟨r, rfl⟩
    cases r <;> decide
  · rintro ⟨halign, hle⟩
    obtain ⟨r, hr⟩ := exists_regOfIndex (k := off.toNat / 4) (by omega)
    have := offset_of_regOfIndex hr
    exact ⟨r, BitVec.eq_of_toNat_eq (by omega)⟩

/-- The condition of `check_access` (R141). -/
theorem exists_checkAccess_eq_ok_iff {off : Word} {w : Nat} :
    (∃ r, checkAccess off w = .ok r) ↔ w = 4 ∧ off.toNat % 4 = 0 ∧ off.toNat ≤ 0x28 := by
  simp only [checkAccess_eq_ok_iff, exists_and_left, exists_offset_iff]

theorem checkAccess_eq_error {off : Word} {w : Nat} (h : ¬ (w = 4 ∧ off.toNat % 4 = 0 ∧ off.toNat ≤ 0x28)) :
    ∃ why, checkAccess off w = .error why := by
  cases hc : checkAccess off w with
  | ok r => exact absurd (exists_checkAccess_eq_ok_iff.mp ⟨r, hc⟩) h
  | error why => exact ⟨why, rfl⟩

/-- STATUS is the first read-only register, and all after it are (R24, R143). -/
theorem readOnly_of_le_offset {r : Reg} (h : 0x0C ≤ r.offset.toNat) : r.readOnly = true := by
  cases r with
  | cmd | addr | count => exact absurd h (by decide)
  | _ => rfl

end Sys2Proof

namespace Sys2Proof.Machine

/-- The program's next access, not admitted by `check_access`, refuses the step (R141). -/
theorem step_of_not_decoded {s : State} {code : Code} {rest : List ProgItem} {why : Reject} (hw : wellConstructed s = true)
    (ho : Alone s) (hb : s.boot = .complete) (hp : s.program = .op (.present code) :: rest)
    (hd : decode s.cfg.transport s.cfg.regBase code = .error why) : step s = .refused (.access why) := by
  rw [step_op hw ho hb hp]
  simp only [agentOp, hd]

/-! ### The one Done event of a command (R146, R147) -/

/-- An event that does not end a command. -/
abbrev NotDone (e : Event) : Prop := ∀ r d, e ≠ .done r d

theorem notDone_of_isMem {e : Event} (h : isMem e = true) : NotDone e := by
  rintro r d rfl
  cases h

theorem Grows.notDone {s t : State} (h : Grows (fun e => isMem e = true) s t) : Grows NotDone s t := h.mono fun _ => notDone_of_isMem

/-- What `o` comes to from `s` it comes to by `finish`, with no Done event before. -/
def Finishes (s : State) (o : Out State) : Prop := Sat o (fun t => ∃ u r d, Grows NotDone s u ∧ t = finish r d u) fun _ => True

section

variable {σ : Type} {s s' : State}

theorem Finishes.after {o : Out State} (hs : Grows NotDone s s') (h : Finishes s' o) : Finishes s o :=
  h.mono (fun _ ⟨u, r, d, hu, ht⟩ => ⟨u, r, d, hs.trans hu, ht⟩) fun _ => id

theorem Finishes.bind {o : Out σ} {f : σ → Out State} {p : σ → State} (h : Sat o (fun x => Grows NotDone s (p x)) fun _ => True)
    (hf : ∀ x, Finishes (p x) (f x)) : Finishes s (andThen o f) :=
  Sat.bind h fun x hx => (hf x).after hx

theorem complete_finishes (r : ResultCode) (d : Word) (s : State) : Finishes s (complete r d s) :=
  (complete_sat (lo := 0) (hi := 0) r d s).mono (fun _ ⟨u, _, hu, ht⟩ => ⟨u, r, d, .of_eq hu, ht⟩) fun _ => id

theorem gpioRelease_finishes (s : State) : Finishes s (gpioRelease s) := by
  refine Finishes.bind (p := Prod.snd) ((clockRelease_sat s).mono (fun _ hx => .one hx.2.trace nofun) fun _ => id) fun x => ?_
  split
  · exact (complete_finishes ..).after (.of_eq rfl)
  · exact (complete_finishes ..).after (.of_eq rfl)

theorem burst_notDone (a nb : Nat) (s : State) : Sat (burst a nb s) (Grows NotDone s) fun _ => True := by
  refine (burst_sat (lo := 0) (hi := 0) s).mono (fun _ h => h.trace.mono fun e he => ?_) fun _ _ => trivial
  rcases he with hmem | ⟨t0, ws, rfl⟩
  · exact notDone_of_isMem hmem
  · exact nofun

theorem gpioAnswered_finishes (a n : Nat) (ans : Answer) (s : State) : Finishes s (gpioAnswered a n ans s) := by
  cases ans with
  | fail e => exact complete_finishes _ e s
  | ok =>
    refine Finishes.after (s' := setMask true { s with clkReq := true }) (.one rfl nofun)
      (Finishes.bind (p := id) (burst_notDone ..) fun u => ?_)
    exact (gpioRelease_finishes _).after (.one (setMask_trace false u) nofun)

theorem gpioRgb_finishes {a n : Nat} (hwf : cfgWf s.cfg = true) : Finishes s (gpioRgb a n s) := by
  have hlayout := layoutFrom_sat (lo := a) (hi := a + stride s.cfg * n) (a := a) (i := 0) (k := n)
    (setPhase .layout (setState .transmitting s)) hwf (by simp) (by simp)
  rw [gpioRgb_eq]
  refine Finishes.bind (p := id) (hlayout.mono (fun _ h => h.trace.notDone) fun _ _ => trivial) fun u => ?_
  refine Finishes.bind (p := Prod.snd) ((clockRequest_sat _).mono (fun _ hx => .one hx.2.trace nofun) fun _ => id) fun x => ?_
  exact gpioAnswered_finishes a n x.1 x.2

theorem dataThenLatch_notDone (bytes : List Byte) (s : State) :
    Sat (dataThenLatch bytes s) (fun x => Grows NotDone s x.2) fun _ => True := by
  refine (dataThenLatch_sat s).mono (fun _ ⟨_, _, htrace, _⟩ => ⟨_, htrace, fun e he => ?_⟩) fun _ => id
  rcases List.mem_pair.mp he with rfl | rfl <;> exact nofun

theorem spiRgb_finishes (a n : Nat) (s : State) : Finishes s (spiRgb a n s) := by
  unfold spiRgb
  split
  · exact ⟨s, _, _, .refl _ s, rfl⟩
  · refine Finishes.after (s' := { setState .encoding s with sI := 0 }) (.of_eq rfl) (Finishes.bind (p := id)
      ((encodeFrom_sat _).mono (fun _ h => h.1.trace.notDone) fun _ _ => trivial) fun u => ?_)
    exact Finishes.bind (dataThenLatch_notDone _ u) fun x => complete_finishes _ _ x.2

end

/-! ### A command store that is accepted (R144, R146, R147) -/

/-- The store from `s` that comes to `o` completes: STATE is IDLE, RESULT and DETAIL are those of the one Done event, the last of the
command, and ADDR, COUNT, CFG, READY and the loads are as before (R146). -/
def ReachesFinish (s : State) (o : Out State) : Prop :=
  ∃ t new res det, o = .next t ∧ t.trace = s.trace ++ new ++ [.done res det] ∧ (∀ r d, Event.done r d ∉ new) ∧
    t.status = { result := res, state := .idle, ready := true, detail := det } ∧
    t.addr = s.addr ∧ t.count = s.count ∧ t.cfg = s.cfg ∧ t.loads = s.loads

theorem notMem_of_notDone {l : List Event} (h : ∀ e ∈ l, NotDone e) (r : ResultCode) (d : BitVec 16) : Event.done r d ∉ l :=
  fun hm => h _ hm r d rfl

/-- A command that comes to `finish` leaving ADDR, COUNT and the loads. -/
theorem reachesFinish_of_finish {i : Instr} {s t : State} (h : exec i s = .next t) (hready : s.status.ready = true)
    (hf : ∃ u r d, Grows NotDone s u ∧ t = finish r d u) (ha : t.addr = s.addr) (hn : t.count = s.count) (hl : t.loads = s.loads) :
    ReachesFinish s (exec i s) := by
  obtain ⟨u, r, d, ⟨new, htrace, hnew⟩, rfl⟩ := hf
  obtain ⟨hcfg, hready', -⟩ := exec_sameInstance h
  refine ⟨_, new, r, d.truncate 16, h, ?_, notMem_of_notDone hnew, ?_, ha, hn, hcfg, hl⟩
  · rw [finish_trace, htrace]
  · rw [← hready, ← hready', finish_status]

/-- One that is alone and runs through. -/
theorem Runs.reachesFinish {i : Instr} {run : State → Out State} {s t : State} {race : Race} {ws : List Word}
    (h : Runs run id { s with race := race } t ws) (he : exec i s = run { s with race := race }) (ho : Alone s)
    (hready : s.status.ready = true) (hf : Finishes { s with race := race } (run { s with race := race })) :
    ReachesFinish s (exec i s) := by
  have halone : run { s with race := race } = .next (put s.addr s.count s.loads [] t) :=
    (congrArg run (put_of_alone (by exact ho)).symm).trans (h.alone ..)
  exact reachesFinish_of_finish (he.trans halone) hready (hf.of_next halone) rfl rfl rfl

theorem updateRgbGpio_reachesFinish {s : State} (h : GpioRgbRuns s) : ReachesFinish s (exec .updateRgbGpio s) := by
  obtain ⟨⟨hgpio, hready, hidle, hrange⟩, hwf, ho, hread, hwrite⟩ := h
  obtain ⟨t, k, -, hr⟩ := gpioRgb_runs (s := { s with race := .over (operandA s) (rgbRange s.cfg (operandN s)) }) hwf hread hwrite
  exact hr.reachesFinish (accept_of_takes hgpio hready hidle hrange) ho hready (gpioRgb_finishes hwf)

theorem updateRgbSpi_reachesFinish {s : State} (h : SpiRgbRuns s) : ReachesFinish s (exec .updateRgbSpi s) := by
  obtain ⟨⟨hspi, hready, hidle, hrange⟩, ho, hcap, hread⟩ := h
  obtain ⟨t, hr⟩ := spiRgb_runs (s := { s with race := .over (operandA s) (rgbRange s.cfg (operandN s)) }) hcap hread
  exact hr.reachesFinish (accept_of_takes hspi hready hidle hrange) ho hready (spiRgb_finishes ..)

/-- Beyond the capacity the run is `finish` (R123). -/
theorem updateRgbSpi_overCapacity_reachesFinish {s : State} (h : Takes .spi (rgbRange s.cfg (operandN s)) s)
    (hcap : s.cfg.maxPixels.toNat < operandN s) : ReachesFinish s (exec .updateRgbSpi s) := by
  obtain ⟨hspi, hready, hidle, hrange⟩ := h
  have hrun := accept_of_takes (run := spiRgb) hspi hready hidle hrange
  rw [spiRgb, if_pos (by exact hcap)] at hrun
  exact reachesFinish_of_finish hrun hready ⟨{ s with race := .over _ _ }, _, _, .of_eq rfl, rfl⟩ rfl rfl rfl

/-- And so is UPDATE_CHANNELS.GPIO (R108). -/
theorem updateChannelsGpio_reachesFinish {s : State} (h : Takes .gpio (channelsRange s.cfg (operandN s)) s) :
    ReachesFinish s (exec .updateChannelsGpio s) := by
  obtain ⟨hgpio, hready, hidle, hrange⟩ := h
  exact reachesFinish_of_finish ((exec_updateChannelsGpio s).trans (accept_of_takes hgpio hready hidle hrange)) hready
    ⟨{ s with race := .over _ _ }, _, _, .of_eq rfl, rfl⟩ rfl rfl rfl

theorem channelsOk_iff {s : State} {j : Nat} :
    ChannelsOk s j ↔ ∀ i, i < j → (replyAt s (2 * i)).error = 0 ∧ (replyAt s (2 * i + 1)).error = 0 := by
  refine ⟨fun h i hi => ⟨h _ (by omega), h _ (by omega)⟩, fun h k hk => ?_⟩
  obtain ⟨heven, hodd⟩ := h (k / 2) (by omega)
  rcases Nat.mod_two_eq_zero_or_one k with hk0 | hk1
  · rwa [show 2 * (k / 2) = k by omega] at heven
  · rwa [show 2 * (k / 2) + 1 = k by omega] at hodd

/-- UPDATE_CHANNELS.SPI ends after all its channels, or after the first with a failed write (R124, R125). -/
theorem updateChannelsSpi_ended {s : State} (h : SpiChannelsRuns s) :
    ∃ t j r d, exec .updateChannelsSpi s = .next t ∧ ChannelsEnded j r d s t := by
  by_cases hok : ChannelsOk s (operandN s)
  · obtain ⟨t, ht, hend⟩ := updateChannelsSpi_ok h hok
    exact ⟨t, _, _, _, ht, hend⟩
  · have hex : ∃ j, j < operandN s ∧ ¬ ((replyAt s (2 * j)).error = 0 ∧ (replyAt s (2 * j + 1)).error = 0) := by
      simpa only [channelsOk_iff, not_forall, exists_prop] using hok
    obtain ⟨hj, hfail⟩ := Nat.find_spec hex
    have hbefore : ChannelsOk s (Nat.find hex) :=
      channelsOk_iff.mpr fun i hi => not_not.mp fun hi' => Nat.find_min hex hi ⟨hi.trans hj, hi'⟩
    obtain ⟨t, ht, hend⟩ := updateChannelsSpi_fails h hj hbefore hfail
    exact ⟨t, _, _, _, ht, hend⟩

theorem updateChannelsSpi_reachesFinish {s : State} (h : SpiChannelsRuns s) : ReachesFinish s (exec .updateChannelsSpi s) := by
  have ⟨⟨_, hready, _⟩, _⟩ := h
  obtain ⟨t, j, r, d, hrun, hsame, hstatus, htrace⟩ := updateChannelsSpi_ended h
  rw [hready] at hstatus
  refine ⟨t, _, _, _, hrun, htrace, notMem_of_notDone fun e he => ?_, hstatus, ?_⟩
  · obtain ⟨i, -, he⟩ := List.mem_flatMap.mp he
    simp only [channelEvents, List.mem_cons, List.not_mem_nil, or_false] at he
    rcases he with rfl | rfl | rfl <;> exact nofun
  · rw [hsame]
    exact ⟨rfl, rfl, rfl, rfl⟩

/-! ### A command store of another agent while a command runs (R145, R176) -/

/-- A store of a command word that meets a READY instance is refused as busy (R144, R145). -/
theorem duringOp_cmdStore {c : Word} {d : Nat} {u : State} (hc : reservedWord c = false) (hready : u.status.ready = true) :
    duringOp (wordStore u.cfg d 0 c).op u = .refused .busy := by
  have hd : decode u.cfg.transport u.cfg.regBase (.bus (.store (u.cfg.regBase + 0) (bytesOfWord c))) = .ok (.wrCmd c) :=
    decode_store _ _ .cmd c
  simp only [wordStore, duringOp, hd, duringInstr, refusedDuring, hc, hready, Bool.false_eq_true, Bool.true_eq_false, if_false]

theorem ready_of_statusWord_eq {u v : Status} (h : statusWord u = statusWord v) : u.ready = v.ready := by
  obtain ⟨-, -, hu, -⟩ := statusWord_fields u
  obtain ⟨-, -, hv, -⟩ := statusWord_fields v
  rw [← hu, ← hv, h]

/-- Such a store that comes at a micro-step refuses the run. -/
theorem Runs.refuses_cmdStore {op : State → Out State} {s t : State} {ws : List Word} (h : Runs op id s t ws)
    (hready : s.status.ready = true) {c : Word} {d : Nat} {rest : List Timed} {st : EngineState} (hc : reservedWord c = false)
    (ho : s.others = wordStore s.cfg d 0 c :: rest) (hw : ws[d]? = some (statusIn st s)) : op s = .refused .busy := by
  have hs : s = put s.addr s.count s.loads (wordStore s.cfg d 0 c :: rest) s := by rw [← ho]; rfl
  rw [hs]
  refine h.refuses _ _ _ _ _ _ _ _ hw fun u hcfg hstatus => ?_
  rw [← hcfg]
  exact duringOp_cmdStore (d := d) hc ((ready_of_statusWord_eq hstatus).trans hready)

/-- One that is not due before the end of a run is still to come then. -/
theorem Runs.waits_cons {op : State → Out State} {s t : State} {ws : List Word} (h : Runs op id s t ws) {tm : Timed} {rest : List Timed}
    (hd : ws.length ≤ tm.delay) (ho : s.others = tm :: rest) : ∃ u, op s = .next u ∧ u.others.length = s.others.length := by
  have hs : s = put s.addr s.count s.loads (⟨tm.delay - ws.length + ws.length, tm.op⟩ :: rest) s := by
    rw [Nat.sub_add_cancel hd]
    show s = { s with others := tm :: rest }
    rw [← ho]
  refine ⟨_, (congrArg op hs).trans (h.waits ..), ?_⟩
  rw [ho]
  rfl

section

variable {s : State} {c : Word} {d : Nat} {rest : List Timed} (hc : reservedWord c = false)
  (ho : s.others = wordStore s.cfg d 0 c :: rest)

include hc ho

theorem updateRgbSpi_refuses_cmdStore (h : SpiRgbRuns { s with others := [] }) (hd : d ≤ 3 * operandN s + 4) :
    exec .updateRgbSpi s = .refused .busy := by
  obtain ⟨⟨hspi, hready, hidle, hrange⟩, -, hcap, hread⟩ := h
  obtain ⟨t, hr⟩ := spiRgb_runs (s := { s with race := .over (operandA s) (rgbRange s.cfg (operandN s)) }) hcap hread
  rw [show exec .updateRgbSpi s = _ from accept_of_takes hspi hready hidle hrange]
  exact hr.refuses_cmdStore hready hc ho (spiRgb_moment hd _)

theorem updateChannelsSpi_refuses_cmdStore (h : SpiChannelsRuns { s with others := [] }) (hok : ChannelsOk s (operandN s))
    (hd : d < 6 * operandN s) : exec .updateChannelsSpi s = .refused .busy := by
  obtain ⟨⟨hspi, hready, hidle, hrange⟩, -, hread⟩ := h
  have hn : 0 < operandN s := by omega
  obtain ⟨t, hr⟩ := spiChannels_runs (s := { s with race := .over (operandA s) (channelsRange s.cfg (operandN s)) }) hn hread hok
  rw [show exec .updateChannelsSpi s = _ from accept_of_takes hspi hready hidle hrange]
  exact hr.refuses_cmdStore hready hc ho (spiChannels_moment hd _)

/-- UPDATE_RGB.GPIO has some number `k` of micro-steps, past its clock request: a store at one of them is refused, a later one waits. -/
theorem updateRgbGpio_refuses_cmdStore (h : GpioRgbRuns { s with others := [] }) :
    ∃ k, (3 + stride s.cfg) * operandN s < k ∧ (d < k → exec .updateRgbGpio s = .refused .busy) ∧
      (k ≤ d → ∃ t, exec .updateRgbGpio s = .next t ∧ t.others.length = s.others.length) := by
  obtain ⟨⟨hgpio, hready, hidle, hrange⟩, hwf, -, hread, hwrite⟩ := h
  obtain ⟨t, k, hk, hr⟩ := gpioRgb_runs (s := { s with race := .over (operandA s) (rgbRange s.cfg (operandN s)) }) hwf hread hwrite
  rw [show exec .updateRgbGpio s = _ from accept_of_takes hgpio hready hidle hrange]
  exact ⟨k, hk, fun hd => hr.refuses_cmdStore hready hc ho (List.getElem?_replicate_of_lt hd),
    fun hd => hr.waits_cons (by rw [List.length_replicate]; exact hd) ho⟩

end

/-! ### The accesses a command lets in (R145, R175) -/

/-- An agent's operation that, if it is an access to the window of an instance of configuration `c`, starts no command. -/
def NoCommand (c : Cfg) (op : AgentOp) : Prop := ∀ code, op = .present code → isRegisterAccess c op = true

/-- What the other agents did on the way from `s` to `t` was no command. -/
def LetIn (s t : State) : Prop :=
  t.cfg = s.cfg ∧ ∃ done, s.others.map Timed.op = done ++ t.others.map Timed.op ∧ ∀ op ∈ done, NoCommand s.cfg op

theorem LetIn.of_eq {s t : State} (hc : t.cfg = s.cfg) (ho : t.others = s.others) : LetIn s t := ⟨hc, [], by rw [ho]; rfl, nofun⟩

theorem LetIn.trans {s t u : State} (h : LetIn s t) (h' : LetIn t u) : LetIn s u := by
  obtain ⟨hc, l, hl, hn⟩ := h
  obtain ⟨hc', l', hl', hn'⟩ := h'
  rw [hc] at hn'
  exact ⟨hc'.trans hc, l ++ l', by rw [hl, hl', List.append_assoc], fun op hop => (List.mem_append.mp hop).elim (hn op) (hn' op)⟩

theorem isAccess_of_duringInstr {i : Instr} {s t : State} (h : duringInstr i s = .next t) : isAccess i = true := by
  cases i with
  | rd r | wrAddr v | wrCount v | wrRo r v => rfl
  | _ => cases h

/-- An operation that is carried out while a command runs is no command (R145). -/
theorem noCommand_of_duringOp {op : AgentOp} {s t : State} (h : duringOp op s = .next t) : NoCommand s.cfg op := by
  rintro code rfl
  simp only [duringOp] at h
  split at h
  · next i hi => simp only [isRegisterAccess, hi, isAccess_of_duringInstr h]
  · cases h

theorem runDue_letIn : ∀ {ops : List Timed} {s t : State}, runDue ops s = .next t →
    ∃ done, ops.map Timed.op = done ++ t.others.map Timed.op ∧ ∀ op ∈ done, NoCommand s.cfg op
  | [], s, t, h => by cases h; exact ⟨[], rfl, nofun⟩
  | ⟨0, op⟩ :: rest, s, t, h => by
    obtain ⟨u, h1, h2⟩ := andThen_eq_next h
    obtain ⟨l, hl, hn⟩ := runDue_letIn h2
    rw [(duringOp_next h1).1.fields.1] at hn
    exact ⟨op :: l, congrArg (op :: ·) hl, List.forall_mem_cons.mpr ⟨noCommand_of_duringOp h1, hn⟩⟩
  | ⟨d + 1, op⟩ :: rest, s, t, h => by cases h; exact ⟨[], rfl, nofun⟩

theorem Course.letIn {P : EngineState → Prop} {s t : State} (h : Course P s t) : LetIn s t := by
  induction h with
  | refl => exact .of_eq rfl rfl
  | tick _ _ ht ih => exact ih.trans ⟨(tick_next ht).1.fields.1, runDue_letIn ht⟩
  | block _ hb ih => exact ih.trans (by rw [hb.1]; exact .of_eq rfl rfl)
  | write _ _ _ ih => exact ih.trans (.of_eq rfl rfl)

theorem exec_letIn {i : Instr} {s t : State} (hi : IsCommand i) (h : exec i s = .next t) : LetIn s t := by
  obtain ⟨_, _, _, _, _, hc, rfl⟩ := exec_course hi h
  exact hc.letIn

/-- The operations carried out are the first of those there were. -/
theorem LetIn.take_drop {s t : State} (h : LetIn s t) :
    ∃ k, t.others.map Timed.op = (s.others.drop k).map Timed.op ∧ ∀ tm ∈ s.others.take k, NoCommand s.cfg tm.op := by
  obtain ⟨-, done, hdone, hn⟩ := h
  refine ⟨done.length, ?_, fun tm htm => hn _ ?_⟩
  · rw [List.map_drop, hdone, List.drop_left]
  · have := List.mem_map_of_mem (f := Timed.op) htm
    rwa [List.map_take, hdone, List.take_left] at this

end Sys2Proof.Machine

namespace Sys2Proof.Proofs

open Sys2Proof.Machine

/-- Settles O18: each command that runs comes to `finish`, with no Done event before. -/
theorem acceptedCommandStoreReachesFinish : Obligations.AcceptedCommandStoreReachesFinish := by
  intro s c h
  rw [exec_wrCmd]
  rcases h with ⟨rfl, hgpio | hspi | ⟨htakes, hcap⟩⟩ | ⟨rfl, htakes | hspi⟩
  · rw [hgpio.1.1]
    exact updateRgbGpio_reachesFinish hgpio
  · rw [hspi.1.1]
    exact updateRgbSpi_reachesFinish hspi
  · rw [htakes.1]
    exact updateRgbSpi_overCapacity_reachesFinish htakes hcap
  · rw [htakes.1]
    exact updateChannelsGpio_reachesFinish htakes
  · rw [hspi.1.1]
    exact updateChannelsSpi_reachesFinish hspi

/-- Settles O19: at a micro-step of the run the store is refused, and what a completed command let in was carried out, so no command. -/
theorem secondCommandIsRefusedWhileOneRuns : Obligations.SecondCommandIsRefusedWhileOneRuns := by
  refine ⟨fun s c d rest hc ho => ⟨updateRgbSpi_refuses_cmdStore hc ho, updateChannelsSpi_refuses_cmdStore hc ho, fun h => ?_⟩,
    fun i s t hi h => ?_⟩
  · obtain ⟨k, hk, hrefuses, hwaits⟩ := updateRgbGpio_refuses_cmdStore hc ho h
    exact ⟨fun hd => hrefuses (hd.trans_lt hk), (Nat.lt_or_ge d k).imp hrefuses hwaits⟩
  · exact (exec_letIn hi h).take_drop

/-- Settles O4: the admitted offsets are the registers', and what `check_access` refuses does not decode. -/
theorem checkAccessAdmitsExactlyTheElevenWords : Obligations.CheckAccessAdmitsExactlyTheElevenWords := by
  refine ⟨fun off w => ⟨exists_checkAccess_eq_ok_iff, fun r h => (checkAccess_eq_ok_iff.mp h).2.symm⟩,
    fun s rest a w hw ho hb hp h => ?_, fun s rest a data hw ho hb hp h => ?_⟩
  · obtain ⟨why, hwhy⟩ := checkAccess_eq_error h
    exact ⟨why, step_of_not_decoded hw ho hb hp (by simp only [decode, decodeAccess, hwhy])⟩
  · obtain ⟨why, hwhy⟩ := checkAccess_eq_error h
    exact ⟨why, step_of_not_decoded hw ho hb hp (by simp only [decode, decodeAccess, hwhy])⟩

/-- Settles O15. -/
theorem readOnlyStoreHasNoEffect : Obligations.ReadOnlyStoreHasNoEffect :=
  fun _ r _ h => ⟨checkAccess_offset r, if_pos (readOnly_of_le_offset h)⟩

end Sys2Proof.Proofs
end
